-- ==== Sys2Proof/Word.lean ====
section
/-!
DEFINITION. The words of the block: the 32-bit word of the two ports (R110), the 8-bit header field (R111), the
64-bit operand, result and buffer word (R81, R113). A binary64 value is held as its 64-bit IEEE 754 encoding
(`bits64`, R17); its arithmetic is in Machine/Binary64.lean.
-/

namespace Sys2Proof

/-- A header field: OPC, INST, FA or FB (R111). -/
abbrev Byte := BitVec 8

/-- A word of the command port or the response port (R110, R114). -/
abbrev Word := BitVec 32

/-- An unsigned 64-bit integer operand, result or counter (R16, R113). -/
abbrev U64 := BitVec 64

/-- A binary64 value as its 64-bit encoding, `bits64` of R17 (R12, R81). -/
abbrev F64 := BitVec 64

end Sys2Proof
end

