-- ==== Sys2Proof/Config.lean ====
section
/-!
DEFINITION. What the spec leaves to an implementation.
`Params` are the open parameters of R6, R7 and R10, plain data that `State` carries and no step writes (log 1).
The `opaque` constants have no body: nothing can evaluate them or prove a value of one. They are the five
transcendental functions of R11 (log 3), the two parameters without a default (log 2) and the bits of a NaN (log 10).
Machine/Constants.lean keeps the limits the spec sets on them.
-/

namespace Sys2Proof

/-- UNISON_BASE_PHASE (R10, R151). -/
inductive BasePhase where
  | advance
  | hold
  deriving DecidableEq, Repr

/-- The open parameters of R6, R7 and R10; their legal ranges are `Machine.Params.legal` (Safety.lean). -/
structure Params where
  /-- N, the words of one buffer (R6). -/
  n : Nat
  /-- NUM_VOICES (R7). -/
  numVoices : Nat
  /-- NUM_BUF (R7). -/
  numBuf : Nat
  /-- ENV_ALPHA (R10, R173). -/
  envAlpha : F64
  /-- FILT_SMOOTH_K (R10, R207). -/
  filtSmoothK : F64
  /-- LFO_ALPHA (R10, R232). -/
  lfoAlpha : F64
  /-- SOFTCLIP_DRIVE (R10, R150). -/
  softclipDrive : F64
  /-- UNISON_BASE_PHASE (R10, R151). -/
  unisonBasePhase : BasePhase
  deriving DecidableEq, Repr

/-- NUM_OSC = 2*NUM_VOICES (R7). -/
def Params.numOsc (p : Params) : Nat := 2 * p.numVoices

/-- NUM_ENV = NUM_VOICES (R7). -/
def Params.numEnv (p : Params) : Nat := p.numVoices

/-- NUM_FILT = NUM_VOICES (R7). -/
def Params.numFilt (p : Params) : Nat := p.numVoices

/-- NUM_LFO = 1 (R7). -/
def Params.numLfo (_ : Params) : Nat := 1

/-- FN_SIN before its range property is imposed (R11). -/
opaque Config.sinRaw : F64 → F64

/-- FN_COS before its range property is imposed (R11). -/
opaque Config.cosRaw : F64 → F64

/-- FN_TANH before its range property is imposed (R11). -/
opaque Config.tanhRaw : F64 → F64

/-- FN_EXP before its range property is imposed (R11). -/
opaque Config.expRaw : F64 → F64

/-- FN_EXP2 before its range property is imposed (R11). -/
opaque Config.exp2Raw : F64 → F64

/-- ENV_ALPHA of the power-on block before its legal range is imposed: R10 gives no default (log 2). -/
opaque Config.envAlphaRaw : F64

/-- FILT_SMOOTH_K of the power-on block before its legal range is imposed: R10 gives no default (log 2). -/
opaque Config.filtSmoothKRaw : F64

/-- The arithmetic operations that can answer a NaN from operands that are none. -/
inductive FpOp where
  | add
  | mul
  | div
  | fmod
  deriving DecidableEq, Repr

/-- The sign and payload of the NaN an operation answers for two operands: the spec gives no bits (log 10). -/
opaque Config.nanRaw : FpOp → F64 → F64 → F64

end Sys2Proof
end

