-- ==== Sys2Proof/Syntax.lean ====
section
/-!
DEFINITION. The commands of the block: one constructor per row of Table E1 (R115) and of spec/opcode_table.json.
A command carries its three 8-bit header fields as they arrived, because the block itself checks them (R310, R312)
and records the whole header of a failing command (R313), and then its operands in order (R113).
The pseudo-instructions of R121 and their expansions stand below.
-/

namespace Sys2Proof

inductive Instr where
  /-- R250; the three fields are the hint space of R119. -/
  | nop (inst fa fb : Byte)
  /-- R251 -/
  | coreReset (inst fa fb : Byte)
  /-- R252: INST the instance, FA the class, FB the register number. -/
  | regRead (inst fa fb : Byte)
  /-- R253 -/
  | errClear (inst fa fb : Byte)
  /-- R256: FA the buffer; operands n, value. -/
  | bufWrite (inst fa fb : Byte) (n : U64) (value : F64)
  /-- R257: FA the buffer; operand n. -/
  | bufRead (inst fa fb : Byte) (n : U64)
  /-- R258: FA the buffer. -/
  | bufClear (inst fa fb : Byte)
  /-- R140: INST the oscillator, FA the waveform. -/
  | oscInit (inst fa fb : Byte)
  /-- R141: INST the oscillator, FA the buffer, FB the unison count. -/
  | oscRender (inst fa fb : Byte) (frequency volume : F64) (s0 : U64) (detune : F64)
  /-- R170: INST the envelope. -/
  | envInit (inst fa fb : Byte) (attackMs decayMs sustainLevel releaseMs sustainMs : F64)
  /-- R171: INST the envelope. -/
  | envStep (inst fa fb : Byte)
  /-- R182: INST the envelope, FA the buffer. -/
  | envApply (inst fa fb : Byte)
  /-- R180: INST the envelope. -/
  | envNoteOff (inst fa fb : Byte)
  /-- R200: INST the filter, FA the filter type; operands cutoff, q_in. -/
  | filtUpdate (inst fa fb : Byte) (cutoff qIn : F64)
  /-- R205: INST the filter. -/
  | filtReset (inst fa fb : Byte)
  /-- R206: INST the filter; operand x. -/
  | filtProcess (inst fa fb : Byte) (x : F64)
  /-- R210: INST the filter, FA the buffer. -/
  | filtApply (inst fa fb : Byte)
  /-- R230: INST the LFO, FA the enable value. -/
  | lfoEnable (inst fa fb : Byte)
  /-- R231: INST the LFO; operands rate, depth. -/
  | lfoStep (inst fa fb : Byte) (rate depth : F64)
  deriving DecidableEq, Repr

/-- The pseudo-instructions of R121. -/
inductive Pseudo where
  /-- `filt.set filt<i>, <type>, <cutoff>, <q>` -/
  | filtSet (filt type : Byte) (cutoff q : F64)
  /-- `lfo.restart` -/
  | lfoRestart
  deriving DecidableEq, Repr

/-- The exact expansions of R121, in the order an assembler emits them. -/
def Pseudo.expand : Pseudo → List Instr
  | .filtSet i t cutoff q => [.filtUpdate i t 0 cutoff q, .filtReset i 0 0]
  | .lfoRestart => [.lfoEnable 0 0 0, .lfoEnable 0 1 0]

end Sys2Proof
end

