-- ==== Sys2Proof/WellFormed.lean ====
section
/-!
DEFINITION. The well-formed commands: those whose header fields Table E1 and R117 admit whatever the configuration.
A command that is not well-formed is one the block refuses with BAD_FIELD (R310); the block still decodes it, so
decoding and encoding agree on every command, well-formed or not.
-/

namespace Sys2Proof

/-- How many registers Table S1 (R61) lists for a class of R60; a class of 5 or more is none. -/
def registerCount (cls : Byte) : Nat :=
  match cls.toNat with
  | 0 => 11
  | 1 => 3
  | 2 => 11
  | 3 => 16
  | 4 => 3
  | _ => 0

/-- The header fields are those of the command's row of Table E1 (R115, R117). -/
def Instr.wellFormed : Instr → Bool
  | .nop _ _ _ => true
  | .coreReset inst fa fb => inst == 0 && fa == 0 && fb == 0
  | .regRead _ fa fb => decide (fb.toNat < registerCount fa)
  | .errClear inst fa fb => inst == 0 && fa == 0 && fb == 0
  | .bufWrite inst _ fb _ _ => inst == 0 && fb == 0
  | .bufRead inst _ fb _ => inst == 0 && fb == 0
  | .bufClear inst _ fb => inst == 0 && fb == 0
  | .oscInit _ fa fb => decide (fa.toNat ≤ 3) && fb == 0
  | .oscRender _ _ _ _ _ _ _ => true
  | .envInit _ fa fb _ _ _ _ _ => fa == 0 && fb == 0
  | .envStep _ fa fb => fa == 0 && fb == 0
  | .envApply _ _ fb => fb == 0
  | .envNoteOff _ fa fb => fa == 0 && fb == 0
  | .filtUpdate _ fa fb _ _ => decide (fa.toNat ≤ 2) && fb == 0
  | .filtReset _ fa fb => fa == 0 && fb == 0
  | .filtProcess _ fa fb _ => fa == 0 && fb == 0
  | .filtApply _ _ fb => fb == 0
  | .lfoEnable _ fa fb => decide (fa.toNat ≤ 1) && fb == 0
  | .lfoStep _ fa fb _ _ => fa == 0 && fb == 0

end Sys2Proof
end

