-- ==== Sys2Proof/Decode.lean ====
section
/-!
DEFINITION. The decoder of the command port, total on every stream of words, and the encoder (R110-R118).
Decoding looks at the first words of the stream: it answers the command of a whole packet with the words after it,
or the header of an illegal packet (R112, R118), or that no whole packet has arrived. A transport that carries bytes
sends each word least significant byte first (R84).
-/

namespace Sys2Proof

/-- OPC, bits 31:24 of a header (R111). -/
def opcOf (h : Word) : Byte := h.extractLsb' 24 8

/-- INST, bits 23:16 of a header (R111). -/
def instOf (h : Word) : Byte := h.extractLsb' 16 8

/-- FA, bits 15:8 of a header (R111). -/
def faOf (h : Word) : Byte := h.extractLsb' 8 8

/-- FB, bits 7:0 of a header (R111). -/
def fbOf (h : Word) : Byte := h.extractLsb' 0 8

/-- A header from its four fields (R111). -/
def mkHeader (opc inst fa fb : Byte) : Word := opc ++ inst ++ fa ++ fb

/-- The 64-bit value of two port words, `{second word, first word}` (R113). -/
def joinWords (first second : Word) : U64 := second ++ first

/-- Bits 31:0 of a 64-bit value, the word sent first (R84). -/
def lowWord (v : U64) : Word := v.extractLsb' 0 32

/-- Bits 63:32 of a 64-bit value, the word sent second (R84). -/
def highWord (v : U64) : Word := v.extractLsb' 32 32

/-- What the front of a word stream holds. -/
inductive Decoded where
  /-- A whole packet of an assigned opcode, and the words after it. -/
  | command (i : Instr) (rest : List Word)
  /-- The one-word packet of an unassigned opcode, rejected by its header, and the words after it (R112, R118). -/
  | illegal (hdr : Word) (rest : List Word)
  /-- No whole packet: the stream is empty or ends inside a packet. -/
  | incomplete
  deriving DecidableEq, Repr

/-- One operand taken from the stream (K = 1). -/
def takeOperands1 (mk : U64 → Instr) : List Word → Decoded
  | l0 :: h0 :: rest => .command (mk (joinWords l0 h0)) rest
  | _ => .incomplete

/-- Two operands taken from the stream (K = 2). -/
def takeOperands2 (mk : U64 → U64 → Instr) : List Word → Decoded
  | l0 :: h0 :: l1 :: h1 :: rest => .command (mk (joinWords l0 h0) (joinWords l1 h1)) rest
  | _ => .incomplete

/-- Four operands taken from the stream (K = 4). -/
def takeOperands4 (mk : U64 → U64 → U64 → U64 → Instr) : List Word → Decoded
  | l0 :: h0 :: l1 :: h1 :: l2 :: h2 :: l3 :: h3 :: rest =>
    .command (mk (joinWords l0 h0) (joinWords l1 h1) (joinWords l2 h2) (joinWords l3 h3)) rest
  | _ => .incomplete

/-- Five operands taken from the stream (K = 5). -/
def takeOperands5 (mk : U64 → U64 → U64 → U64 → U64 → Instr) : List Word → Decoded
  | l0 :: h0 :: l1 :: h1 :: l2 :: h2 :: l3 :: h3 :: l4 :: h4 :: rest =>
    .command (mk (joinWords l0 h0) (joinWords l1 h1) (joinWords l2 h2) (joinWords l3 h3) (joinWords l4 h4)) rest
  | _ => .incomplete

/-- Table E1 (R115), read by OPC alone (R112): the words after a header decide only the operands. -/
def decodeHeader (h : Word) (ws : List Word) : Decoded :=
  let inst := instOf h
  let fa := faOf h
  let fb := fbOf h
  match (opcOf h).toNat with
  | 0x00 => .command (.nop inst fa fb) ws
  | 0x01 => .command (.coreReset inst fa fb) ws
  | 0x02 => .command (.regRead inst fa fb) ws
  | 0x03 => .command (.errClear inst fa fb) ws
  | 0x08 => takeOperands2 (.bufWrite inst fa fb) ws
  | 0x09 => takeOperands1 (.bufRead inst fa fb) ws
  | 0x0A => .command (.bufClear inst fa fb) ws
  | 0x10 => .command (.oscInit inst fa fb) ws
  | 0x11 => takeOperands4 (.oscRender inst fa fb) ws
  | 0x20 => takeOperands5 (.envInit inst fa fb) ws
  | 0x21 => .command (.envStep inst fa fb) ws
  | 0x22 => .command (.envApply inst fa fb) ws
  | 0x23 => .command (.envNoteOff inst fa fb) ws
  | 0x30 => takeOperands2 (.filtUpdate inst fa fb) ws
  | 0x31 => .command (.filtReset inst fa fb) ws
  | 0x32 => takeOperands1 (.filtProcess inst fa fb) ws
  | 0x33 => .command (.filtApply inst fa fb) ws
  | 0x40 => .command (.lfoEnable inst fa fb) ws
  | 0x41 => takeOperands2 (.lfoStep inst fa fb) ws
  | _ => .illegal h ws

/-- The packet at the front of a word stream (R110, R112). -/
def decode : List Word → Decoded
  | [] => .incomplete
  | h :: ws => decodeHeader h ws

/-- The opcode of a command (R115, Table E1). -/
def Instr.opc : Instr → Byte
  | .nop _ _ _ => 0x00
  | .coreReset _ _ _ => 0x01
  | .regRead _ _ _ => 0x02
  | .errClear _ _ _ => 0x03
  | .bufWrite _ _ _ _ _ => 0x08
  | .bufRead _ _ _ _ => 0x09
  | .bufClear _ _ _ => 0x0A
  | .oscInit _ _ _ => 0x10
  | .oscRender _ _ _ _ _ _ _ => 0x11
  | .envInit _ _ _ _ _ _ _ _ => 0x20
  | .envStep _ _ _ => 0x21
  | .envApply _ _ _ => 0x22
  | .envNoteOff _ _ _ => 0x23
  | .filtUpdate _ _ _ _ _ => 0x30
  | .filtReset _ _ _ => 0x31
  | .filtProcess _ _ _ _ => 0x32
  | .filtApply _ _ _ => 0x33
  | .lfoEnable _ _ _ => 0x40
  | .lfoStep _ _ _ _ _ => 0x41

/-- INST of a command (R111). -/
def Instr.inst : Instr → Byte
  | .nop i _ _ | .coreReset i _ _ | .regRead i _ _ | .errClear i _ _ | .bufWrite i _ _ _ _ | .bufRead i _ _ _
  | .bufClear i _ _ | .oscInit i _ _ | .oscRender i _ _ _ _ _ _ | .envInit i _ _ _ _ _ _ _ | .envStep i _ _
  | .envApply i _ _ | .envNoteOff i _ _ | .filtUpdate i _ _ _ _ | .filtReset i _ _ | .filtProcess i _ _ _
  | .filtApply i _ _ | .lfoEnable i _ _ | .lfoStep i _ _ _ _ => i

/-- FA of a command (R111). -/
def Instr.fa : Instr → Byte
  | .nop _ a _ | .coreReset _ a _ | .regRead _ a _ | .errClear _ a _ | .bufWrite _ a _ _ _ | .bufRead _ a _ _
  | .bufClear _ a _ | .oscInit _ a _ | .oscRender _ a _ _ _ _ _ | .envInit _ a _ _ _ _ _ _ | .envStep _ a _
  | .envApply _ a _ | .envNoteOff _ a _ | .filtUpdate _ a _ _ _ | .filtReset _ a _ | .filtProcess _ a _ _
  | .filtApply _ a _ | .lfoEnable _ a _ | .lfoStep _ a _ _ _ => a

/-- FB of a command (R111). -/
def Instr.fb : Instr → Byte
  | .nop _ _ b | .coreReset _ _ b | .regRead _ _ b | .errClear _ _ b | .bufWrite _ _ b _ _ | .bufRead _ _ b _
  | .bufClear _ _ b | .oscInit _ _ b | .oscRender _ _ b _ _ _ _ | .envInit _ _ b _ _ _ _ _ | .envStep _ _ b
  | .envApply _ _ b | .envNoteOff _ _ b | .filtUpdate _ _ b _ _ | .filtReset _ _ b | .filtProcess _ _ b _
  | .filtApply _ _ b | .lfoEnable _ _ b | .lfoStep _ _ b _ _ => b

/-- The operand values of a command in ascending operand number (R113, Table E1). -/
def Instr.operands : Instr → List U64
  | .bufWrite _ _ _ n value => [n, value]
  | .bufRead _ _ _ n => [n]
  | .oscRender _ _ _ frequency volume s0 detune => [frequency, volume, s0, detune]
  | .envInit _ _ _ attackMs decayMs sustainLevel releaseMs sustainMs =>
    [attackMs, decayMs, sustainLevel, releaseMs, sustainMs]
  | .filtUpdate _ _ _ cutoff qIn => [cutoff, qIn]
  | .filtProcess _ _ _ x => [x]
  | .lfoStep _ _ _ rate depth => [rate, depth]
  | .nop _ _ _ | .coreReset _ _ _ | .regRead _ _ _ | .errClear _ _ _ | .bufClear _ _ _ | .oscInit _ _ _
  | .envStep _ _ _ | .envApply _ _ _ | .envNoteOff _ _ _ | .filtReset _ _ _ | .filtApply _ _ _
  | .lfoEnable _ _ _ => []

/-- The header word of a command (R111). -/
def Instr.header (i : Instr) : Word := mkHeader i.opc i.inst i.fa i.fb

/-- Operand values as port words, the low word of each first (R84, R110). -/
def operandWords : List U64 → List Word
  | [] => []
  | v :: vs => lowWord v :: highWord v :: operandWords vs

/-- The packet of a command (R110). -/
def encode (i : Instr) : List Word := i.header :: operandWords i.operands

/-- A port word as the bytes a byte transport carries, least significant first (R84). -/
def bytesOfWord (w : Word) : List Byte :=
  [w.extractLsb' 0 8, w.extractLsb' 8 8, w.extractLsb' 16 8, w.extractLsb' 24 8]

/-- Port words as the bytes of a byte transport (R84). -/
def bytesOfWords (ws : List Word) : List Byte := ws.flatMap bytesOfWord

/-- The port words a byte transport has delivered whole (R84). -/
def wordsOfBytes : List Byte → List Word
  | b0 :: b1 :: b2 :: b3 :: rest => (b3 ++ b2 ++ b1 ++ b0) :: wordsOfBytes rest
  | _ => []

/-- K, the operand count an opcode fixes; 0 for an unassigned opcode (R112, Table E1). -/
def operandCount (opc : Byte) : Nat :=
  match opc.toNat with
  | 0x08 => 2
  | 0x09 => 1
  | 0x11 => 4
  | 0x20 => 5
  | 0x30 => 2
  | 0x32 => 1
  | 0x41 => 2
  | _ => 0

/-- The words of a packet, 1 + 2*K, told from OPC alone (R110, R112). -/
def packetLength (opc : Byte) : Nat := 1 + 2 * operandCount opc

/-- The longest packet: ENV_INIT with K = 5 (Table E1). -/
def maxPacketWords : Nat := 11

/-- The packet's words when its bits are numbered from bit 0 of the header up, as spec/opcode_table.json numbers
them: word k is bits 32k+31..32k; the bits from nbits up are 0. -/
def packetWords (nbits w : Nat) : List Word :=
  (List.range maxPacketWords).map fun k => BitVec.ofNat 32 ((w % 2 ^ nbits) >>> (32 * k))

/-- The packet alone: as many of those words as its opcode gives it (R112). -/
def framedPacket (nbits w : Nat) : List Word :=
  let ws := packetWords nbits w
  ws.take (packetLength (opcOf (ws.headD 0)))

/-- The command this decoder reads from a packet whose bits are w. -/
def decodeTableWord (nbits w : Nat) : Option Instr :=
  match decode (packetWords nbits w) with
  | .command i _ => some i
  | .illegal _ _ => none
  | .incomplete => none

end Sys2Proof
end

