-- ==== Sys2Proof/Machine/Binary64.lean ====
section
/-!
DEFINITION. The IEEE 754 binary64 operations of R12: round to nearest, ties to even, one rounding per operation
(R13). A finite binary64 is a whole number of units of 2^-1074, so an exact result is a ratio of two natural numbers
in that unit and one function, `roundBits`, does every rounding. Order is that of the signed magnitude bits.
The bits of a NaN result are free (log 10).
-/

namespace Sys2Proof.Machine

/-- The magnitude encoding of infinity; a smaller magnitude is finite, a larger one a NaN. -/
def infBits : Nat := 0x7FF0000000000000

/-- One in units of 2^-1074. -/
def oneUnits : Nat := 1 <<< 1074

/-- The sign bit of a binary64. -/
def fsign (x : F64) : Bool := x.msb

/-- The 63 exponent and fraction bits of a binary64. -/
def magBits (x : F64) : Nat := x.toNat % 0x8000000000000000

/-- The value is a NaN. -/
def isNaN (x : F64) : Bool := decide (infBits < magBits x)

/-- The value is +infinity or -infinity. -/
def isInf (x : F64) : Bool := decide (magBits x = infBits)

/-- `finite(v)` of R15. -/
def isFinite (x : F64) : Bool := decide (magBits x < infBits)

/-- The value is +0.0 or -0.0. -/
def isZero (x : F64) : Bool := decide (magBits x = 0)

/-- The binary64 with a sign and a magnitude encoding. -/
def pack (neg : Bool) (bits : Nat) : F64 := BitVec.ofNat 64 ((if neg then 0x8000000000000000 else 0) + bits)

/-- The infinity of a sign. -/
def infinity (neg : Bool) : F64 := pack neg infBits

/-- A quiet NaN: exponent and quiet bit set, its sign and payload free (log 10). -/
def nanResult (op : FpOp) (a b : F64) : F64 := Config.nanRaw op a b ||| 0x7FF8000000000000#64

/-- The value of a finite magnitude encoding in units of 2^-1074. -/
def magUnits (bits : Nat) : Nat :=
  if bits < 0x10000000000000 then bits
  else (0x10000000000000 + bits % 0x10000000000000) <<< (bits / 0x10000000000000 - 1)

/-- The magnitude of a finite binary64 in units of 2^-1074. -/
def units (x : F64) : Nat := magUnits (magBits x)

/-- The signed value of a finite binary64 in units of 2^-1074. -/
def signedUnits (x : F64) : Int := if fsign x then -(units x : Int) else (units x : Int)

/-- The natural number nearest num/den, ties to even. -/
def roundHalfEven (num den : Nat) : Nat :=
  let q := num / den
  let twice := 2 * (num % den)
  if twice < den then q else if den < twice then q + 1 else q + q % 2

/-- The magnitude encoding of the binary64 nearest num/den units of 2^-1074, ties to even; infinity on overflow.
With 2^e the spacing of binary64 values at num/den, r the rounded number of spacings, the encoding is e*2^52 + r. -/
def roundBits (num den : Nat) : Nat :=
  let e := (num / den).log2 - 52
  min (e * 0x10000000000000 + roundHalfEven num (den <<< e)) infBits

/-- The rounded binary64 of a sign and an exact magnitude num/den in units of 2^-1074. -/
def roundTo (neg : Bool) (num den : Nat) : F64 := pack neg (roundBits num den)

/-- `-a`: only the sign bit changes (R12). -/
def fneg (a : F64) : F64 := a ^^^ 0x8000000000000000#64

/-- `abs(a)`: only the sign bit changes (R12). -/
def fabs (a : F64) : F64 := a &&& 0x7FFFFFFFFFFFFFFF#64

/-- The sum of two finite values; an exact zero is -0.0 only when both operands are. -/
def addFinite (a b : F64) : F64 :=
  let z := signedUnits a + signedUnits b
  if z = 0 then pack (fsign a && fsign b) 0 else roundTo (decide (z < 0)) z.natAbs 1

/-- `a + b` (R12). -/
def fadd (a b : F64) : F64 :=
  if isNaN a || isNaN b then nanResult .add a b
  else if isInf a then (if isInf b && fsign a != fsign b then nanResult .add a b else a)
  else if isInf b then b
  else addFinite a b

/-- `a - b` (R12). -/
def fsub (a b : F64) : F64 := fadd a (fneg b)

/-- `a * b` (R12). -/
def fmul (a b : F64) : F64 :=
  let neg := fsign a != fsign b
  if isNaN a || isNaN b then nanResult .mul a b
  else if isInf a || isInf b then (if isZero a || isZero b then nanResult .mul a b else infinity neg)
  else roundTo neg (units a * units b) oneUnits

/-- `a / b` (R12). -/
def fdiv (a b : F64) : F64 :=
  let neg := fsign a != fsign b
  if isNaN a || isNaN b then nanResult .div a b
  else if isInf a then (if isInf b then nanResult .div a b else infinity neg)
  else if isInf b then pack neg 0
  else if isZero b then (if isZero a then nanResult .div a b else infinity neg)
  else roundTo neg (units a * oneUnits) (units b)

/-- `fmod(a, b)` (R12, R149): the exact remainder of the truncated quotient, with the sign of a. -/
def ffmod (a b : F64) : F64 :=
  if isNaN a || isNaN b || isInf a || isZero b then nanResult .fmod a b
  else if isInf b then a
  else roundTo (fsign a) (units a % units b) 1

/-- `float(i)`: an unsigned integer to binary64 (R12). -/
def ffloat (i : Nat) : F64 := roundTo false (i * oneUnits) 1

/-- `floor(a)` of a finite value that is not negative, as an unsigned integer (R12, R170, log 15). -/
def ffloor (a : F64) : Nat := units a / oneUnits

/-- The order of the values that are no NaN: their signed magnitude bits (-0.0 and +0.0 are equal). -/
def orderKey (x : F64) : Int := if fsign x then -(magBits x : Int) else (magBits x : Int)

/-- `a < b` (R12): false when either is a NaN. -/
def flt (a b : F64) : Bool := !isNaN a && !isNaN b && decide (orderKey a < orderKey b)

/-- `a <= b` (R12): false when either is a NaN. -/
def fle (a b : F64) : Bool := !isNaN a && !isNaN b && decide (orderKey a ≤ orderKey b)

/-- `a == b` (R12): false when either is a NaN; -0.0 == +0.0. -/
def feq (a b : F64) : Bool := !isNaN a && !isNaN b && decide (orderKey a = orderKey b)

/-- `clamp(v, lo, hi)` of R14. -/
def fclamp (v lo hi : F64) : F64 := if flt v lo then lo else if flt hi v then hi else v

/-- A decimal spelling m/10^k as its nearest binary64 (R13, R120). -/
def fdecimal (neg : Bool) (m k : Nat) : F64 := roundTo neg (m * oneUnits) (10 ^ k)

end Sys2Proof.Machine
end

