-- ==== Sys2Proof/Machine/Constants.lean ====
section
/-!
DEFINITION. The constants of R5, R8 and R9 and the literals of the pseudocode as binary64 encodings (R13), the five
FN fields with the range properties of R11 (log 3), and the parameters of the power-on block (R6, R7, R10, log 2).
Tests/Slice0.lean checks each literal against its decimal spelling.
-/

namespace Sys2Proof.Machine

/-- +0.0 -/
def c0 : F64 := 0x0000000000000000#64
/-- 0.1 -/
def c0p1 : F64 := 0x3FB999999999999A#64
/-- 0.25 -/
def c0p25 : F64 := 0x3FD0000000000000#64
/-- 0.5 -/
def c0p5 : F64 := 0x3FE0000000000000#64
/-- 1.0 -/
def c1 : F64 := 0x3FF0000000000000#64
/-- -1.0 -/
def cNeg1 : F64 := 0xBFF0000000000000#64
/-- 2.0 -/
def c2 : F64 := 0x4000000000000000#64
/-- -2.0 -/
def cNeg2 : F64 := 0xC000000000000000#64
/-- -5.0, the release shape constant of R8 as R172 writes it -/
def cNeg5 : F64 := 0xC014000000000000#64
/-- 10.0 -/
def c10 : F64 := 0x4024000000000000#64
/-- 20.0 -/
def c20 : F64 := 0x4034000000000000#64
/-- 32.0 -/
def c32 : F64 := 0x4040000000000000#64
/-- 50.0 -/
def c50 : F64 := 0x4049000000000000#64
/-- 100.0 -/
def c100 : F64 := 0x4059000000000000#64
/-- 1000.0 -/
def c1000 : F64 := 0x408F400000000000#64
/-- 1200.0 -/
def c1200 : F64 := 0x4092C00000000000#64
/-- 20000.0 -/
def c20000 : F64 := 0x40D3880000000000#64
/-- SR = 44100.0 (R5) -/
def SR : F64 := 0x40E5888000000000#64
/-- NYQ = 22050.0 (R5) -/
def NYQ : F64 := 0x40D5888000000000#64
/-- UNI_FMIN = 20.0 (R8) -/
def UNI_FMIN : F64 := 0x4034000000000000#64
/-- UNI_FMAX = 0.9*NYQ = 19845.0 (R8) -/
def UNI_FMAX : F64 := 0x40D3614000000000#64
/-- PI = 3.141592653589793 (R9) -/
def PI : F64 := 0x400921FB54442D18#64
/-- TWO_PI = 6.283185307179586 (R9) -/
def TWO_PI : F64 := 0x401921FB54442D18#64
/-- PHI = 1.618033988749895 (R9) -/
def PHI : F64 := 0x3FF9E3779B97F4A8#64
/-- MS_MAX = 1000000.0 (R9) -/
def MS_MAX : F64 := 0x412E848000000000#64
/-- CORE.ID (R33) -/
def CORE_ID : U64 := 0x53594E5400000001#64

/-- A value kept to a closed range: a value outside it, or a NaN, becomes the other one given. -/
def keepWithin (lo hi other v : F64) : F64 := if fle lo v && fle v hi then v else other

/-- `FN_SIN`: any function whose values lie in [-1.0, 1.0] (R11, log 3). -/
def fnSin (x : F64) : F64 := keepWithin cNeg1 c1 c0 (Config.sinRaw x)

/-- `FN_COS`: any function whose values lie in [-1.0, 1.0] (R11, log 3). -/
def fnCos (x : F64) : F64 := keepWithin cNeg1 c1 c0 (Config.cosRaw x)

/-- `FN_TANH`: any function whose values lie in [-1.0, 1.0] (R11, log 3). -/
def fnTanh (x : F64) : F64 := keepWithin cNeg1 c1 c0 (Config.tanhRaw x)

/-- `FN_EXP`: any function whose values lie in [0.0, 1.0] for x <= 0.0 (R11, log 3). -/
def fnExp (x : F64) : F64 := if fle x c0 then keepWithin c0 c1 c0 (Config.expRaw x) else Config.expRaw x

/-- `FN_EXP2`: any function whose values are finite and > 0.0 for |x| <= 1.0 (R11, log 3). -/
def fnExp2 (x : F64) : F64 :=
  let y := Config.exp2Raw x
  if fle (fabs x) c1 && !(isFinite y && flt c0 y) then c1 else y

/-- ENV_ALPHA of the power-on block: any value in 0 < x < 1 (R10, log 2). -/
def defaultEnvAlpha : F64 :=
  if flt c0 Config.envAlphaRaw && flt Config.envAlphaRaw c1 then Config.envAlphaRaw else c0p5

/-- FILT_SMOOTH_K of the power-on block: any value in 0 < x <= 1 (R10, log 2). -/
def defaultFiltSmoothK : F64 :=
  if flt c0 Config.filtSmoothKRaw && fle Config.filtSmoothKRaw c1 then Config.filtSmoothKRaw else c0p5

/-- The parameters of the power-on block: the defaults of R6, R7 and R10, a free value where R10 gives none. -/
def defaultParams : Params where
  n := 1024
  numVoices := 16
  numBuf := 32
  envAlpha := defaultEnvAlpha
  filtSmoothK := defaultFiltSmoothK
  lfoAlpha := defaultEnvAlpha
  softclipDrive := c1
  unisonBasePhase := .advance

end Sys2Proof.Machine
end

