-- ==== Sys2Proof/Machine/State.lean ====
section
/-!
DEFINITION. The state of the block: every item of 10_state.md, the buffer memory, the two ports and the position in
the command stream, as plain data, and the state after power-on reset (R340, R342). INVENTORY.md lists the items.
-/

namespace Sys2Proof.Machine

/-- The status codes of R310, Table X1; the codes 7..255 are never produced, so the type has no value for them. -/
inductive Status where
  | ok
  | illegalOpcode
  | badField
  | badInstance
  | badBuffer
  | nonfiniteOperand
  | badIndex
  deriving DecidableEq, Repr

/-- WAVEFORM (R37). -/
inductive Waveform where
  | sine
  | square
  | saw
  | triangle
  deriving DecidableEq, Repr

/-- STAGE (R40). -/
inductive Stage where
  | attack
  | decay
  | sustain
  | release
  deriving DecidableEq, Repr

/-- TYPE of a filter (R48). -/
inductive FiltType where
  | lowpass
  | highpass
  | bandpass
  deriving DecidableEq, Repr

/-- CORE.ERR and CORE.ERR_CMD (R35, R36): the fields that do not always read 0. -/
structure ErrorRegs where
  /-- ERR.CODE -/
  code : Status
  /-- ERR.VALID -/
  valid : Bool
  /-- ERR.OVERFLOW -/
  overflow : Bool
  /-- ERR_CMD bits 31:0 -/
  cmd : Word
  deriving DecidableEq, Repr

/-- An oscillator unit (R37-R39). -/
structure Osc where
  waveform : Waveform
  phase : F64
  frequency : F64
  deriving DecidableEq, Repr

/-- An envelope unit (R40-R47). -/
structure Env where
  stage : Stage
  finished : Bool
  sampleIndex : U64
  releaseStart : U64
  envAtRelease : F64
  prev : F64
  attackSamples : U64
  decaySamples : U64
  sustainSamples : U64
  releaseSamples : U64
  sustainLevel : F64
  deriving DecidableEq, Repr

/-- A coefficient set (A0, A1, A2, B1, B2) (R49, R50). -/
structure Coeffs where
  a0 : F64
  a1 : F64
  a2 : F64
  b1 : F64
  b2 : F64
  deriving DecidableEq, Repr

/-- A filter unit (R48-R55). -/
structure Filt where
  type : FiltType
  fallback : Bool
  nonfinite : Bool
  cutoff : F64
  q : F64
  tgt : Coeffs
  cur : Coeffs
  z1 : F64
  z2 : F64
  deriving DecidableEq, Repr

/-- The LFO unit (R56, R57). -/
structure Lfo where
  enabled : Bool
  phase : F64
  prev : F64
  deriving DecidableEq, Repr

/-- The buffer memory: (word address, word) pairs in rising order of address, none holding +0.0, which is what an
unlisted word reads as (R58, R340, log 4). -/
abbrev Memory := List (Nat × F64)

structure State where
  /-- The parameters, which CFG_N to CFG_SOFTCLIP_DRIVE read back (R34, log 1). -/
  params : Params
  /-- CORE.ERR, CORE.ERR_CMD (R35, R36) -/
  err : ErrorRegs
  /-- osc[0] .. osc[NUM_OSC-1] (R37-R39) -/
  osc : List Osc
  /-- env[0] .. env[NUM_ENV-1] (R40-R47) -/
  env : List Env
  /-- filt[0] .. filt[NUM_FILT-1] (R48-R55) -/
  filt : List Filt
  /-- lfo[0] (R56, R57) -/
  lfo : Lfo
  /-- the buffer memory (R58) -/
  mem : Memory
  /-- the words on the command port, the first to arrive first (R90, R110, log 6) -/
  cmdPort : List Word
  /-- the words sent on the response port, the first sent first (R114, log 8) -/
  respPort : List Word
  /-- the index of the next packet in the command stream (R31, log 9) -/
  position : Nat
  deriving DecidableEq, Repr

/-- No command stops the block (R313; 93_implementation_defined.md: no behaviour is left as a fault), so no fault
is raised by anyone and the type is empty (log 11). -/
inductive Fault where
  deriving DecidableEq, Repr

/-- What the model does not give a meaning. -/
inductive Refusal where
  /-- Raised by an arm of `exec` whose command has no meaning yet; safe: the model stops where the block goes on.
  No arm raises it. -/
  | notModelled (mnemonic : String)
  deriving DecidableEq, Repr

/-- The outcome of a command or a step. -/
abbrev Out := Host.Outcome State Fault Refusal

/-- ERR = 0, ERR_CMD = 0 (R35, R36, R340). -/
def ErrorRegs.reset : ErrorRegs where
  code := .ok
  valid := false
  overflow := false
  cmd := 0

/-- (WAVEFORM SINE, PHASE +0.0, FREQUENCY +0.0) (R340). -/
def Osc.reset : Osc where
  waveform := .sine
  phase := c0
  frequency := c0

/-- The idle envelope (R40, R340). -/
def Env.reset : Env where
  stage := .release
  finished := true
  sampleIndex := 0
  releaseStart := 0
  envAtRelease := c0
  prev := c0
  attackSamples := 1
  decaySamples := 1
  sustainSamples := 1
  releaseSamples := 1
  sustainLevel := c0

/-- The identity coefficients (1.0, 0.0, 0.0, 0.0, 0.0) (R49). -/
def Coeffs.identity : Coeffs where
  a0 := c1
  a1 := c0
  a2 := c0
  b1 := c0
  b2 := c0

/-- The reset filter (R340). -/
def Filt.reset : Filt where
  type := .lowpass
  fallback := false
  nonfinite := false
  cutoff := c0
  q := c0
  tgt := .identity
  cur := .identity
  z1 := c0
  z2 := c0

/-- (ENABLED 0, PHASE +0.0, PREV +0.0) (R340). -/
def Lfo.reset : Lfo where
  enabled := false
  phase := c0
  prev := c0

/-- The power-on state of a block with the parameters p (R340, R342): every item at its reset value, both ports
empty, the next packet the first. -/
def State.powerOn (p : Params) : State where
  params := p
  err := .reset
  osc := List.replicate p.numOsc .reset
  env := List.replicate p.numEnv .reset
  filt := List.replicate p.numFilt .reset
  lfo := .reset
  mem := []
  cmdPort := []
  respPort := []
  position := 0

/-- The state right after power-on reset, with the parameters at their defaults (log 2). -/
def State.reset : State := .powerOn defaultParams

end Sys2Proof.Machine
end

