-- ==== Sys2Proof/Machine/Ops.lean ====
section
/-!
DEFINITION. The operations every command shares: the buffer memory (R80-R88), a unit's state by its index (R18), the
two answers a command can give, `respond` and `refuse` (R18, R114, R313), the acceptance of a packet from the command
port (R31, R90) and the reset of the whole block (R340).
A failing command is this block's one exceptional event; there is no vector to go to and no return (R317).
-/

namespace Sys2Proof.Machine

/-- What a word address that the memory does not list reads as (R58, R340). -/
def unlistedWord : F64 := c0

/-- The word at an address. -/
def readWord : Memory → Nat → F64
  | [], _ => unlistedWord
  | c :: m, a => if c.1 = a then c.2 else readWord m a

/-- The memory with one word written, in its one canonical form: rising addresses, no word listed that an unlisted
address reads as. -/
def writeWord : Memory → Nat → F64 → Memory
  | [], a, v => if v = unlistedWord then [] else [(a, v)]
  | c :: m, a, v =>
    if c.1 < a then c :: writeWord m a v
    else if c.1 = a then (if v = unlistedWord then m else (a, v) :: m)
    else (if v = unlistedWord then c :: m else (a, v) :: c :: m)

/-- The word address of word n of buffer b in buffers of N words (R80, R88, log 5). -/
def wordAddr (bufWords b n : Nat) : Nat := b * bufWords + n

/-- `MemRead(b, n)` (R18). -/
def State.memRead (s : State) (b n : Nat) : F64 := readWord s.mem (wordAddr s.params.n b n)

/-- `MemWrite(b, n, v)` (R18). -/
def State.memWrite (s : State) (b n : Nat) (v : F64) : State :=
  { s with mem := writeWord s.mem (wordAddr s.params.n b n) v }

/-- `count` words of a buffer from word n on, in ascending order, one sample step each (R87): step n sees the unit
state the step before it left and the word's old value, and gives the next unit state and the word's new value. -/
def sweep {σ : Type} (f : Nat → σ → F64 → σ × F64) (base : Nat) : (count n : Nat) → σ → Memory → σ × Memory
  | 0, _, u, m => (u, m)
  | count + 1, n, u, m =>
    match f n u (readWord m (base + n)) with
    | (u', v) => sweep f base count (n + 1) u' (writeWord m (base + n) v)

/-- The sample step of every word 0 .. N-1 of buffer b, from the unit state u (R82, R87). -/
def State.sweepBuffer {σ : Type} (s : State) (b : Nat) (f : Nat → σ → F64 → σ × F64) (u : σ) : σ × Memory :=
  sweep f (wordAddr s.params.n b 0) s.params.n 0 u s.mem

/-- `osc[i]` -/
def State.oscAt (s : State) (i : Nat) : Osc := s.osc.getD i .reset

/-- `osc[i] <- o` -/
def State.setOsc (s : State) (i : Nat) (o : Osc) : State := { s with osc := s.osc.set i o }

/-- `env[i]` -/
def State.envAt (s : State) (i : Nat) : Env := s.env.getD i .reset

/-- `env[i] <- e` -/
def State.setEnv (s : State) (i : Nat) (e : Env) : State := { s with env := s.env.set i e }

/-- `filt[i]` -/
def State.filtAt (s : State) (i : Nat) : Filt := s.filt.getD i .reset

/-- `filt[i] <- f` -/
def State.setFilt (s : State) (i : Nat) (f : Filt) : State := { s with filt := s.filt.set i f }

/-- The status codes of R310, Table X1. -/
def Status.code : Status → Byte
  | .ok => 0
  | .illegalOpcode => 1
  | .badField => 2
  | .badInstance => 3
  | .badBuffer => 4
  | .nonfiniteOperand => 5
  | .badIndex => 6

/-- The status word `{16'b0, OPC, STATUS}` of a response (R114). -/
def statusWord (opc : Byte) (st : Status) : Word := (0 : BitVec 16) ++ opc ++ st.code

/-- The result words of a response: none, or one 64-bit value, its low word first (R114). -/
def resultWords : Option U64 → List Word
  | none => []
  | some v => [lowWord v, highWord v]

/-- An OK response with the command's result, if it has one (R114). -/
def State.respond (s : State) (opc : Byte) (result : Option U64) : State :=
  { s with respPort := s.respPort ++ statusWord opc .ok :: resultWords result }

/-- The error registers after a failing command: the first error is kept, a further one sets OVERFLOW (R313). -/
def recordError (e : ErrorRegs) (st : Status) (hdr : Word) : ErrorRegs :=
  if e.valid then { e with overflow := true }
  else { code := st, valid := true, overflow := false, cmd := hdr }

/-- `raise S(hdr)` (R18, R313): nothing is written but the error registers, and the answer is the status word. -/
def State.refuse (s : State) (st : Status) (hdr : Word) : State :=
  { s with err := recordError s.err st hdr, respPort := s.respPort ++ [statusWord (opcOf hdr) st] }

/-- A command with the header hdr in the state s: the refusal of its first failing check, else its effect t and its
result (R312, R313). -/
def command (hdr : Word) (failure : Option Status) (s t : State) (result : Option U64) : Out :=
  match failure with
  | some st => .next (s.refuse st hdr)
  | none => .next (t.respond (opcOf hdr) result)

/-- A packet accepted from the command port: the words after it are left, the position advances by one packet (R31). -/
def State.accept (s : State) (rest : List Word) : State :=
  { s with cmdPort := rest, position := s.position + 1 }

/-- `ResetAll()` (R340): every unit, the error registers and every buffer word; not the parameters (R251) and not the
ports (R342). -/
def State.resetAll (s : State) : State :=
  { s with
    err := .reset
    osc := List.replicate s.params.numOsc .reset
    env := List.replicate s.params.numEnv .reset
    filt := List.replicate s.params.numFilt .reset
    lfo := .reset
    mem := [] }

end Sys2Proof.Machine
end

