-- ==== Sys2Proof/Machine/Operands.lean ====
section
/-!
DEFINITION. The checks on a command's header and operands (R115-R117, R310-R312) and the conditioning of its operands
(R142, R170, R201, R232): the finite out-of-range value is clamped silently (R315), a header field out of range, a
NaN and an infinity are refused.
-/

namespace Sys2Proof.Machine

/-- The first failing check in the order of R312; ILLEGAL_OPCODE comes before all of them (Machine/Control.lean).
An argument is true where the check passes or the command does not make it. -/
def firstFailure (fieldOk instanceOk bufferOk operandsOk indexOk : Bool) : Option Status :=
  if !fieldOk then some .badField
  else if !instanceOk then some .badInstance
  else if !bufferOk then some .badBuffer
  else if !operandsOk then some .nonfiniteOperand
  else if !indexOk then some .badIndex
  else none

/-- A must-be-zero field (R115). -/
def isZeroField (f : Byte) : Bool := decide (f = 0)

/-- An enumerated field with the values 0 .. top (R117). -/
def isEnumField (top : Nat) (f : Byte) : Bool := decide (f.toNat ≤ top)

/-- INST below the count of its class (R116). -/
def isInstance (count : Nat) (inst : Byte) : Bool := decide (inst.toNat < count)

/-- A buffer field below NUM_BUF (R116). -/
def isBuffer (p : Params) (fa : Byte) : Bool := decide (fa.toNat < p.numBuf)

/-- A u64 word index below N (R85). -/
def isIndex (p : Params) (n : U64) : Bool := decide (n.toNat < p.n)

/-- Every f64 operand is finite (R311). -/
def allFinite (operands : List F64) : Bool := operands.all isFinite

/-- The waveform a field names (R117). -/
def waveformOf (fa : Byte) : Waveform :=
  match fa.toNat with
  | 0 => .sine
  | 1 => .square
  | 2 => .saw
  | _ => .triangle

/-- The filter type a field names (R117). -/
def filtTypeOf (fa : Byte) : FiltType :=
  match fa.toNat with
  | 0 => .lowpass
  | 1 => .highpass
  | _ => .bandpass

/-- `clamp` on integers (R14). -/
def clampNat (v lo hi : Nat) : Nat := if v < lo then lo else if v > hi then hi else v

/-- f of R142: the frequency kept to [0, NYQ]. -/
def clampFrequency (frequency : F64) : F64 := fclamp frequency c0 NYQ

/-- vol, det (R142) and SUSTAIN_LEVEL (R170): kept to [0, 1]. -/
def clampUnit (v : F64) : F64 := fclamp v c0 c1

/-- U of R142: the unison count kept to 1 .. 16. -/
def unisonCount (fb : Byte) : Nat := clampNat fb.toNat 1 16

/-- A phase increment per sample, `TWO_PI * f / SR` (R142, R147, R232). -/
def phaseIncrement (f : F64) : F64 := fdiv (fmul TWO_PI f) SR

/-- `wrap_acc(p)` (R15). -/
def wrapAcc (p : F64) : F64 := if fle TWO_PI p then fsub p TWO_PI else p

/-- `cnt(ms)` of R170. -/
def sampleCount (ms : F64) : U64 :=
  BitVec.ofNat 64 (max 1 (ffloor (fdiv (fmul (fclamp ms c0 MS_MAX) SR) c1000)))

/-- fc of R201. -/
def clampCutoff (cutoff : F64) : F64 := fclamp cutoff c20 c20000

/-- q of R201. -/
def clampQ (qIn : F64) : F64 := fclamp qIn c0p1 c10

/-- r of R232. -/
def clampRate (rate : F64) : F64 := fclamp rate c0 c10

/-- d of R232. -/
def clampDepth (depth : F64) : F64 := fclamp depth c0 c100

/-- One-pole smoothing, `prev * alpha + raw * (1.0 - alpha)` (R173, R232). -/
def onePole (alpha prev raw : F64) : F64 := fadd (fmul prev alpha) (fmul raw (fsub c1 alpha))

end Sys2Proof.Machine
end

