-- ==== Sys2Proof/Machine/Buffer.lean ====
section
/-!
DEFINITION. The buffer commands BUF_WRITE, BUF_READ and BUF_CLEAR (R254-R258).
-/

namespace Sys2Proof.Machine

/-- BUF_WRITE (R256). -/
def execBufWrite (inst fa fb : Byte) (n : U64) (value : F64) (s : State) : Out :=
  command (mkHeader 0x08 inst fa fb)
    (firstFailure (isZeroField inst && isZeroField fb) true (isBuffer s.params fa) (allFinite [value])
      (isIndex s.params n))
    s (s.memWrite fa.toNat n.toNat value) none

/-- BUF_READ (R257). -/
def execBufRead (inst fa fb : Byte) (n : U64) (s : State) : Out :=
  command (mkHeader 0x09 inst fa fb)
    (firstFailure (isZeroField inst && isZeroField fb) true (isBuffer s.params fa) true (isIndex s.params n))
    s s (some (s.memRead fa.toNat n.toNat))

/-- One word of BUF_CLEAR: +0.0, whatever the word was (R258). -/
def clearWord (_ : Nat) (u : Unit) (_ : F64) : Unit × F64 := (u, c0)

/-- BUF_CLEAR (R258). -/
def execBufClear (inst fa fb : Byte) (s : State) : Out :=
  command (mkHeader 0x0A inst fa fb)
    (firstFailure (isZeroField inst && isZeroField fb) true (isBuffer s.params fa) true true)
    s { s with mem := (s.sweepBuffer fa.toNat clearWord ()).2 } none

end Sys2Proof.Machine
end

