-- ==== Sys2Proof/Machine/Flags.lean ====
section
/-!
DEFINITION. The status flags of R32 as the words REG_READ answers (R60, R252) and the enumerations as their numbers
(R37, R40, R48). The block has no condition codes: a flag changes only where a command's own rule says so.
Bits that are not defined read 0 (U25).
-/

namespace Sys2Proof.Machine

/-- A flag as a 64-bit value with only bit 0 (R252). -/
def flagWord (b : Bool) : U64 := if b then 1 else 0

/-- Two flags as `zext_64({hi, lo})` (R252). -/
def flagPair (hi lo : Bool) : U64 := (BitVec.ofBool hi ++ BitVec.ofBool lo).setWidth 64

/-- ERR: `zext_64({OVERFLOW, VALID, CODE})` (R35, R252). -/
def ErrorRegs.errWord (e : ErrorRegs) : U64 :=
  (BitVec.ofBool e.overflow ++ BitVec.ofBool e.valid ++ e.code.code).setWidth 64

/-- ERR_CMD: `zext_64(hdr)` (R36, R313). -/
def ErrorRegs.cmdWord (e : ErrorRegs) : U64 := e.cmd.setWidth 64

/-- CFG_FLAGS: bit 0 is 1 for ADVANCE (R34). -/
def cfgFlags (p : Params) : U64 := flagWord (decide (p.unisonBasePhase = .advance))

/-- ENV FLAGS: `zext_64(FINISHED)` (R252). -/
def Env.flags (e : Env) : U64 := flagWord e.finished

/-- FILT FLAGS: `zext_64({NONFINITE, FALLBACK})` (R55, R252). -/
def Filt.flags (f : Filt) : U64 := flagPair f.nonfinite f.fallback

/-- WAVEFORM as its number (R37). -/
def Waveform.number : Waveform → U64
  | .sine => 0
  | .square => 1
  | .saw => 2
  | .triangle => 3

/-- STAGE as its number (R40). -/
def Stage.number : Stage → U64
  | .attack => 0
  | .decay => 1
  | .sustain => 2
  | .release => 3

/-- TYPE as its number (R48). -/
def FiltType.number : FiltType → U64
  | .lowpass => 0
  | .highpass => 1
  | .bandpass => 2

end Sys2Proof.Machine
end

