-- ==== Sys2Proof/Machine/Control.lean ====
section
/-!
DEFINITION. The core control commands NOP, CORE_RESET, REG_READ and ERR_CLEAR (R250-R253), the register map of
Table S1 (R60, R61), and the refusal of an unassigned opcode (R118).
-/

namespace Sys2Proof.Machine

/-- The CORE registers (Table S1, class 0). -/
def coreRegister (s : State) (r : Nat) : Option U64 :=
  match r with
  | 0 => some CORE_ID
  | 1 => some (BitVec.ofNat 64 s.params.n)
  | 2 => some (BitVec.ofNat 64 s.params.numVoices)
  | 3 => some (BitVec.ofNat 64 s.params.numBuf)
  | 4 => some s.err.errWord
  | 5 => some s.err.cmdWord
  | 6 => some (cfgFlags s.params)
  | 7 => some s.params.envAlpha
  | 8 => some s.params.filtSmoothK
  | 9 => some s.params.lfoAlpha
  | 10 => some s.params.softclipDrive
  | _ => none

/-- The OSC registers (Table S1, class 1). -/
def oscRegister (o : Osc) (r : Nat) : Option U64 :=
  match r with
  | 0 => some o.waveform.number
  | 1 => some o.phase
  | 2 => some o.frequency
  | _ => none

/-- The ENV registers (Table S1, class 2). -/
def envRegister (e : Env) (r : Nat) : Option U64 :=
  match r with
  | 0 => some e.stage.number
  | 1 => some e.flags
  | 2 => some e.sampleIndex
  | 3 => some e.releaseStart
  | 4 => some e.envAtRelease
  | 5 => some e.prev
  | 6 => some e.attackSamples
  | 7 => some e.decaySamples
  | 8 => some e.sustainSamples
  | 9 => some e.releaseSamples
  | 10 => some e.sustainLevel
  | _ => none

/-- The FILT registers (Table S1, class 3). -/
def filtRegister (f : Filt) (r : Nat) : Option U64 :=
  match r with
  | 0 => some f.type.number
  | 1 => some f.flags
  | 2 => some f.cutoff
  | 3 => some f.q
  | 4 => some f.tgt.a0
  | 5 => some f.tgt.a1
  | 6 => some f.tgt.a2
  | 7 => some f.tgt.b1
  | 8 => some f.tgt.b2
  | 9 => some f.cur.a0
  | 10 => some f.cur.a1
  | 11 => some f.cur.a2
  | 12 => some f.cur.b1
  | 13 => some f.cur.b2
  | 14 => some f.z1
  | 15 => some f.z2
  | _ => none

/-- The LFO registers (Table S1, class 4). -/
def lfoRegister (l : Lfo) (r : Nat) : Option U64 :=
  match r with
  | 0 => some (flagWord l.enabled)
  | 1 => some l.phase
  | 2 => some l.prev
  | _ => none

/-- `RegValue(c, i, r)` of R252: none where r is not listed for the class, or c is no class (R60). -/
def regValue (s : State) (cls : Byte) (i r : Nat) : Option U64 :=
  match cls.toNat with
  | 0 => coreRegister s r
  | 1 => oscRegister (s.oscAt i) r
  | 2 => envRegister (s.envAt i) r
  | 3 => filtRegister (s.filtAt i) r
  | 4 => lfoRegister s.lfo r
  | _ => none

/-- The instance count of a class, (1, NUM_OSC, NUM_ENV, NUM_FILT, 1)[c] (R116, R252). -/
def classCount (p : Params) (cls : Byte) : Nat :=
  match cls.toNat with
  | 0 => 1
  | 1 => p.numOsc
  | 2 => p.numEnv
  | 3 => p.numFilt
  | 4 => p.numLfo
  | _ => 0

/-- NOP (R250): nothing but the response; the fields are ignored (R119). -/
def execNop (inst fa fb : Byte) (s : State) : Out :=
  command (mkHeader 0x00 inst fa fb) none s s none

/-- CORE_RESET (R251). -/
def execCoreReset (inst fa fb : Byte) (s : State) : Out :=
  command (mkHeader 0x01 inst fa fb)
    (firstFailure (isZeroField inst && isZeroField fa && isZeroField fb) true true true true)
    s s.resetAll none

/-- REG_READ (R252): the class and register are checked before the instance. -/
def execRegRead (inst fa fb : Byte) (s : State) : Out :=
  let value := regValue s fa inst.toNat fb.toNat
  command (mkHeader 0x02 inst fa fb)
    (firstFailure value.isSome (isInstance (classCount s.params fa) inst) true true true)
    s s value

/-- ERR_CLEAR (R253). -/
def execErrClear (inst fa fb : Byte) (s : State) : Out :=
  command (mkHeader 0x03 inst fa fb)
    (firstFailure (isZeroField inst && isZeroField fa && isZeroField fb) true true true true)
    s { s with err := .reset } none

/-- The packet of an unassigned opcode (R118, R312, R313): refused with ILLEGAL_OPCODE. -/
def refuseIllegal (hdr : Word) (s : State) : Out :=
  command hdr (some .illegalOpcode) s s none

end Sys2Proof.Machine
end

