-- ==== Sys2Proof/Machine/Envelope.lean ====
section
/-!
DEFINITION. The envelope commands ENV_INIT, ENV_STEP, ENV_APPLY and ENV_NOTE_OFF (R170-R182).
-/

namespace Sys2Proof.Machine

/-- What one envelope sample finds before smoothing: the stage after it, the raw value, FINISHED after it (R172). -/
structure RawSample where
  stage : Stage
  raw : F64
  finished : Bool
  deriving DecidableEq, Repr

/-- The SUSTAIN test of R172. -/
def sustainSample (e : Env) : RawSample where
  stage := .sustain
  raw := e.sustainLevel
  finished := e.finished

/-- The DECAY test of R172, falling through to SUSTAIN. -/
def decaySample (e : Env) : RawSample :=
  let j := e.sampleIndex - e.attackSamples
  if e.decaySamples ≤ j then sustainSample e
  else
    { stage := .decay
      raw := fsub c1 (fmul (fsub c1 e.sustainLevel) (fdiv (ffloat j.toNat) (ffloat e.decaySamples.toNat)))
      finished := e.finished }

/-- The ATTACK test of R172, falling through to DECAY. -/
def attackSample (e : Env) : RawSample :=
  if e.attackSamples ≤ e.sampleIndex then decaySample e
  else
    { stage := .attack
      raw := fdiv (ffloat e.sampleIndex.toNat) (ffloat e.attackSamples.toNat)
      finished := e.finished }

/-- The RELEASE test of R172 (R175). The elapsed count is modulo 2^64 (R16), so 2^64 samples after the note-off it is below
RELEASE_SAMPLES again, and the raw value then is R172's and not the 0.0 that R175, R178 (e) and D25 give every later step;
FINISHED stays 1 (DEDUCED, log 31). -/
def releaseSample (e : Env) : RawSample :=
  let el := e.sampleIndex - e.releaseStart
  if e.releaseSamples ≤ el then { stage := .release, raw := c0, finished := true }
  else
    { stage := .release
      raw := fmul e.envAtRelease (fnExp (fmul cNeg5 (fdiv (ffloat el.toNat) (ffloat e.releaseSamples.toNat))))
      finished := e.finished }

/-- The four stage tests of R172 in their order. -/
def rawSample (e : Env) : RawSample :=
  match e.stage with
  | .attack => attackSample e
  | .decay => decaySample e
  | .sustain => sustainSample e
  | .release => releaseSample e

/-- `EnvSample(i)` (R172, R173): the envelope after the sample, and its gain. -/
def envSample (alpha : F64) (e : Env) : Env × F64 :=
  let r := rawSample e
  let g := onePole alpha e.prev r.raw
  ({ e with stage := r.stage, finished := r.finished, prev := g, sampleIndex := e.sampleIndex + 1 }, g)

/-- One word of ENV_APPLY (R182). -/
def envWord (alpha : F64) (_ : Nat) (e : Env) (x : F64) : Env × F64 :=
  match envSample alpha e with
  | (e', g) => (e', fmul x g)

/-- The envelope ENV_INIT leaves (R170). -/
def startEnvelope (attackMs decayMs sustainLevel releaseMs sustainMs : F64) : Env where
  stage := .attack
  finished := false
  sampleIndex := 0
  releaseStart := 0
  envAtRelease := c0
  prev := c0
  attackSamples := sampleCount attackMs
  decaySamples := sampleCount decayMs
  sustainSamples := sampleCount sustainMs
  releaseSamples := sampleCount releaseMs
  sustainLevel := clampUnit sustainLevel

/-- The envelope ENV_NOTE_OFF leaves (R180). -/
def noteOff (e : Env) : Env :=
  if e.stage = .release then e
  else { e with stage := .release, releaseStart := e.sampleIndex, envAtRelease := e.prev }

/-- The effect of ENV_APPLY (R182). -/
def envApply (s : State) (i b : Nat) : State :=
  match s.sweepBuffer b (envWord s.params.envAlpha) (s.envAt i) with
  | (e, mem) => { s.setEnv i e with mem := mem }

/-- ENV_INIT (R170). -/
def execEnvInit (inst fa fb : Byte) (attackMs decayMs sustainLevel releaseMs sustainMs : F64) (s : State) : Out :=
  command (mkHeader 0x20 inst fa fb)
    (firstFailure (isZeroField fa && isZeroField fb) (isInstance s.params.numEnv inst) true
      (allFinite [attackMs, decayMs, sustainLevel, releaseMs, sustainMs]) true)
    s (s.setEnv inst.toNat (startEnvelope attackMs decayMs sustainLevel releaseMs sustainMs)) none

/-- ENV_STEP (R171). -/
def execEnvStep (inst fa fb : Byte) (s : State) : Out :=
  let r := envSample s.params.envAlpha (s.envAt inst.toNat)
  command (mkHeader 0x21 inst fa fb)
    (firstFailure (isZeroField fa && isZeroField fb) (isInstance s.params.numEnv inst) true true true)
    s (s.setEnv inst.toNat r.1) (some r.2)

/-- ENV_APPLY (R182). -/
def execEnvApply (inst fa fb : Byte) (s : State) : Out :=
  command (mkHeader 0x22 inst fa fb)
    (firstFailure (isZeroField fb) (isInstance s.params.numEnv inst) (isBuffer s.params fa) true true)
    s (envApply s inst.toNat fa.toNat) none

/-- ENV_NOTE_OFF (R180). -/
def execEnvNoteOff (inst fa fb : Byte) (s : State) : Out :=
  command (mkHeader 0x23 inst fa fb)
    (firstFailure (isZeroField fa && isZeroField fb) (isInstance s.params.numEnv inst) true true true)
    s (s.setEnv inst.toNat (noteOff (s.envAt inst.toNat))) none

end Sys2Proof.Machine
end

