-- ==== Sys2Proof/Machine/Filter.lean ====
section
/-!
DEFINITION. The filter commands FILT_UPDATE, FILT_RESET, FILT_PROCESS and FILT_APPLY (R200-R210).
-/

namespace Sys2Proof.Machine

/-- w0 of R201 for a conditioned cutoff. -/
def filtOmega (fc : F64) : F64 := phaseIncrement fc

/-- al of R201. -/
def filtAlpha (fc q : F64) : F64 := fdiv (fnSin (filtOmega fc)) (fmul c2 q)

/-- nrm of R201. -/
def filtNorm (fc q : F64) : F64 := fdiv c1 (fadd c1 (filtAlpha fc q))

/-- The computed coefficients of R202 for a conditioned cutoff and Q. They are as R202 computes them where R204 (a) says
otherwise: b2 is not above 0 where al is at least 1, as at 11025 Hz with Q 0.5 (b2 = 0.0, V-FILT-3) or Q 0.1 (DEDUCED,
log 32). -/
def designCoeffs (t : FiltType) (fc q : F64) : Coeffs :=
  let cs := fnCos (filtOmega fc)
  let al := filtAlpha fc q
  let nrm := filtNorm fc q
  let b1 := fmul (fmul cNeg2 cs) nrm
  let b2 := fmul (fsub c1 al) nrm
  match t with
  | .lowpass =>
    let a0 := fmul (fdiv (fsub c1 cs) c2) nrm
    { a0 := a0, a1 := fmul (fsub c1 cs) nrm, a2 := a0, b1 := b1, b2 := b2 }
  | .highpass =>
    let a0 := fmul (fdiv (fadd c1 cs) c2) nrm
    { a0 := a0, a1 := fmul (fneg (fadd c1 cs)) nrm, a2 := a0, b1 := b1, b2 := b2 }
  | .bandpass => { a0 := fmul al nrm, a1 := c0, a2 := fmul (fneg al) nrm, b1 := b1, b2 := b2 }

/-- The stability check of R203: false for a NaN. -/
def Coeffs.stable (c : Coeffs) : Bool := fle (fabs c.b1) c2 && fle (fabs c.b2) c1

/-- The filter FILT_UPDATE leaves (R200-R203): TYPE, CUTOFF, Q, TGT and FALLBACK, nothing else. -/
def updateFilter (f : Filt) (t : FiltType) (cutoff qIn : F64) : Filt :=
  let fc := clampCutoff cutoff
  let q := clampQ qIn
  let c := designCoeffs t fc q
  { f with
    type := t
    cutoff := fc
    q := q
    tgt := if c.stable then c else .identity
    fallback := !c.stable }

/-- The filter FILT_RESET leaves (R205). -/
def resetFilter (f : Filt) : Filt := { f with z1 := c0, z2 := c0, cur := f.tgt, nonfinite := false }

/-- The nudge of one coefficient, `cur + K*(tgt - cur)` (R207). -/
def nudge (k cur tgt : F64) : F64 := fadd cur (fmul k (fsub tgt cur))

/-- The nudge of the five coefficients (R207). -/
def nudgeCoeffs (k : F64) (cur tgt : Coeffs) : Coeffs where
  a0 := nudge k cur.a0 tgt.a0
  a1 := nudge k cur.a1 tgt.a1
  a2 := nudge k cur.a2 tgt.a2
  b1 := nudge k cur.b1 tgt.b1
  b2 := nudge k cur.b2 tgt.b2

/-- y of R207. -/
def filtOutput (c : Coeffs) (z1 x : F64) : F64 := fadd (fmul c.a0 x) z1

/-- nz1 of R207. -/
def filtTap1 (c : Coeffs) (z2 x y : F64) : F64 := fadd (fsub (fmul c.a1 x) (fmul c.b1 y)) z2

/-- nz2 of R207. -/
def filtTap2 (c : Coeffs) (x y : F64) : F64 := fsub (fmul c.a2 x) (fmul c.b2 y)

/-- `FiltSample(i, x)` (R207): the filter after the sample, and the sample it returns. -/
def filtSample (k : F64) (f : Filt) (x : F64) : Filt × F64 :=
  let cur := nudgeCoeffs k f.cur f.tgt
  let y := filtOutput cur f.z1 x
  let nz1 := filtTap1 cur f.z2 x y
  let nz2 := filtTap2 cur x y
  if allFinite [y, nz1, nz2] then ({ f with cur := cur, z1 := nz1, z2 := nz2 }, fclamp y cNeg1 c1)
  else ({ f with cur := cur, z1 := c0, z2 := c0, nonfinite := true }, c0)

/-- One word of FILT_APPLY (R210). -/
def filtWord (k : F64) (_ : Nat) (f : Filt) (x : F64) : Filt × F64 := filtSample k f x

/-- The effect of FILT_APPLY (R210). -/
def filtApply (s : State) (i b : Nat) : State :=
  match s.sweepBuffer b (filtWord s.params.filtSmoothK) (s.filtAt i) with
  | (f, mem) => { s.setFilt i f with mem := mem }

/-- FILT_UPDATE (R200). -/
def execFiltUpdate (inst fa fb : Byte) (cutoff qIn : F64) (s : State) : Out :=
  command (mkHeader 0x30 inst fa fb)
    (firstFailure (isEnumField 2 fa && isZeroField fb) (isInstance s.params.numFilt inst) true
      (allFinite [cutoff, qIn]) true)
    s (s.setFilt inst.toNat (updateFilter (s.filtAt inst.toNat) (filtTypeOf fa) cutoff qIn)) none

/-- FILT_RESET (R205). -/
def execFiltReset (inst fa fb : Byte) (s : State) : Out :=
  command (mkHeader 0x31 inst fa fb)
    (firstFailure (isZeroField fa && isZeroField fb) (isInstance s.params.numFilt inst) true true true)
    s (s.setFilt inst.toNat (resetFilter (s.filtAt inst.toNat))) none

/-- FILT_PROCESS (R206). -/
def execFiltProcess (inst fa fb : Byte) (x : F64) (s : State) : Out :=
  let r := filtSample s.params.filtSmoothK (s.filtAt inst.toNat) x
  command (mkHeader 0x32 inst fa fb)
    (firstFailure (isZeroField fa && isZeroField fb) (isInstance s.params.numFilt inst) true (allFinite [x]) true)
    s (s.setFilt inst.toNat r.1) (some r.2)

/-- FILT_APPLY (R210). -/
def execFiltApply (inst fa fb : Byte) (s : State) : Out :=
  command (mkHeader 0x33 inst fa fb)
    (firstFailure (isZeroField fb) (isInstance s.params.numFilt inst) (isBuffer s.params fa) true true)
    s (filtApply s inst.toNat fa.toNat) none

end Sys2Proof.Machine
end

