-- ==== Sys2Proof/Machine/Lfo.lean ====
section
/-!
DEFINITION. The LFO commands LFO_ENABLE and LFO_STEP (R230-R232).
-/

namespace Sys2Proof.Machine

/-- The LFO that LFO_ENABLE leaves (R230): only a change of ENABLED resets. -/
def enableLfo (l : Lfo) (en : Bool) : Lfo :=
  if en = l.enabled then l else { enabled := en, phase := c0, prev := c0 }

/-- The LFO step of R232: the LFO after it, and its value, which is not clamped: R233's bound of 25.0 on it conflicts with
R232 by a rounding (log 16). -/
def lfoSample (alpha : F64) (l : Lfo) (rate depth : F64) : Lfo × F64 :=
  if l.enabled then
    let raw := fmul (fmul (fnSin l.phase) (clampDepth depth)) c0p25
    let v := onePole alpha l.prev raw
    ({ l with prev := v, phase := wrapAcc (fadd l.phase (phaseIncrement (clampRate rate))) }, v)
  else (l, c0)

/-- LFO_ENABLE (R230). -/
def execLfoEnable (inst fa fb : Byte) (s : State) : Out :=
  command (mkHeader 0x40 inst fa fb)
    (firstFailure (isEnumField 1 fa && isZeroField fb) (isInstance s.params.numLfo inst) true true true)
    s { s with lfo := enableLfo s.lfo (decide (fa = 1)) } none

/-- LFO_STEP (R231). -/
def execLfoStep (inst fa fb : Byte) (rate depth : F64) (s : State) : Out :=
  let r := lfoSample s.params.lfoAlpha s.lfo rate depth
  command (mkHeader 0x41 inst fa fb)
    (firstFailure (isZeroField fa && isZeroField fb) (isInstance s.params.numLfo inst) true
      (allFinite [rate, depth]) true)
    s { s with lfo := r.1 } (some r.2)

end Sys2Proof.Machine
end

