-- ==== Sys2Proof/Machine/Oscillator.lean ====
section
/-!
DEFINITION. The oscillator commands OSC_INIT and OSC_RENDER (R140-R151).
-/

namespace Sys2Proof.Machine

/-- `W(w, th)`, the waveform at a phase (R144). -/
def waveValue (w : Waveform) (th : F64) : F64 :=
  match w with
  | .sine => fnSin th
  | .square => if fle c0 (fnSin th) then c1 else cNeg1
  | .saw => fsub (fdiv th PI) c1
  | .triangle => fsub (fmul c2 (fabs (fsub (fdiv th PI) c1))) c1

/-- One word with unison count 1, from the phase before its advance, and the advance (R145). -/
def singleWord (w : Waveform) (vol inc : F64) (_ : Nat) (phase : F64) (_ : F64) : F64 × F64 :=
  (wrapAcc (fadd phase inc), fmul vol (waveValue w phase))

/-- c[k] of R147: the cents offset of track k of U, with spread = det * 50.0. -/
def trackCents (det : F64) (count k : Nat) : F64 :=
  fmul (fmul det c50) (fsub (fdiv (fmul c2 (ffloat k)) (ffloat (count - 1))) c1)

/-- fk[k] of R147. -/
def trackFrequency (f det : F64) (count k : Nat) : F64 :=
  fclamp (fmul f (fnExp2 (fdiv (trackCents det count k) c1200))) UNI_FMIN UNI_FMAX

/-- inck[k] of R147. -/
def trackIncrement (f det : F64) (count k : Nat) : F64 := phaseIncrement (trackFrequency f det count k)

/-- phi[k] of R149. -/
def trackSeed (k : Nat) : F64 := ffmod (fmul (ffloat k) PHI) TWO_PI

/-- th(k, n) of R149 at the absolute sample index s0 + n modulo 2^64. -/
def trackPhase (f det : F64) (count k : Nat) (index : U64) : F64 :=
  ffmod (fadd (trackSeed k) (fmul (trackIncrement f det count k) (ffloat index.toNat))) TWO_PI

/-- The clipped value of track k (R150). -/
def trackValue (w : Waveform) (drive f det : F64) (count k : Nat) (index : U64) : F64 :=
  fnTanh (fmul drive (waveValue w (trackPhase f det count k index)))

/-- acc of R150: the track values summed in ascending k. -/
def unisonSum (w : Waveform) (drive f det : F64) (count : Nat) (index : U64) : F64 :=
  (List.range count).foldl (fun acc k => fadd acc (trackValue w drive f det count k index)) c0

/-- One word with a unison count above 1 (R150) and the base phase after it (R151). -/
def unisonWord (base : BasePhase) (w : Waveform) (drive f det vol inc : F64) (count : Nat) (s0 : U64)
    (n : Nat) (phase : F64) (_ : F64) : F64 × F64 :=
  (match base with
    | .advance => wrapAcc (fadd phase inc)
    | .hold => phase,
   fmul vol (fdiv (unisonSum w drive f det count (s0 + BitVec.ofNat 64 n)) (ffloat count)))

/-- The sample step of OSC_RENDER for the conditioned operands (R142): R145 for a count of 1, else R147-R151.
The word it answers is finite and lies in [-1.0, 1.0] (R146). -/
def renderWord (p : Params) (w : Waveform) (f vol : F64) (count : Nat) (s0 : U64) (det : F64) :
    Nat → F64 → F64 → F64 × F64 :=
  if count = 1 then singleWord w vol (phaseIncrement f)
  else unisonWord p.unisonBasePhase w p.softclipDrive f det vol (phaseIncrement f) count s0

/-- The effect of OSC_RENDER: buffer b, FREQUENCY and PHASE of oscillator i (R141, R142). -/
def oscRender (s : State) (i b : Nat) (fb : Byte) (frequency volume : F64) (s0 : U64) (detune : F64) : State :=
  let o := s.oscAt i
  let f := clampFrequency frequency
  match s.sweepBuffer b
      (renderWord s.params o.waveform f (clampUnit volume) (unisonCount fb) s0 (clampUnit detune)) o.phase with
  | (phase, mem) => { s.setOsc i { o with phase := phase, frequency := f } with mem := mem }

/-- OSC_INIT (R140). -/
def execOscInit (inst fa fb : Byte) (s : State) : Out :=
  command (mkHeader 0x10 inst fa fb)
    (firstFailure (isEnumField 3 fa && isZeroField fb) (isInstance s.params.numOsc inst) true true true)
    s (s.setOsc inst.toNat { waveform := waveformOf fa, phase := c0, frequency := c0 }) none

/-- OSC_RENDER (R141). -/
def execOscRender (inst fa fb : Byte) (frequency volume : F64) (s0 : U64) (detune : F64) (s : State) : Out :=
  command (mkHeader 0x11 inst fa fb)
    (firstFailure true (isInstance s.params.numOsc inst) (isBuffer s.params fa)
      (allFinite [frequency, volume, detune]) true)
    s (oscRender s inst.toNat fa.toNat fb frequency volume s0 detune) none

end Sys2Proof.Machine
end

