-- ==== Sys2Proof/Machine/Dispatch.lean ====
section
/-!
DEFINITION. The meaning of each command of Table E1 (R115): one arm per constructor of Instr.
-/

namespace Sys2Proof.Machine

def exec (i : Instr) (s : State) : Host.Outcome State Fault Refusal :=
  match i with
  | .nop inst fa fb => Sys2Proof.Machine.execNop inst fa fb s
  | .coreReset inst fa fb => Sys2Proof.Machine.execCoreReset inst fa fb s
  | .regRead inst fa fb => Sys2Proof.Machine.execRegRead inst fa fb s
  | .errClear inst fa fb => Sys2Proof.Machine.execErrClear inst fa fb s
  | .bufWrite inst fa fb n value => Sys2Proof.Machine.execBufWrite inst fa fb n value s
  | .bufRead inst fa fb n => Sys2Proof.Machine.execBufRead inst fa fb n s
  | .bufClear inst fa fb => Sys2Proof.Machine.execBufClear inst fa fb s
  | .oscInit inst fa fb => Sys2Proof.Machine.execOscInit inst fa fb s
  | .oscRender inst fa fb frequency volume s0 detune => Sys2Proof.Machine.execOscRender inst fa fb frequency volume s0 detune s
  | .envInit inst fa fb attackMs decayMs sustainLevel releaseMs sustainMs => Sys2Proof.Machine.execEnvInit inst fa fb attackMs decayMs sustainLevel releaseMs sustainMs s
  | .envStep inst fa fb => Sys2Proof.Machine.execEnvStep inst fa fb s
  | .envApply inst fa fb => Sys2Proof.Machine.execEnvApply inst fa fb s
  | .envNoteOff inst fa fb => Sys2Proof.Machine.execEnvNoteOff inst fa fb s
  | .filtUpdate inst fa fb cutoff qIn => Sys2Proof.Machine.execFiltUpdate inst fa fb cutoff qIn s
  | .filtReset inst fa fb => Sys2Proof.Machine.execFiltReset inst fa fb s
  | .filtProcess inst fa fb x => Sys2Proof.Machine.execFiltProcess inst fa fb x s
  | .filtApply inst fa fb => Sys2Proof.Machine.execFiltApply inst fa fb s
  | .lfoEnable inst fa fb => Sys2Proof.Machine.execLfoEnable inst fa fb s
  | .lfoStep inst fa fb rate depth => Sys2Proof.Machine.execLfoStep inst fa fb rate depth s

end Sys2Proof.Machine
end

