-- ==== Sys2Proof/Machine/Step.lean ====
section
/-!
DEFINITION. One step: the block executes the packet at the front of the command port (R31, R90, R312), or waits while
no whole packet has arrived (log 7).
-/

namespace Sys2Proof.Machine

def step (s : State) : Host.Outcome State Fault Refusal :=
  match decode s.cmdPort with
  | .command i rest => exec i (s.accept rest)
  | .illegal hdr rest => refuseIllegal hdr (s.accept rest)
  | .incomplete => .next s

/-- The host sends one packet, given by its bits (log 6): its words, as many as its opcode says, stand at the front of
the command port, before the words already there. -/
def State.withFetchWord (s : State) (nbits w : Nat) : State :=
  { s with cmdPort := framedPacket nbits w ++ s.cmdPort }

end Sys2Proof.Machine
end

