-- ==== Sys2Proof/Machine/Assembler.lean ====
section
/-!
DEFINITION. The assembly language of R120 and R121 (Table E2): one command per line, and the two pseudo-instructions.
A line is a list of characters. What R120 leaves open of the spelling is in log 19.
-/

namespace Sys2Proof.Machine

/-! ### Characters and literals -/

def isBlank (c : Char) : Bool := c == ' ' || c == '\t'

/-- A line without its comment (R120). -/
def stripComment : List Char → List Char
  | [] => []
  | c :: cs => if c = ';' then [] else c :: stripComment cs

/-- Blanks at both ends dropped. -/
def trimBlanks (cs : List Char) : List Char := ((cs.dropWhile isBlank).reverse.dropWhile isBlank).reverse

/-- The parts of a text between commas. -/
def splitCommas : List Char → List (List Char)
  | [] => [[]]
  | c :: cs =>
    if c = ',' then [] :: splitCommas cs
    else
      match splitCommas cs with
      | [] => [[c]]
      | p :: ps => (c :: p) :: ps

/-- A line's mnemonic and its operands, blanks trimmed; no operand where nothing follows the mnemonic. -/
def splitLine (line : List Char) : List Char × List (List Char) :=
  let text := trimBlanks (stripComment line)
  let mnemonic := text.takeWhile fun c => !isBlank c
  let rest := trimBlanks (text.dropWhile fun c => !isBlank c)
  (mnemonic, if rest = [] then [] else (splitCommas rest).map trimBlanks)

/-- The value of a decimal digit. -/
def digit (c : Char) : Option Nat := if '0' ≤ c ∧ c ≤ '9' then some (c.toNat - '0'.toNat) else none

/-- The value of a hexadecimal digit of either case. -/
def hexDigit (c : Char) : Option Nat :=
  if '0' ≤ c ∧ c ≤ '9' then some (c.toNat - '0'.toNat)
  else if 'a' ≤ c ∧ c ≤ 'f' then some (c.toNat - 'a'.toNat + 10)
  else if 'A' ≤ c ∧ c ≤ 'F' then some (c.toNat - 'A'.toNat + 10)
  else none

/-- A run of digits to a base, after a value already read. -/
def digits (read : Char → Option Nat) (base : Nat) : List Char → Nat → Option Nat
  | [], acc => some acc
  | c :: cs, acc => (read c).bind fun d => digits read base cs (acc * base + d)

/-- A decimal number: one digit or more. -/
def decimalNat (cs : List Char) : Option Nat := if cs = [] then none else digits digit 10 cs 0

/-- A u64 operand: a decimal or `0x` hexadecimal integer below 2^64 (R120). -/
def parseU64 (cs : List Char) : Option U64 :=
  let v :=
    match cs with
    | '0' :: 'x' :: hex => if hex = [] then none else digits hexDigit 16 hex 0
    | _ => decimalNat cs
  v.bind fun n => if n < 2 ^ 64 then some (BitVec.ofNat 64 n) else none

/-- A decimal exponent: none, or `e` and an integer. -/
def parseExponent : List Char → Option Int
  | [] => some 0
  | 'e' :: '-' :: cs => (decimalNat cs).map fun n => -(n : Int)
  | 'e' :: '+' :: cs => (decimalNat cs).map fun n => (n : Int)
  | 'e' :: cs => (decimalNat cs).map fun n => (n : Int)
  | _ => none

/-- The binary64 nearest m * 10^x (R13, R120). -/
def decimalScaled (neg : Bool) (m : Nat) (x : Int) : F64 :=
  if 0 ≤ x then fdecimal neg (m * 10 ^ x.toNat) 0 else fdecimal neg m (-x).toNat

/-- An unsigned decimal literal: digits, a fraction or none, an exponent or none. -/
def parseMagnitude (neg : Bool) (cs : List Char) : Option F64 :=
  let isDigitChar := fun c => (digit c).isSome
  let whole := cs.takeWhile isDigitChar
  let rest := cs.dropWhile isDigitChar
  let frac :=
    match rest with
    | '.' :: fs => fs.takeWhile isDigitChar
    | _ => []
  let tail :=
    match rest with
    | '.' :: fs => fs.dropWhile isDigitChar
    | _ => rest
  (decimalNat whole).bind fun w =>
    (digits digit 10 frac w).bind fun m =>
      (parseExponent tail).map fun x => decimalScaled neg m (x - frac.length)

/-- An f64 operand: a decimal literal rounded to the nearest binary64 (R120). -/
def parseF64 : List Char → Option F64
  | '-' :: cs => parseMagnitude true cs
  | cs => parseMagnitude false cs

/-- The rest of a text after a fixed beginning. -/
def afterWord : List Char → List Char → Option (List Char)
  | [], cs => some cs
  | _ :: _, [] => none
  | w :: ws, c :: cs => if w = c then afterWord ws cs else none

/-- An index written behind a name, as osc3, b5 or u8: an 8-bit field (R111). -/
def parseIndexed (name : String) (cs : List Char) : Option Byte :=
  (afterWord name.toList cs).bind fun rest =>
    (decimalNat rest).bind fun n => if n < 256 then some (BitVec.ofNat 8 n) else none

/-- A waveform as its field (R117, R120). -/
def parseWaveform (cs : List Char) : Option Byte :=
  if cs = "sine".toList then some 0 else if cs = "square".toList then some 1 else if cs = "saw".toList then some 2
  else if cs = "triangle".toList then some 3 else none

/-- A filter type as its field (R117, R120). -/
def parseFiltType (cs : List Char) : Option Byte :=
  if cs = "lp".toList then some 0 else if cs = "hp".toList then some 1 else if cs = "bp".toList then some 2 else none

/-- An enable as its field (R117, R120). -/
def parseSwitch (cs : List Char) : Option Byte :=
  if cs = "off".toList then some 0 else if cs = "on".toList then some 1 else none

/-! ### Registers (R61, Table E2) -/

/-- The register names of Table S1 by class, in the order of their numbers. -/
def registerNames : Nat → List String
  | 0 => ["ID", "CFG_N", "CFG_NUM_VOICES", "CFG_NUM_BUF", "ERR", "ERR_CMD", "CFG_FLAGS", "CFG_ENV_ALPHA",
      "CFG_FILT_SMOOTH_K", "CFG_LFO_ALPHA", "CFG_SOFTCLIP_DRIVE"]
  | 1 => ["WAVEFORM", "PHASE", "FREQUENCY"]
  | 2 => ["STAGE", "FLAGS", "SAMPLE_INDEX", "RELEASE_START", "ENV_AT_RELEASE", "PREV", "ATTACK_SAMPLES",
      "DECAY_SAMPLES", "SUSTAIN_SAMPLES", "RELEASE_SAMPLES", "SUSTAIN_LEVEL"]
  | 3 => ["TYPE", "FLAGS", "CUTOFF", "Q", "TGT_A0", "TGT_A1", "TGT_A2", "TGT_B1", "TGT_B2", "CUR_A0", "CUR_A1",
      "CUR_A2", "CUR_B1", "CUR_B2", "Z1", "Z2"]
  | 4 => ["ENABLED", "PHASE", "PREV"]
  | _ => []

/-- The class and instance of a REG_READ operand, as core0 or filt1. -/
def parseUnit (cs : List Char) : Option (Byte × Byte) :=
  match parseIndexed "core" cs, parseIndexed "osc" cs, parseIndexed "env" cs, parseIndexed "filt" cs,
      parseIndexed "lfo" cs with
  | some i, _, _, _, _ => some (0, i)
  | none, some i, _, _, _ => some (1, i)
  | none, none, some i, _, _ => some (2, i)
  | none, none, none, some i, _ => some (3, i)
  | none, none, none, none, some i => some (4, i)
  | none, none, none, none, none => none

/-- A register by its name, or by its number below 256. -/
def parseRegister (cls : Byte) (cs : List Char) : Option Byte :=
  match (registerNames cls.toNat).findIdx? fun name => name.toList = cs with
  | some r => some (BitVec.ofNat 8 r)
  | none => parseIndexed "" cs

/-! ### Lines (Table E2) -/

/-- The fields of a NOP hint: six hexadecimal digits, INST, FA, FB (R119, Table E2). -/
def parseHint (cs : List Char) : Option Instr :=
  (afterWord "0x".toList cs).bind fun hex =>
    if hex.length = 6 then
      (digits hexDigit 16 hex 0).map fun v =>
        .nop (BitVec.ofNat 8 (v / 65536)) (BitVec.ofNat 8 (v / 256)) (BitVec.ofNat 8 v)
    else none

/-- The commands of one mnemonic and its operands; none where Table E2 and R121 have no such line. -/
def assembleCommand (mnemonic : List Char) (ops : List (List Char)) : Option (List Instr) :=
  if mnemonic = "nop".toList then
    match ops with
    | [] => some [.nop 0 0 0]
    | [h] => (parseHint h).map fun i => [i]
    | _ => none
  else if mnemonic = "core.reset".toList then (if ops = [] then some [.coreReset 0 0 0] else none)
  else if mnemonic = "err.clear".toList then (if ops = [] then some [.errClear 0 0 0] else none)
  else if mnemonic = "lfo.restart".toList then (if ops = [] then some Pseudo.lfoRestart.expand else none)
  else if mnemonic = "reg.read".toList then
    match ops with
    | [u, r] => do
      let (cls, i) ← parseUnit u
      let n ← parseRegister cls r
      pure [.regRead i cls n]
    | _ => none
  else if mnemonic = "buf.write".toList then
    match ops with
    | [b, n, v] => do pure [.bufWrite 0 (← parseIndexed "b" b) 0 (← parseU64 n) (← parseF64 v)]
    | _ => none
  else if mnemonic = "buf.read".toList then
    match ops with
    | [b, n] => do pure [.bufRead 0 (← parseIndexed "b" b) 0 (← parseU64 n)]
    | _ => none
  else if mnemonic = "buf.clear".toList then
    match ops with
    | [b] => do pure [.bufClear 0 (← parseIndexed "b" b) 0]
    | _ => none
  else if mnemonic = "osc.init".toList then
    match ops with
    | [o, w] => do pure [.oscInit (← parseIndexed "osc" o) (← parseWaveform w) 0]
    | _ => none
  else if mnemonic = "osc.render".toList then
    match ops with
    | [o, b, u, f, v, s0, d] => do
      pure [.oscRender (← parseIndexed "osc" o) (← parseIndexed "b" b) (← parseIndexed "u" u) (← parseF64 f)
        (← parseF64 v) (← parseU64 s0) (← parseF64 d)]
    | _ => none
  else if mnemonic = "env.init".toList then
    match ops with
    | [e, a, d, s, r, su] => do
      pure [.envInit (← parseIndexed "env" e) 0 0 (← parseF64 a) (← parseF64 d) (← parseF64 s) (← parseF64 r)
        (← parseF64 su)]
    | _ => none
  else if mnemonic = "env.step".toList then
    match ops with
    | [e] => do pure [.envStep (← parseIndexed "env" e) 0 0]
    | _ => none
  else if mnemonic = "env.apply".toList then
    match ops with
    | [e, b] => do pure [.envApply (← parseIndexed "env" e) (← parseIndexed "b" b) 0]
    | _ => none
  else if mnemonic = "env.noteoff".toList then
    match ops with
    | [e] => do pure [.envNoteOff (← parseIndexed "env" e) 0 0]
    | _ => none
  else if mnemonic = "filt.update".toList then
    match ops with
    | [f, t, c, q] => do
      pure [.filtUpdate (← parseIndexed "filt" f) (← parseFiltType t) 0 (← parseF64 c) (← parseF64 q)]
    | _ => none
  else if mnemonic = "filt.set".toList then
    match ops with
    | [f, t, c, q] => do
      pure (Pseudo.filtSet (← parseIndexed "filt" f) (← parseFiltType t) (← parseF64 c) (← parseF64 q)).expand
    | _ => none
  else if mnemonic = "filt.reset".toList then
    match ops with
    | [f] => do pure [.filtReset (← parseIndexed "filt" f) 0 0]
    | _ => none
  else if mnemonic = "filt.process".toList then
    match ops with
    | [f, x] => do pure [.filtProcess (← parseIndexed "filt" f) 0 0 (← parseF64 x)]
    | _ => none
  else if mnemonic = "filt.apply".toList then
    match ops with
    | [f, b] => do pure [.filtApply (← parseIndexed "filt" f) (← parseIndexed "b" b) 0]
    | _ => none
  else if mnemonic = "lfo.enable".toList then
    match ops with
    | [e] => do pure [.lfoEnable 0 (← parseSwitch e) 0]
    | _ => none
  else if mnemonic = "lfo.step".toList then
    match ops with
    | [r, d] => do pure [.lfoStep 0 0 0 (← parseF64 r) (← parseF64 d)]
    | _ => none
  else none

/-- The commands of one line; a line with nothing but a comment has none. -/
def assembleLine (line : List Char) : Option (List Instr) :=
  match splitLine line with
  | ([], _) => some []
  | (mnemonic, ops) => assembleCommand mnemonic ops

/-- The port words of a program, its commands in the order written (R121). -/
def assemble : List String → Option (List Word)
  | [] => some []
  | line :: rest =>
    (assembleLine line.toList).bind fun is => (assemble rest).map fun ws => is.flatMap encode ++ ws

end Sys2Proof.Machine
end

