-- ==== Sys2Proof/Machine/HostContract.lean ====
section
/-!
DEFINITION. The host's program of 46_host_contract.md (R280-R301) and its bring-up (R343): Voice, VoiceBank and Mixer as
the command sequences the reference host sends to the block. It is no part of the block's `step` (R3, R4): the block sees
only packets. The open host parameters of D44, D46 and D47 are the fields of `HostParams`; their reference instances stand
beside them. What the contract leaves open and the model fixes is in logs 20 and 26 to 30.
-/

namespace Sys2Proof.Machine

/-! ### The link to the block: one packet sent, its response read (R90, R114) -/

/-- The 64-bit result in a response, if the response has one (R114). -/
def resultOf : List Word → Option U64
  | [_, low, high] => some (joinWords low high)
  | _ => none

/-- A response whose status is OK (R114, R310). -/
def isOkResponse : List Word → Bool
  | [] => false
  | w :: _ => decide (w.extractLsb' 0 8 = Status.ok.code)

/-- The host sends the packet of one command to a block, the block executes it, the host takes the response off the
response port: the block after it, and the response. The packet finds the command port empty: R343 and R342 do not say what
becomes of words that wait there when the host sends, and the model drops them (DESIGN CHOICE, log 29). Words that wait on
the response port stay. -/
def exchange (b : State) (i : Instr) : State × List Word :=
  match step { b with cmdPort := encode i } with
  | .next t => ({ t with respPort := b.respPort }, t.respPort.drop b.respPort.length)
  | .fault _ => (b, [])
  | .refused _ => (b, [])

/-- The block as the host drives it. -/
structure Link where
  block : State
  /-- N, NUM_VOICES, NUM_BUF and the open parameters, as the host learned them at bring-up (R343). -/
  known : Params
  /-- Whether the buffer being produced has failed: a command answered a status other than OK, or the host fails
  otherwise (R297). -/
  failed : Bool
  /-- How many more commands the host sends before it fails otherwise (R297, log 26); none where it does not. -/
  budget : Option Nat
  deriving DecidableEq, Repr

/-- The host has failed otherwise than by a status, and sends nothing more for this buffer (R297, log 26). -/
def Link.halted (l : Link) : Bool := decide (l.budget = some 0)

/-- The host sends one command and reads its result; a status other than OK fails the buffer being produced (R297). -/
def Link.send (l : Link) (i : Instr) : Link × Option U64 :=
  if l.halted then (l, none)
  else
    match exchange l.block i with
    | (b, reply) =>
      ({ l with block := b, failed := l.failed || !isOkResponse reply, budget := l.budget.map (· - 1) }, resultOf reply)

/-- A sequence of commands whose results are not used. -/
def Link.sendAll (l : Link) (is : List Instr) : Link := is.foldl (fun l i => (l.send i).1) l

/-! ### Bring-up (R343) -/

/-- Registers of the core read one after another, and their values. -/
def readCore (b : State) (registers : List Byte) : State × List U64 :=
  registers.foldl
    (fun r n =>
      match exchange r.1 (.regRead 0 0 n) with
      | (b, reply) => (b, r.2 ++ [(resultOf reply).getD 0]))
    (b, [])

/-- The numbers of ID and the CFG registers in Table S1 (R61). -/
def bringUpRegisters : List Byte := [0, 1, 2, 3, 6, 7, 8, 9, 10]

/-- What the host learns from the values of ID and the CFG registers: ID, and the parameters (R33, R34, R343). -/
def learn : List U64 → Option (U64 × Params)
  | [id, n, voices, buffers, flags, envAlpha, smoothK, lfoAlpha, drive] =>
    some (id,
      { n := n.toNat
        numVoices := voices.toNat
        numBuf := buffers.toNat
        envAlpha := envAlpha
        filtSmoothK := smoothK
        lfoAlpha := lfoAlpha
        softclipDrive := drive
        unisonBasePhase := if flags.getLsbD 0 then .advance else .hold })
  | _ => none

/-- The reference host's bring-up (R343): `core.reset`, then ID and the CFG registers, and nothing else. Words that wait on
the command port when it begins are dropped, as in `exchange` (DESIGN CHOICE, log 29). -/
def bringUp (b : State) : Option (U64 × Link) :=
  match readCore (exchange b (.coreReset 0 0 0)).1 bringUpRegisters with
  | (b, values) =>
    (learn values).map fun k => (k.1, { block := b, known := k.2, failed := false, budget := none })

/-! ### Parameters and snapshot (R294) -/

/-- HOST_VOICE_POLICY (R293, D46). -/
inductive VoicePolicy where
  | stealOldest
  | refuse
  deriving DecidableEq, Repr

/-- The open host parameters (R283, R286, R292, R293, R294). -/
structure HostParams where
  /-- HOST_OSC_COMBINE -/
  combine : F64 → F64 → F64
  /-- HOST_PCM_ROUND -/
  pcmRound : F64 → Int
  /-- HOST_PCM_SCALE -/
  pcmScale : F64
  /-- HOST_CUTOFF_MAP, from the cutoff control to Hz -/
  cutoffMap : F64 → F64
  /-- HOST_Q_MAP, from the resonance control to Q -/
  qMap : F64 → F64
  /-- HOST_GRACE, in the host's time unit, one sample period (log 20) -/
  grace : Nat
  /-- HOST_VOICE_POLICY -/
  policy : VoicePolicy

/-- One oscillator's part of the snapshot (R294). -/
structure OscControls where
  waveform : Waveform
  volume : F64
  detune : F64
  octave : Int
  unison : Byte
  deriving DecidableEq, Repr

/-- lfo_target, which nothing reads (R294, R300). -/
inductive LfoTarget where
  | pitch
  | volume
  deriving DecidableEq, Repr

/-- The parameter snapshot of R294, a field for each row of its table, the cutoff and the resonance as their controls
stand. -/
structure Snapshot where
  osc1 : OscControls
  osc2 : OscControls
  masterVolume : F64
  attackMs : F64
  decayMs : F64
  releaseMs : F64
  sustainMs : F64
  sustain : F64
  filterEnabled : Bool
  filterType : FiltType
  /-- the control mapped by HOST_CUTOFF_MAP -/
  cutoff : F64
  /-- the control mapped by HOST_Q_MAP -/
  resonance : F64
  lfoEnabled : Bool
  lfoRate : F64
  lfoDepth : F64
  lfoTarget : LfoTarget
  deriving DecidableEq, Repr

/-- x is a number from lo to hi. -/
def between (lo hi x : F64) : Bool := fle lo x && fle x hi

/-- The ranges of one oscillator's controls (R294). -/
def OscControls.inRange (c : OscControls) : Bool :=
  between c0 c1 c.volume && between c0 c1 c.detune && decide (-2 ≤ c.octave) && decide (c.octave ≤ 2) &&
    decide (1 ≤ c.unison.toNat) && decide (c.unison.toNat ≤ 16)

/-- A time of the snapshot: a number >= 0 with no upper bound (R294). -/
def isTime (ms : F64) : Bool := isFinite ms && fle c0 ms

/-- The ranges of the table of R294. The host sends a snapshot outside them as it stands, and the block clamps every
number again (R294, R315, log 28); sustain_ms has no range in the table, the 0-100 of the resonance control is that of
the reference map (D47). -/
def Snapshot.inRange (p : Snapshot) : Bool :=
  p.osc1.inRange && p.osc2.inRange && between c0 c1 p.masterVolume && isTime p.attackMs && isTime p.decayMs &&
    isTime p.releaseMs && isFinite p.sustainMs && between c0 c100 p.sustain && between c0 c100 p.cutoff &&
    between c0 c100 p.resonance && between c0 c20 p.lfoRate && between c0 c100 p.lfoDepth

/-- The filter parameters the host sends: type, cutoff in Hz and Q (R282, R285). -/
structure FilterControls where
  type : FiltType
  cutoff : F64
  q : F64
  deriving DecidableEq, Repr

/-- The snapshot's filter parameters, after the host's maps (R294). -/
def Snapshot.filter (h : HostParams) (p : Snapshot) : FilterControls where
  type := p.filterType
  cutoff := h.cutoffMap p.cutoff
  q := h.qMap p.resonance

/-- HOST_OSC_COMBINE of the reference host: the sum (D44). -/
def referenceCombine (a b : F64) : F64 := fadd a b

/-- HOST_PCM_ROUND of the reference host: toward zero (D44). What is not finite becomes a number past the 16-bit range, of
its sign (log 28). -/
def referencePcmRound (x : F64) : Int := if fsign x then -(ffloor (fabs x) : Int) else (ffloor x : Int)

/-- HOST_CUTOFF_MAP of the reference host, `20.0 * FN_EXP2(c / 100.0 * log2(1000.0))` (D47); log2(1000.0) is the
binary64 nearest it (log 28). -/
def referenceCutoff (c : F64) : F64 := fmul c20 (fnExp2 (fmul (fdiv c c100) 0x4023EE7B471B3A95#64))

/-- HOST_Q_MAP of the reference host, `0.1 + (10.0 - 0.1) * c / 100.0` (D47). -/
def referenceQ (c : F64) : F64 := fadd c0p1 (fdiv (fmul (fsub c10 c0p1) c) c100)

/-- The reference host's parameters (D44, D46, D47); the grace period has no reference value. -/
def referenceHostParams (grace : Nat) : HostParams where
  combine := referenceCombine
  pcmRound := referencePcmRound
  pcmScale := fdecimal false 32767 0
  cutoffMap := referenceCutoff
  qMap := referenceQ
  grace := grace
  policy := .stealOldest

/-- `2^octave` for an integer octave in -2 .. 2 (R283); an octave beyond is taken as the nearer end (log 28). -/
def octaveScale (octave : Int) : F64 :=
  if octave ≤ -2 then c0p25 else if octave = -1 then c0p5 else if octave = 0 then c1
  else if octave = 1 then c2 else 0x4010000000000000#64

/-- The FA of OSC_INIT for a waveform (R117). -/
def Waveform.field (w : Waveform) : Byte := w.number.setWidth 8

/-- The FA of FILT_UPDATE for a type (R117). -/
def FiltType.field (t : FiltType) : Byte := t.number.setWidth 8

/-! ### Voice (R280-R287) -/

/-- What the host keeps of a voice: its base frequency, sample index, creation time, and the filter parameters it last
sent while the filter is enabled (R280, R285). -/
structure Voice where
  base : F64
  sampleIndex : U64
  created : Nat
  lastSent : Option FilterControls
  deriving DecidableEq, Repr

/-- The scratch buffers b0 and b1 (R281). -/
def scratch0 : Byte := 0
def scratch1 : Byte := 1

/-- osc[2v], osc[2v+1] (R280). -/
def osc1Of (v : Nat) : Byte := BitVec.ofNat 8 (2 * v)
def osc2Of (v : Nat) : Byte := BitVec.ofNat 8 (2 * v + 1)

/-- env[v], filt[v] (R280). -/
def slotOf (v : Nat) : Byte := BitVec.ofNat 8 v

/-- `filt.update filt<v>` with the given parameters. -/
def updateCommand (v : Nat) (f : FilterControls) : Instr := .filtUpdate (slotOf v) f.type.field 0 f.cutoff f.q

/-- The commands of voice creation (R282). -/
def createCommands (h : HostParams) (v : Nat) (p : Snapshot) : List Instr :=
  [.oscInit (osc1Of v) p.osc1.waveform.field 0,
   .oscInit (osc2Of v) p.osc2.waveform.field 0,
   .envInit (slotOf v) 0 0 p.attackMs p.decayMs (fdiv p.sustain c100) p.releaseMs p.sustainMs]
  ++ if p.filterEnabled then [updateCommand v (p.filter h), .filtReset (slotOf v) 0 0] else []

/-- The voice R282 creates. With the filter disabled its was_enabled is false, whatever the slot's last voice left there:
R282 does not write was_enabled and R285 indexes it by slot (DESIGN CHOICE, log 20). -/
def createVoice (h : HostParams) (base : F64) (now : Nat) (p : Snapshot) : Voice where
  base := base
  sampleIndex := 0
  created := now
  lastSent := if p.filterEnabled then some (p.filter h) else none

/-- The inactive test of R283: FLAGS bit 0 of env[v]. Where no value came back the voice counts as active (log 26). -/
def Link.inactive (l : Link) (v : Nat) : Link × Bool :=
  let r := l.send (.regRead (slotOf v) 2 1)
  (r.1, (r.2.getD 0).getLsbD 0)

/-- `osc.render` of one of a voice's oscillators (R283). -/
def renderCommand (osc buffer : Byte) (c : OscControls) (voice : Voice) : Instr :=
  .oscRender osc buffer c.unison (fmul voice.base (octaveScale c.octave)) c.volume voice.sampleIndex c.detune

/-- The two oscillators' words combined into b0, word by word (R283). A word that did not come back is +0.0 (log 26). -/
def Link.combineBuffers (h : HostParams) (l : Link) : Link :=
  (List.range l.known.n).foldl
    (fun l n =>
      let a := l.send (.bufRead 0 scratch0 0 (BitVec.ofNat 64 n))
      let b := a.1.send (.bufRead 0 scratch1 0 (BitVec.ofNat 64 n))
      (b.1.send (.bufWrite 0 scratch0 0 (BitVec.ofNat 64 n) (h.combine (a.2.getD c0) (b.2.getD c0)))).1)
    l

/-- The change test of R285: `==` on each of the three values. -/
def sameFilter (a b : FilterControls) : Bool := decide (a.type = b.type) && feq a.cutoff b.cutoff && feq a.q b.q

/-- The commands of `FilterTick` and what the host then remembers as last sent (R285); none is `was_enabled` = 0. -/
def filterTick (h : HostParams) (v : Nat) (p : Snapshot) (lastSent : Option FilterControls) :
    List Instr × Option FilterControls :=
  if p.filterEnabled then
    let f := p.filter h
    ((match lastSent with
      | none => [updateCommand v f, .filtReset (slotOf v) 0 0]
      | some sent => if sameFilter f sent then [] else [updateCommand v f])
     ++ [.filtApply (slotOf v) scratch0 0],
     some f)
  else ([], none)

/-- An integer kept to the 16-bit range (R286, R291). -/
def clampPcm (x : Int) : Int := max (-32768) (min x 32767)

/-- `HOST_PCM` (R286). -/
def hostPcm (h : HostParams) (y : F64) : Int := clampPcm (h.pcmRound (fmul y h.pcmScale))

/-- The samples of b0 scaled by the master volume and converted (R283). -/
def Link.readPcm (h : HostParams) (masterVolume : F64) (l : Link) : Link × List Int :=
  (List.range l.known.n).foldl
    (fun r n =>
      let x := r.1.send (.bufRead 0 scratch0 0 (BitVec.ofNat 64 n))
      (x.1, r.2 ++ [hostPcm h (fmul (x.2.getD c0) masterVolume)]))
    (l, [])

/-- `VoiceTick(v)` (R283, R284): no output once the voice is inactive. Where the host has failed on the way, it keeps the
voice as it was (log 26). -/
def voiceTick (h : HostParams) (v : Nat) (p : Snapshot) (l : Link) (voice : Voice) : Link × Voice × Option (List Int) :=
  match l.inactive v with
  | (l, true) => (l, voice, none)
  | (l, false) =>
    let l := l.sendAll [renderCommand (osc1Of v) scratch0 p.osc1 voice, renderCommand (osc2Of v) scratch1 p.osc2 voice]
    let l := (l.combineBuffers h).sendAll [.envApply (slotOf v) scratch0 0]
    let ft := filterTick h v p voice.lastSent
    match (l.sendAll ft.1).readPcm h p.masterVolume with
    | (l, pcm) =>
      (l,
       if l.halted then voice
       else { voice with sampleIndex := voice.sampleIndex + BitVec.ofNat 64 l.known.n, lastSent := ft.2 },
       some pcm)

/-! ### VoiceBank (R288-R293) -/

/-- The pool, one place per voice slot, and the map from a sounding frequency to its slot (R288). -/
structure Bank where
  slots : List (Option Voice)
  owner : List (F64 × Nat)
  deriving DecidableEq, Repr

/-- The empty pool of NUM_VOICES slots. -/
def Bank.empty (p : Params) : Bank where
  slots := List.replicate p.numVoices none
  owner := []

/-- The slot a frequency owns, frequencies compared with `==` (R288). -/
def Bank.lookup (b : Bank) (frequency : F64) : Option Nat := (b.owner.find? fun e => feq e.1 frequency).map Prod.snd

/-- The map without a frequency's entry (R289, R290). -/
def Bank.untrack (b : Bank) (frequency : F64) : Bank := { b with owner := b.owner.filter fun e => !feq e.1 frequency }

/-- The lowest free slot. -/
def freeSlot (slots : List (Option Voice)) : Option Nat := slots.findIdx? Option.isNone

/-- The slot of the oldest voice, the lowest of equals. -/
def oldestSlot (slots : List (Option Voice)) : Option Nat :=
  (List.range slots.length).foldl
    (fun best v =>
      match slots.getD v none, best with
      | none, _ => best
      | some _, none => some v
      | some x, some b => if x.created < ((slots.getD b none).elim 0 Voice.created) then some v else best)
    none

/-- The slot a new note takes (R289, R293): a free one, else the oldest voice's or none by HOST_VOICE_POLICY. -/
def Bank.takeSlot (b : Bank) (policy : VoicePolicy) : Option Nat :=
  match freeSlot b.slots with
  | some v => some v
  | none =>
    match policy with
    | .stealOldest => oldestSlot b.slots
    | .refuse => none

/-- `noteOn` (R289, R293). The frequency is untracked first, as R289 lists it, also where the note is then dropped under
REFUSE: R293 says only that the note is dropped, and the old voice sounds on and can no longer be released by a note-off
(DESIGN CHOICE, log 30). A slot taken holds the new voice whatever its commands answer (DESIGN CHOICE, log 30). -/
def noteOn (h : HostParams) (now : Nat) (p : Snapshot) (frequency : F64) (l : Link) (b : Bank) : Link × Bank :=
  let b := b.untrack frequency
  match b.takeSlot h.policy with
  | none => (l, b)
  | some v =>
    (l.sendAll (createCommands h v p),
     { slots := b.slots.set v (some (createVoice h frequency now p))
       owner := (frequency, v) :: b.owner.filter fun e => e.2 != v })

/-- `noteOff` of a frequency (R287, R290). -/
def noteOffAt (frequency : F64) (l : Link) (b : Bank) : Link × Bank :=
  match b.lookup frequency with
  | none => (l, b)
  | some v => ((l.send (.envNoteOff (slotOf v) 0 0)).1, b.untrack frequency)

/-- `Prune()` (R292): a voice that is inactive and older than the grace period leaves its slot. R292 frees the slot and says
nothing of a map entry that still names it; the model removes such an entry too (DESIGN CHOICE, log 30). Whether a voice is
inactive is read from FLAGS again, in ascending order of the slots (DESIGN CHOICE, log 30). -/
def prune (h : HostParams) (now : Nat) (l : Link) (b : Bank) : Link × Bank :=
  (List.range b.slots.length).foldl
    (fun r v =>
      match r.2.slots.getD v none with
      | none => r
      | some voice =>
        match r.1.inactive v with
        | (l, true) =>
          if voice.created + h.grace < now then
            (l, { slots := r.2.slots.set v none, owner := r.2.owner.filter fun e => e.2 != v })
          else (l, r.2)
        | (l, false) => (l, r.2))
    (l, b)

/-- The sum of the active voices' samples, not yet clamped (R291). -/
def sumVoices (h : HostParams) (p : Snapshot) (l : Link) (b : Bank) : Link × Bank × List Int :=
  (List.range b.slots.length).foldl
    (fun r v =>
      match r.2.1.slots.getD v none with
      | none => r
      | some voice =>
        match voiceTick h v p r.1 voice with
        | (l, voice, out) =>
          (l, { r.2.1 with slots := r.2.1.slots.set v (some voice) },
           match out with
           | none => r.2.2
           | some pcm => List.zipWith (· + ·) r.2.2 pcm))
    (l, b, List.replicate l.known.n 0)

/-- The two bytes of a 16-bit sample, low byte first (R286, R291). -/
def pcmBytes (x : Int) : List Byte := [BitVec.ofInt 8 (x % 256), BitVec.ofInt 8 (x / 256)]

/-- A buffer of N silent samples, as bytes. -/
def silence (n : Nat) : List Byte := List.replicate (2 * n) 0

/-- `mixVoices()` (R291, R292). -/
def mixVoices (h : HostParams) (now : Nat) (p : Snapshot) (l : Link) (b : Bank) : Link × Bank × List Byte :=
  match sumVoices h p l b with
  | (l, b, acc) =>
    match prune h now l b with
    | (l, b) => (l, b, (acc.map clampPcm).flatMap pcmBytes)

/-! ### The audio output sink (R296, R298) -/

/-- A format of an audio output sink. -/
structure SinkFormat where
  sampleRate : Nat
  bits : Nat
  signed : Bool
  channels : Nat
  littleEndian : Bool
  deriving DecidableEq, Repr

/-- The one format the sink is opened for: 44100 Hz, signed 16-bit, mono, little-endian (R296). -/
def pcmFormat : SinkFormat where
  sampleRate := 44100
  bits := 16
  signed := true
  channels := 1
  littleEndian := true

/-- A sink: its format, whether it is held open, and the buffers written to it, the first first. -/
structure Sink where
  format : SinkFormat
  isOpen : Bool
  written : List (List Byte)
  deriving DecidableEq, Repr

/-- "Unsupported-device" (R296): fatal at startup. -/
inductive StartError where
  | unsupportedDevice
  deriving DecidableEq, Repr

/-- A device, given by the formats it can be opened for, opened for the one format; there is no fallback (R296). -/
def openSink (device : List SinkFormat) : Except StartError Sink :=
  if pcmFormat ∈ device then .ok { format := pcmFormat, isOpen := true, written := [] } else .error .unsupportedDevice

/-- A buffer written to a sink that is open. -/
def Sink.write (k : Sink) (buffer : List Byte) : Sink :=
  if k.isOpen then { k with written := k.written ++ [buffer] } else k

/-- The sink given back (R298). -/
def Sink.release (k : Sink) : Sink := { k with isOpen := false }

/-! ### Mixer, threads, LFO (R295-R301) -/

/-- The states of the Mixer (R295). -/
inductive MixerState where
  | idle
  | running
  | stopped
  deriving DecidableEq, Repr

/-- A note event of the input thread (R299). -/
inductive NoteEvent where
  | on (frequency : F64)
  | off (frequency : F64)
  deriving DecidableEq, Repr

/-- The whole synthesizer (R295-R301). -/
structure Synth where
  link : Link
  /-- ID, as read at bring-up (R343) -/
  id : U64
  bank : Bank
  /-- the input thread's note events not yet drained, the first first (R299) -/
  events : List NoteEvent
  /-- the enable flag the host last sent to the LFO (R300) -/
  lfoSent : Bool
  mixer : MixerState
  /-- the running flag (R295, R298) -/
  running : Bool
  /-- in sample periods (R295, log 20) -/
  deadline : Nat
  /-- none before `start` opens it -/
  sink : Option Sink
  /-- the buffers handed to the visualizer (R301) -/
  visualizer : List (List Byte)
  /-- the times of the buffers that failed (R297: "logged") -/
  failures : List Nat
  deriving DecidableEq, Repr

/-- `create` (R298) with the bring-up (R343): an idle Mixer and an empty bank over a block just reset. The contract gives
the LFO's flag no value before the first snapshot; the model takes it as off, which is what `core.reset` leaves, so a
first snapshot with the LFO off sends no enable (DESIGN CHOICE, log 27).
R281 requires NUM_BUF >= 2 of the reference host and does not say what it does over a block with NUM_BUF = 1: the model
checks nothing here and goes on, so a tick with a sounding voice has b1 refused (BAD_BUFFER) and is silence (R297; DESIGN
CHOICE, log 30). -/
def Synth.create (b : State) : Option Synth :=
  (bringUp b).map fun k =>
    { link := k.2
      id := k.1
      bank := .empty k.2.known
      events := []
      lfoSent := false
      mixer := .idle
      running := false
      deadline := 0
      sink := none
      visualizer := []
      failures := [] }

/-- `start` (R295, R296): Running, with the sink open and the first deadline one buffer away. Where the sink cannot be
opened the error goes to the launcher and the Mixer does not enter Running (what a later start does then: `Synth.act`).
A Mixer that is not Idle is left as it is
(log 28). -/
def Synth.start (now : Nat) (device : List SinkFormat) (y : Synth) : Except StartError Synth :=
  match y.mixer with
  | .idle =>
    (openSink device).map fun k =>
      { y with mixer := .running, running := true, deadline := now + y.link.known.n, sink := some k }
  | .running => .ok y
  | .stopped => .ok y

/-- `stop` (R298): the flag goes; the loop sees it at its next turn. R298 gives only the order create, start, stop,
destroy: a stop given to a Mixer that is not Running changes nothing that lasts, an Idle one can still be started, which
sets the flag again, and a Stopped one stays Stopped (DESIGN CHOICE, log 28). -/
def Synth.stop (y : Synth) : Synth := { y with running := false }

/-- `destroy`, the end of the lifecycle (R298): a stopped Mixer is no more; another is left as it is (log 28). -/
def Synth.destroy (y : Synth) : Option Synth :=
  match y.mixer with
  | .idle => some y
  | .running => some y
  | .stopped => none

/-- The input thread's part of `noteOn` and `noteOff`: the event joins the queue, and nothing is sent (R299). -/
def Synth.post (e : NoteEvent) (y : Synth) : Synth := { y with events := y.events ++ [e] }

/-- The host clears the error registers, as it may at any time (R297, log 26). -/
def Synth.clearErrors (y : Synth) : Synth := { y with link := (y.link.send (.errClear 0 0 0)).1 }

/-- One note event taken from the queue (R289, R290, R299). -/
def takeEvent (h : HostParams) (now : Nat) (p : Snapshot) (e : NoteEvent) (l : Link) (b : Bank) : Link × Bank :=
  match e with
  | .on f => noteOn h now p f l b
  | .off f => noteOffAt f l b

/-- The audio thread takes the queued note events, in order (R299); where the host has failed the rest stay queued
(log 26). -/
def drainEvents (h : HostParams) (now : Nat) (p : Snapshot) : List NoteEvent → Link → Bank → Link × Bank × List NoteEvent
  | [], l, b => (l, b, [])
  | e :: es, l, b =>
    if l.halted then (l, b, e :: es)
    else
      match takeEvent h now p e l b with
      | (l, b) => drainEvents h now p es l b

/-- The LFO's commands of one tick (R300): an enable when the flag changes, then one step. -/
def lfoCommands (sent : Bool) (p : Snapshot) : List Instr :=
  (if p.lfoEnabled = sent then [] else [.lfoEnable 0 (if p.lfoEnabled then 1 else 0) 0])
  ++ [.lfoStep 0 0 0 p.lfoRate p.lfoDepth]

/-- One tick's buffer (R291, R297, R299, R300). `fails` is none, or some number of commands after which the host fails
otherwise than by a status. Where a command answered a status other than OK, or the host failed otherwise, the buffer is N
zero samples, the failure is logged, and the block stays as the commands left it (R297).
The contract does not say whether the host gives up the rest of a tick after such a status: the model goes on, sends the
tick's remaining commands, and advances the voices' sample indices and the LFO flag (DESIGN CHOICE, log 26).
All note-ons, voices and the LFO of the tick read the one snapshot p: R283 reads it once for each voice and R294 says
"refreshed at least once per buffer tick", which leaves open a refresh within a tick (DESIGN CHOICE, log 28).
All voices the tick creates get the one time `now` (DESIGN CHOICE, log 30). -/
def Synth.tick (h : HostParams) (now : Nat) (fails : Option Nat) (p : Snapshot) (y : Synth) : Synth × List Byte :=
  match drainEvents h now p y.events { y.link with failed := fails.isSome, budget := fails } y.bank with
  | (l, b, events) =>
    let l := l.sendAll (lfoCommands y.lfoSent p)
    let lfoSent := if l.halted then y.lfoSent else p.lfoEnabled
    match mixVoices h now p l b with
    | (l, b, out) =>
      ({ y with
          link := { l with failed := false, budget := none }
          bank := b
          events := events
          lfoSent := lfoSent
          failures := if l.failed then y.failures ++ [now] else y.failures },
       if l.failed then silence l.known.n else out)

/-- One buffer to the visualizer and the same buffer to the sink (R295, R301). -/
def Synth.output (y : Synth) (buffer : List Byte) : Synth :=
  { y with visualizer := y.visualizer ++ [buffer], sink := y.sink.map (·.write buffer) }

/-- The Mixer's end (R298): one buffer of silence to drain, to the sink alone (log 28), the sink released, Stopped. -/
def Synth.drain (y : Synth) : Synth :=
  { y with mixer := .stopped, sink := y.sink.map fun k => (k.write (silence y.link.known.n)).release }

/-- One turn of the Mixer's loop at the time `now` (R295, R297, R298), with one snapshot (log 28): a buffer when the deadline
is less than two buffers away; the end when the running flag has gone. The clock is read once in a turn: `now` is the time
of the loop's test, of every voice the tick creates (R282) and of pruning (R292), so the notes of one tick are equally old
for STEAL_OLDEST. The spec does not say when the clock is read (DESIGN CHOICE, log 30). -/
def Synth.turn (h : HostParams) (now : Nat) (fails : Option Nat) (p : Snapshot) (y : Synth) : Synth :=
  match y.mixer with
  | .idle => y
  | .stopped => y
  | .running =>
    if y.running then
      if (y.deadline : Int) - now < 2 * y.link.known.n then
        match y.tick h now fails p with
        | (y, out) => { y.output out with deadline := y.deadline + y.link.known.n }
      else y
    else y.drain

/-- What can happen to a synthesizer after `create`, but for `destroy`. -/
inductive HostAction where
  | start (now : Nat) (device : List SinkFormat)
  | post (e : NoteEvent)
  | clearErrors
  | turn (now : Nat) (fails : Option Nat) (p : Snapshot)
  | stop
  deriving DecidableEq, Repr

/-- The synthesizer after an action. A `start` that answers an error leaves it as it was, Idle, so a later start, with
another device or the same, is tried as the first was: R296 calls Unsupported-device fatal at startup and says that the
Mixer does not enter Running, not whether a start may be tried again (DESIGN CHOICE, log 28). -/
def Synth.act (h : HostParams) (y : Synth) : HostAction → Synth
  | .start now device =>
    match y.start now device with
    | .ok y => y
    | .error _ => y
  | .post e => y.post e
  | .clearErrors => y.clearErrors
  | .turn now fails p => y.turn h now fails p
  | .stop => y.stop

end Sys2Proof.Machine
end

