-- ==== Sys2Proof/Safety.lean ====
section
/-!
DEFINITION. What counts as a good state, in the terms the statements use: the legal parameters (R6, R7, R10) and the
ranges that 10_state.md, R53, R83, R177 and R209 state for the units and the buffer memory; and the check of R312 read
off Table E1 command by command, against which the meanings are held.
-/

namespace Sys2Proof.Machine

/-- x is a number with lo <= x <= hi. -/
abbrev Within (lo hi x : F64) : Prop := fle lo x = true ∧ fle x hi = true

/-- x is a phase, in [0, TWO_PI) (R38, R57). -/
abbrev IsPhase (x : F64) : Prop := fle c0 x = true ∧ flt x TWO_PI = true

/-- The legal ranges of the parameters (R6, R7, R10). -/
structure LegalParams (p : Params) : Prop where
  n_pos : 1 ≤ p.n
  n_le : p.n ≤ 65536
  numVoices_pos : 1 ≤ p.numVoices
  numVoices_le : p.numVoices ≤ 128
  numBuf_pos : 1 ≤ p.numBuf
  numBuf_le : p.numBuf ≤ 256
  envAlpha_pos : flt c0 p.envAlpha = true
  envAlpha_lt : flt p.envAlpha c1 = true
  filtSmoothK_pos : flt c0 p.filtSmoothK = true
  filtSmoothK_le : fle p.filtSmoothK c1 = true
  lfoAlpha_pos : flt c0 p.lfoAlpha = true
  lfoAlpha_lt : flt p.lfoAlpha c1 = true
  softclipDrive_finite : isFinite p.softclipDrive = true
  softclipDrive_pos : flt c0 p.softclipDrive = true

/-- The state holds as many units of each class as the parameters say (R2, R7). -/
structure State.Sized (s : State) : Prop where
  osc : s.osc.length = s.params.numOsc
  env : s.env.length = s.params.numEnv
  filt : s.filt.length = s.params.numFilt

/-- The canonical form of the buffer memory: strictly rising word addresses, no word listed that an unlisted address
reads as (log 4). -/
abbrev Memory.wf (m : Memory) : Prop :=
  m.Pairwise (fun c d => c.1 < d.1) ∧ ∀ c ∈ m, c.2 ≠ unlistedWord

/-- Only words of the NUM_BUF buffers of N words are listed (R58, R88). -/
abbrev Memory.mapped (p : Params) (m : Memory) : Prop := ∀ c ∈ m, c.1 < p.numBuf * p.n

/-- Every listed word is finite; an unlisted one is +0.0 (R83). -/
abbrev Memory.finite (m : Memory) : Prop := ∀ c ∈ m, isFinite c.2 = true

/-- R38, R39: PHASE in [0, TWO_PI), FREQUENCY a clamped frequency (R142). -/
structure Osc.Good (o : Osc) : Prop where
  phase : IsPhase o.phase
  frequency : Within c0 NYQ o.frequency

/-- R46: a sample count. -/
abbrev IsCount (n : U64) : Prop := 1 ≤ n.toNat ∧ n.toNat ≤ 44100000

/-- R43, R46, R47, R177: the ranges of an envelope, and FINISHED only in RELEASE. -/
structure Env.Good (e : Env) : Prop where
  envAtRelease : Within c0 c1 e.envAtRelease
  prev : Within c0 c1 e.prev
  sustainLevel : Within c0 c1 e.sustainLevel
  attackSamples : IsCount e.attackSamples
  decaySamples : IsCount e.decaySamples
  sustainSamples : IsCount e.sustainSamples
  releaseSamples : IsCount e.releaseSamples
  finished : e.finished = true → e.stage = .release

/-- R53, R209: the target satisfies the stability bounds (the identity does), the taps are finite. -/
structure Filt.Good (f : Filt) : Prop where
  tgt : f.tgt.stable = true
  z1 : isFinite f.z1 = true
  z2 : isFinite f.z2 = true

/-- R57: PHASE in [0, TWO_PI). The bound of PREV is the model's, [-25 - 2^-47, 25 + 2^-47]: rounding can pass the 25.0 of
R233, and by at most two units in the last place (log 16). -/
structure Lfo.Good (l : Lfo) : Prop where
  phase : IsPhase l.phase
  prev : Within 0xC039000000000002#64 0x4039000000000002#64 l.prev

/-- The error registers: an error is recorded exactly when VALID is 1, and OVERFLOW needs VALID (R35, R313). -/
structure ErrorRegs.Good (e : ErrorRegs) : Prop where
  code : e.valid = true ↔ e.code ≠ .ok
  overflow : e.overflow = true → e.valid = true
  cmd : e.valid = false → e.cmd = 0

/-- The state's shape: legal parameters, all units, a canonical memory inside the address map. -/
structure State.Shape (s : State) : Prop where
  params : LegalParams s.params
  sized : s.Sized
  wf : Memory.wf s.mem
  mapped : Memory.mapped s.params s.mem

/-- A good state: the shape, and every unit and word in the range the spec states for it. -/
structure State.Good (s : State) : Prop where
  shape : s.Shape
  err : s.err.Good
  osc : ∀ o ∈ s.osc, o.Good
  env : ∀ e ∈ s.env, e.Good
  filt : ∀ f ∈ s.filt, f.Good
  lfo : s.lfo.Good
  words : Memory.finite s.mem

/-- The words of an OK response with these results (R114). -/
def okWords (opc : Byte) (results : List U64) : List Word :=
  ((0 : BitVec 16) ++ opc ++ (0 : Byte)) :: operandWords results

/-- The state after an OK response with these results has been sent: nothing else is changed. -/
def State.answered (s : State) (opc : Byte) (results : List U64) : State :=
  { s with respPort := s.respPort ++ okWords opc results }

/-- The unit state that sample step k of a buffer command finds: steps 0 .. k-1 have run from u, in ascending order, on
the words that the memory m holds from the address base on (R87). -/
def sweepUnit {σ : Type} (f : Nat → σ → F64 → σ × F64) (base : Nat) (m : Memory) (u : σ) : Nat → σ
  | 0 => u
  | k + 1 => (f k (sweepUnit f base m u k) (readWord m (base + k))).1

end Sys2Proof.Machine

namespace Sys2Proof

open Sys2Proof.Machine

/-- The count INST must be below, for the commands whose INST names a unit (R116). -/
def Instr.instanceCount (i : Instr) (p : Params) : Option Nat :=
  match i with
  | .regRead _ fa _ => some (classCount p fa)
  | .oscInit _ _ _ | .oscRender _ _ _ _ _ _ _ => some p.numOsc
  | .envInit _ _ _ _ _ _ _ _ | .envStep _ _ _ | .envApply _ _ _ | .envNoteOff _ _ _ => some p.numEnv
  | .filtUpdate _ _ _ _ _ | .filtReset _ _ _ | .filtProcess _ _ _ _ | .filtApply _ _ _ => some p.numFilt
  | .lfoEnable _ _ _ | .lfoStep _ _ _ _ _ => some 1
  | .nop _ _ _ | .coreReset _ _ _ | .errClear _ _ _ | .bufWrite _ _ _ _ _ | .bufRead _ _ _ _ | .bufClear _ _ _ => none

/-- FA of the commands whose FA names a buffer (R116, Table M1). -/
def Instr.bufferField (i : Instr) : Option Byte :=
  match i with
  | .bufWrite _ fa _ _ _ | .bufRead _ fa _ _ | .bufClear _ fa _ | .oscRender _ fa _ _ _ _ _ | .envApply _ fa _
  | .filtApply _ fa _ => some fa
  | .nop _ _ _ | .coreReset _ _ _ | .regRead _ _ _ | .errClear _ _ _ | .oscInit _ _ _ | .envInit _ _ _ _ _ _ _ _
  | .envStep _ _ _ | .envNoteOff _ _ _ | .filtUpdate _ _ _ _ _ | .filtReset _ _ _ | .filtProcess _ _ _ _
  | .lfoEnable _ _ _ | .lfoStep _ _ _ _ _ => none

/-- The f64 operands of a command (R311, Table E1). -/
def Instr.realOperands (i : Instr) : List F64 :=
  match i with
  | .bufWrite _ _ _ _ value => [value]
  | .oscRender _ _ _ frequency volume _ detune => [frequency, volume, detune]
  | .envInit _ _ _ attackMs decayMs sustainLevel releaseMs sustainMs =>
    [attackMs, decayMs, sustainLevel, releaseMs, sustainMs]
  | .filtUpdate _ _ _ cutoff qIn => [cutoff, qIn]
  | .filtProcess _ _ _ x => [x]
  | .lfoStep _ _ _ rate depth => [rate, depth]
  | .nop _ _ _ | .coreReset _ _ _ | .regRead _ _ _ | .errClear _ _ _ | .bufRead _ _ _ _ | .bufClear _ _ _
  | .oscInit _ _ _ | .envStep _ _ _ | .envApply _ _ _ | .envNoteOff _ _ _ | .filtReset _ _ _ | .filtApply _ _ _
  | .lfoEnable _ _ _ => []

/-- The u64 word index of the commands that have one (R85). -/
def Instr.indexOperand (i : Instr) : Option U64 :=
  match i with
  | .bufWrite _ _ _ n _ | .bufRead _ _ _ n => some n
  | .nop _ _ _ | .coreReset _ _ _ | .regRead _ _ _ | .errClear _ _ _ | .bufClear _ _ _ | .oscInit _ _ _
  | .oscRender _ _ _ _ _ _ _ | .envInit _ _ _ _ _ _ _ _ | .envStep _ _ _ | .envApply _ _ _ | .envNoteOff _ _ _
  | .filtUpdate _ _ _ _ _ | .filtReset _ _ _ | .filtProcess _ _ _ _ | .filtApply _ _ _ | .lfoEnable _ _ _
  | .lfoStep _ _ _ _ _ => none

/-- The status of a command's first failing check in the order of R312 (ILLEGAL_OPCODE apart, which no Instr has),
read off Table E1: none when the command is performed. -/
def Instr.failure (i : Instr) (p : Params) : Option Status :=
  if i.wellFormed = false then some .badField
  else if (i.instanceCount p).any (fun c => c ≤ i.inst.toNat) then some .badInstance
  else if i.bufferField.any (fun b => p.numBuf ≤ b.toNat) then some .badBuffer
  else if i.realOperands.any (fun x => !isFinite x) then some .nonfiniteOperand
  else if i.indexOperand.any (fun n => p.n ≤ n.toNat) then some .badIndex
  else none

/-- How many results a command answers with when it is performed, R of Table E1 (R114, R115). -/
def Instr.resultCount (i : Instr) : Nat :=
  match i with
  | .regRead _ _ _ | .bufRead _ _ _ _ | .envStep _ _ _ | .filtProcess _ _ _ _ | .lfoStep _ _ _ _ _ => 1
  | .nop _ _ _ | .coreReset _ _ _ | .errClear _ _ _ | .bufWrite _ _ _ _ _ | .bufClear _ _ _ | .oscInit _ _ _
  | .oscRender _ _ _ _ _ _ _ | .envInit _ _ _ _ _ _ _ _ | .envApply _ _ _ | .envNoteOff _ _ _
  | .filtUpdate _ _ _ _ _ | .filtReset _ _ _ | .filtApply _ _ _ | .lfoEnable _ _ _ => 0

end Sys2Proof

namespace Sys2Proof.Machine

/-- A run of the block with its host: the block takes steps, and the host puts words behind those on the command port
(R19, R90, R91). -/
inductive Run : State → State → Prop where
  | refl (s : State) : Run s s
  | step {s t u : State} (h : Run s t) (hs : Machine.step t = .next u) : Run s u
  | send {s t : State} (h : Run s t) (ws : List Word) : Run s { t with cmdPort := t.cmdPort ++ ws }

end Sys2Proof.Machine
end

