-- ==== Sys2Proof/Certificates/Slice0/Obligations.lean ====
section
/-!
DEFINITION. The statements for the provers. Each docstring names the rules of spec/ the statement comes from. A frame
is stated by the whole next state: the equation names every field that changes, and no other changes.
-/

open Sys2Proof Sys2Proof.Machine

/-! ### Encoding (30_encoding.md) -/

/-- R110-R113: the packet of a command, whatever words follow it, decodes to that command, every field and operand at
every value. -/
def Obligations.DecodeEncode : Prop :=
  ∀ (i : Instr) (rest : List Word), decode (encode i ++ rest) = .command i rest

/-- R110-R113: words that decode to a command are that command's packet and the words after it: no bit is ignored. -/
def Obligations.EncodeDecode : Prop :=
  ∀ (ws : List Word) (i : Instr) (rest : List Word), decode ws = .command i rest → encode i ++ rest = ws

/-- R112: the length of a packet is told from OPC alone. -/
def Obligations.PacketLengthFromOpcode : Prop :=
  ∀ (h : Word) (ws : List Word),
    match decode (h :: ws) with
    | .command i rest =>
      i.opc = opcOf h ∧ i.operands.length = operandCount (opcOf h) ∧ 2 * operandCount (opcOf h) ≤ ws.length ∧
        rest = ws.drop (2 * operandCount (opcOf h))
    | .illegal h' rest => h' = h ∧ operandCount (opcOf h) = 0 ∧ rest = ws
    | .incomplete => ws.length < 2 * operandCount (opcOf h)

/-- R118: exactly the opcodes of its list are illegal; such a packet is one word, is refused with ILLEGAL_OPCODE, and
changes nothing but the error registers (and the two ports and the position, as every packet does). -/
def Obligations.IllegalOpcodes : Prop :=
  ∀ (h : Word) (ws : List Word),
    (decode (h :: ws) = .illegal h ws ↔
      let o := (opcOf h).toNat
      (0x04 ≤ o ∧ o ≤ 0x07) ∨ (0x0B ≤ o ∧ o ≤ 0x0F) ∨ (0x12 ≤ o ∧ o ≤ 0x1F) ∨ (0x24 ≤ o ∧ o ≤ 0x2F) ∨
        (0x34 ≤ o ∧ o ≤ 0x3F) ∨ (0x42 ≤ o ∧ o ≤ 0xFF)) ∧
    ∀ s : State, s.cmdPort = h :: ws → decode (h :: ws) = .illegal h ws →
      step s = .next { s with
        cmdPort := ws
        position := s.position + 1
        err := if s.err.valid then { s.err with overflow := true }
          else { code := .illegalOpcode, valid := true, overflow := false, cmd := h }
        respPort := s.respPort ++ [(0 : BitVec 16) ++ opcOf h ++ (1 : Byte)] }

/-- R110, R111, R113: the header's four fields by their place, and each operand as two words, bits 31:0 first. -/
def Obligations.PacketWords : Prop :=
  ∀ i : Instr,
    (encode i).length = 1 + 2 * operandCount i.opc ∧
    (∃ h, (encode i)[0]? = some h ∧
      h.toNat = i.opc.toNat * 2 ^ 24 + i.inst.toNat * 2 ^ 16 + i.fa.toNat * 2 ^ 8 + i.fb.toNat) ∧
    ∀ (k : Nat) (v : U64), i.operands[k]? = some v →
      ∃ lo hi, (encode i)[1 + 2 * k]? = some lo ∧ (encode i)[2 + 2 * k]? = some hi ∧
        v.toNat = hi.toNat * 2 ^ 32 + lo.toNat

/-- R84: a byte transport carries each port word as four bytes, least significant first, and gives the words back. -/
def Obligations.ByteTransport : Prop :=
  (∀ ws : List Word, wordsOfBytes (bytesOfWords ws) = ws) ∧
  ∀ w : Word, ∃ b0 b1 b2 b3, bytesOfWord w = [b0, b1, b2, b3] ∧
    w.toNat = b0.toNat + 2 ^ 8 * b1.toNat + 2 ^ 16 * b2.toNat + 2 ^ 24 * b3.toNat

/-- Words written out from Table E1 and the examples of R122, R140, R250, R252, R256, R257: the commands they are. -/
def Obligations.DecodingSanity : Prop :=
  decode [0x00123456] = .command (.nop 0x12 0x34 0x56) [] ∧
  decode [0x02000000] = .command (.regRead 0 0 0) [] ∧
  decode [0x08000200, 3, 0, 0, 0x3FE00000] = .command (.bufWrite 0 2 0 3 0x3FE0000000000000) [] ∧
  decode [0x10010200] = .command (.oscInit 1 2 0) [] ∧
  decode [0x11030508, 0, 0x406B8000, 0, 0x3FF00000, 0, 0, 0, 0x3FF00000] =
    .command (.oscRender 3 5 8 0x406B800000000000 0x3FF0000000000000 0 0x3FF0000000000000) [] ∧
  decode [0x23010000, 0x40000100] = .command (.envNoteOff 1 0 0) [0x40000100] ∧
  decode [0x32000000, 0, 0x40140000] = .command (.filtProcess 0 0 0 0x4014000000000000) [] ∧
  decode [0x40000100] = .command (.lfoEnable 0 1 0) []

/-- R122: the worked encoding, from its assembly line to its nine words. -/
def Obligations.WorkedEncoding : Prop :=
  assemble ["osc.render osc3, b5, u8, 220.0, 1.0, 0, 1.0"] =
    some [0x11030508, 0x00000000, 0x406B8000, 0x00000000, 0x3FF00000, 0x00000000, 0x00000000, 0x00000000, 0x3FF00000]

/-! ### The step (R19, R31, R90, R114, R310-R313) -/

/-- R31, R90: where the command port's words decode to a command, the step is that command's meaning, on the state
whose port holds the words after the packet and whose position is one packet further. -/
def Obligations.StepRunsDecodedCommand : Prop :=
  ∀ (s : State) (i : Instr) (rest : List Word), decode s.cmdPort = .command i rest →
    step s = exec i { s with cmdPort := rest, position := s.position + 1 }

/-- The model's choice (log 7): while no whole packet has arrived, a step changes nothing. -/
def Obligations.StepWaits : Prop :=
  ∀ s : State, decode s.cmdPort = .incomplete → step s = .next s

/-- R31, R313: no packet stops the block. Each step takes one whole packet from the front of the port and advances the
position by one, or finds no whole packet and changes nothing; that it then waits is the model's choice (log 7). -/
def Obligations.EveryStepContinues : Prop :=
  ∀ s : State, ∃ t, step s = .next t ∧
    (decode s.cmdPort = .incomplete ∧ t = s ∨
      (decode s.cmdPort ≠ .incomplete ∧ t.position = s.position + 1 ∧
        ∃ h packet, s.cmdPort = h :: packet ++ t.cmdPort ∧ (h :: packet).length = packetLength (opcOf h)))

/-- R90: words behind a whole packet do not change what the packet does. -/
def Obligations.LaterWordsDoNotMatter : Prop :=
  ∀ (s t : State) (later : List Word), decode s.cmdPort ≠ .incomplete → step s = .next t →
    step { s with cmdPort := s.cmdPort ++ later } = .next { t with cmdPort := t.cmdPort ++ later }

/-- R114: one response packet per command: the status word, then the results when the status is OK, each as two words,
bits 31:0 first; none after a failure; as many results as Table E1 gives, 0 or 1. -/
def Obligations.OneResponsePerCommand : Prop :=
  (∀ (i : Instr) (s : State), ∃ t status, exec i s = .next t ∧
    (i.failure s.params = none → ∃ results : List U64, status = Status.ok ∧ results.length = i.resultCount ∧
      i.resultCount ≤ 1 ∧
      t.respPort = s.respPort ++ ((0 : BitVec 16) ++ i.opc ++ status.code) ::
        results.flatMap fun v => [v.extractLsb' 0 32, v.extractLsb' 32 32]) ∧
    (i.failure s.params ≠ none → i.failure s.params = some status ∧ status ≠ Status.ok ∧
      t.respPort = s.respPort ++ [(0 : BitVec 16) ++ i.opc ++ status.code])) ∧
  ∀ (s : State) (h : Word) (rest : List Word), decode s.cmdPort = .illegal h rest →
    ∃ t, step s = .next t ∧ t.respPort = s.respPort ++ [(0 : BitVec 16) ++ opcOf h ++ (1 : Byte)]

/-- R313: a failing command writes only the error registers and answers with the one status word; the first error is
kept, a further one sets OVERFLOW. The packet of an unassigned opcode fails so too, with its own bits 31:24. -/
def Obligations.FailingCommand : Prop :=
  (∀ (i : Instr) (s : State) (st : Status), i.failure s.params = some st →
    exec i s = .next { s with
      err := if s.err.valid then { s.err with overflow := true }
        else { code := st, valid := true, overflow := false, cmd := i.header }
      respPort := s.respPort ++ [(0 : BitVec 16) ++ i.opc ++ st.code] }) ∧
  ∀ (s : State) (h : Word) (rest : List Word), decode s.cmdPort = .illegal h rest →
    step s = .next { s with
      cmdPort := rest
      position := s.position + 1
      err := if s.err.valid then { s.err with overflow := true }
        else { code := .illegalOpcode, valid := true, overflow := false, cmd := h }
      respPort := s.respPort ++ [(0 : BitVec 16) ++ opcOf h ++ (1 : Byte)] }

/-- R310-R312: the status a command answers, by its number in Table X1: the first check that fails, in the order field,
instance, buffer, finite operands, index; 0 when none fails. -/
def Obligations.CheckOrder : Prop :=
  ∀ (i : Instr) (s : State), ∃ (t : State) (status : Byte) (results : List Word),
    exec i s = .next t ∧ t.respPort = s.respPort ++ ((0 : BitVec 16) ++ i.opc ++ status) :: results ∧
    (i.wellFormed = false → status = 2) ∧
    (i.wellFormed = true →
      ((∃ c, i.instanceCount s.params = some c ∧ c ≤ i.inst.toNat) → status = 3) ∧
      ((∀ c, i.instanceCount s.params = some c → i.inst.toNat < c) →
        ((∃ b, i.bufferField = some b ∧ s.params.numBuf ≤ b.toNat) → status = 4) ∧
        ((∀ b, i.bufferField = some b → b.toNat < s.params.numBuf) →
          ((∃ x ∈ i.realOperands, isNaN x = true ∨ isInf x = true) → status = 5) ∧
          ((∀ x ∈ i.realOperands, isNaN x = false ∧ isInf x = false) →
            ((∃ n, i.indexOperand = some n ∧ s.params.n ≤ n.toNat) → status = 6) ∧
            ((∀ n, i.indexOperand = some n → n.toNat < s.params.n) → status = 0)))))

/-- R2, R7, R31, R34, R251: no command changes the parameters, the number of units, the words still on the command port
or the position (the step moves those two). -/
def Obligations.WhatNoCommandChanges : Prop :=
  ∀ (i : Instr) (s t : State), s.Sized → exec i s = .next t →
    t.params = s.params ∧ t.Sized ∧ t.cmdPort = s.cmdPort ∧ t.position = s.position

/-! ### Core control (R250-R253, R340) -/

/-- R250, R119: NOP, with any fields, answers 0x00000000 and changes nothing else. -/
def Obligations.NopDoesNothing : Prop :=
  ∀ (inst fa fb : Byte) (s : State),
    exec (.nop inst fa fb) s = .next { s with respPort := s.respPort ++ [0x00000000] }

/-- R251, R340: CORE_RESET puts every unit, the error registers and every buffer word to its reset value, keeps the
parameters and the command port, and answers 0x00000100. -/
def Obligations.CoreResetResetsAll : Prop :=
  ∀ s : State, ∃ t : State,
    exec (.coreReset 0 0 0) s = .next t ∧
    t.err = { code := .ok, valid := false, overflow := false, cmd := 0 } ∧
    t.osc = List.replicate (2 * s.params.numVoices) { waveform := .sine, phase := c0, frequency := c0 } ∧
    t.env = List.replicate s.params.numVoices
      { stage := .release, finished := true, sampleIndex := 0, releaseStart := 0, envAtRelease := c0, prev := c0,
        attackSamples := 1, decaySamples := 1, sustainSamples := 1, releaseSamples := 1, sustainLevel := c0 } ∧
    t.filt = List.replicate s.params.numVoices
      { type := .lowpass, fallback := false, nonfinite := false, cutoff := c0, q := c0,
        tgt := { a0 := c1, a1 := c0, a2 := c0, b1 := c0, b2 := c0 },
        cur := { a0 := c1, a1 := c0, a2 := c0, b1 := c0, b2 := c0 }, z1 := c0, z2 := c0 } ∧
    t.lfo = { enabled := false, phase := c0, prev := c0 } ∧
    (∀ a, readWord t.mem a = 0x0000000000000000) ∧ t.params = s.params ∧ t.cmdPort = s.cmdPort ∧
    t.position = s.position ∧ t.respPort = s.respPort ++ [0x00000100]

/-- R252, R60, R61, R33-R57: REG_READ of each register of Table S1 answers its value and changes nothing; fb counts
through the class's registers in the table's order. -/
def Obligations.RegReadValues : Prop :=
  ∀ (s : State) (inst cls fb : Byte) (v : U64),
    (cls = 0 ∧ inst.toNat < 1 ∧
      [0x53594E5400000001, BitVec.ofNat 64 s.params.n, BitVec.ofNat 64 s.params.numVoices,
        BitVec.ofNat 64 s.params.numBuf,
        BitVec.ofNat 64 (s.err.code.code.toNat + (if s.err.valid then 256 else 0) + (if s.err.overflow then 512 else 0)),
        BitVec.ofNat 64 s.err.cmd.toNat, if s.params.unisonBasePhase = .advance then 1 else 0, s.params.envAlpha,
        s.params.filtSmoothK, s.params.lfoAlpha, s.params.softclipDrive][fb.toNat]? = some v ∨
     cls = 1 ∧ inst.toNat < 2 * s.params.numVoices ∧
      (let o := s.oscAt inst.toNat
       [match o.waveform with | .sine => 0 | .square => 1 | .saw => 2 | .triangle => 3, o.phase,
        o.frequency][fb.toNat]? = some v) ∨
     cls = 2 ∧ inst.toNat < s.params.numVoices ∧
      (let e := s.envAt inst.toNat
       [match e.stage with | .attack => 0 | .decay => 1 | .sustain => 2 | .release => 3,
        if e.finished then 1 else 0, e.sampleIndex, e.releaseStart, e.envAtRelease, e.prev, e.attackSamples,
        e.decaySamples, e.sustainSamples, e.releaseSamples, e.sustainLevel][fb.toNat]? = some v) ∨
     cls = 3 ∧ inst.toNat < s.params.numVoices ∧
      (let f := s.filtAt inst.toNat
       [match f.type with | .lowpass => 0 | .highpass => 1 | .bandpass => 2,
        (if f.fallback then 1 else 0) + (if f.nonfinite then 2 else 0), f.cutoff, f.q, f.tgt.a0, f.tgt.a1, f.tgt.a2,
        f.tgt.b1, f.tgt.b2, f.cur.a0, f.cur.a1, f.cur.a2, f.cur.b1, f.cur.b2, f.z1, f.z2][fb.toNat]? = some v) ∨
     cls = 4 ∧ inst.toNat < 1 ∧
      [if s.lfo.enabled then 1 else 0, s.lfo.phase, s.lfo.prev][fb.toNat]? = some v) →
    exec (.regRead inst cls fb) s = .next (s.answered 0x02 [v])

/-- R253: ERR_CLEAR sets ERR and ERR_CMD to 0, changes nothing else, and answers 0x00000300. -/
def Obligations.ErrClearClears : Prop :=
  ∀ s : State, exec (.errClear 0 0 0) s = .next
    { s with
      err := { code := .ok, valid := false, overflow := false, cmd := 0 }
      respPort := s.respPort ++ [0x00000300] }

/-! ### Buffer commands (R80-R88, R254-R258) -/

/-- R256, R82: BUF_WRITE stores the value, unchanged, in word n of buffer b; every other word and everything else is as
before. -/
def Obligations.BufWriteStores : Prop :=
  ∀ (b : Byte) (n : U64) (value : F64) (s : State),
    Memory.wf s.mem → b.toNat < s.params.numBuf → isFinite value = true → n.toNat < s.params.n →
    ∃ m : Memory, exec (.bufWrite 0 b 0 n value) s = .next (State.answered { s with mem := m } 0x08 []) ∧
      readWord m (wordAddr s.params.n b.toNat n.toNat) = value ∧
      ∀ a, a ≠ wordAddr s.params.n b.toNat n.toNat → readWord m a = readWord s.mem a

/-- R257: BUF_READ answers word n of buffer b and changes nothing. -/
def Obligations.BufReadAnswers : Prop :=
  ∀ (b : Byte) (n : U64) (s : State), b.toNat < s.params.numBuf → n.toNat < s.params.n →
    exec (.bufRead 0 b 0 n) s = .next (s.answered 0x09 [readWord s.mem (wordAddr s.params.n b.toNat n.toNat)])

/-- R258: BUF_CLEAR fills buffer b with +0.0; every other word and everything else is as before. -/
def Obligations.BufClearFills : Prop :=
  ∀ (b : Byte) (s : State), Memory.wf s.mem → b.toNat < s.params.numBuf →
    ∃ m : Memory, exec (.bufClear 0 b 0) s = .next (State.answered { s with mem := m } 0x0A []) ∧
      (∀ n, n < s.params.n → readWord m (wordAddr s.params.n b.toNat n) = 0x0000000000000000) ∧
      ∀ a, (∀ n, n < s.params.n → a ≠ wordAddr s.params.n b.toNat n) → readWord m a = readWord s.mem a

/-- Table M1 (R82), with CORE_RESET (R251) beside it: a command that is none of the table's leaves the buffer memory,
and does not read it; a table's command leaves every word outside the buffer it names. -/
def Obligations.BufferAccess : Prop :=
  ∀ (i : Instr) (s t : State), Memory.wf s.mem → exec i s = .next t →
    (i.bufferField = none → i.opc ≠ 0x01 →
      t.mem = s.mem ∧ ∀ m : Memory, exec i { s with mem := m } = .next { t with mem := m }) ∧
    (∀ b, i.bufferField = some b →
      ∀ a, (∀ n, n < s.params.n → a ≠ wordAddr s.params.n b.toNat n) → readWord t.mem a = readWord s.mem a)

/-! ### Oscillators (R140-R151) -/

/-- R140: OSC_INIT sets the waveform its FA names and zeroes PHASE and FREQUENCY. -/
def Obligations.OscInitStarts : Prop :=
  ∀ (inst fa : Byte) (w : Waveform) (s : State), inst.toNat < s.params.numOsc →
    (fa = 0 ∧ w = .sine ∨ fa = 1 ∧ w = .square ∨ fa = 2 ∧ w = .saw ∨ fa = 3 ∧ w = .triangle) →
    exec (.oscInit inst fa 0) s = .next
      (State.answered { s with osc := s.osc.set inst.toNat { waveform := w, phase := c0, frequency := c0 } } 0x10 [])

/-- R142, R144, R145: OSC_RENDER with a unison count of 0 or 1 writes vol * W(WAVEFORM, PHASE) word by word, from the
phase before its advance, wraps the phase, and sets FREQUENCY; every word outside the buffer is as before. -/
def Obligations.OscRenderSingle : Prop :=
  ∀ (inst b fb : Byte) (frequency volume : F64) (s0 : U64) (detune : F64) (s : State),
    Memory.wf s.mem → inst.toNat < s.params.numOsc → b.toNat < s.params.numBuf → fb.toNat ≤ 1 →
    isFinite frequency = true → isFinite volume = true → isFinite detune = true →
    let o := s.oscAt inst.toNat
    let f := fclamp frequency c0 NYQ
    let vol := fclamp volume c0 c1
    let inc := fdiv (fmul TWO_PI f) SR
    ∃ (ph : Nat → F64) (m : Memory),
      ph 0 = o.phase ∧
      (∀ k, ph (k + 1) = if fle TWO_PI (fadd (ph k) inc) then fsub (fadd (ph k) inc) TWO_PI else fadd (ph k) inc) ∧
      exec (.oscRender inst b fb frequency volume s0 detune) s = .next
        (State.answered
          { s with
            osc := s.osc.set inst.toNat { waveform := o.waveform, phase := ph s.params.n, frequency := f }
            mem := m } 0x11 []) ∧
      (∀ n, n < s.params.n →
        readWord m (wordAddr s.params.n b.toNat n) = fmul vol
          (match o.waveform with
            | .sine => fnSin (ph n)
            | .square => if fle c0 (fnSin (ph n)) then c1 else cNeg1
            | .saw => fsub (fdiv (ph n) PI) c1
            | .triangle => fsub (fmul c2 (fabs (fsub (fdiv (ph n) PI) c1))) c1)) ∧
      ∀ a, (∀ n, n < s.params.n → a ≠ wordAddr s.params.n b.toNat n) → readWord m a = readWord s.mem a

/-- R142, R147, R149-R151: OSC_RENDER with a unison count above 1 (clamped to 16) writes vol * (acc / U), acc the sum in
ascending k of the soft-clipped track values, each from the absolute sample index; PHASE advances or holds by
UNISON_BASE_PHASE. W is the waveform function of OscRenderSingle. -/
def Obligations.OscRenderUnison : Prop :=
  ∀ (inst b fb : Byte) (frequency volume : F64) (s0 : U64) (detune : F64) (s : State),
    Memory.wf s.mem → inst.toNat < s.params.numOsc → b.toNat < s.params.numBuf → 1 < fb.toNat →
    isFinite frequency = true → isFinite volume = true → isFinite detune = true →
    let o := s.oscAt inst.toNat
    let U := min fb.toNat 16
    let f := fclamp frequency c0 NYQ
    let vol := fclamp volume c0 c1
    let spread := fmul (fclamp detune c0 c1) c50
    let inc := fdiv (fmul TWO_PI f) SR
    ∃ (ph : Nat → F64) (cents fk inck phi : Nat → F64) (th acc : Nat → Nat → F64) (m : Memory),
      (∀ k, cents k = fmul spread (fsub (fdiv (fmul c2 (ffloat k)) (ffloat (U - 1))) c1) ∧
        fk k = fclamp (fmul f (fnExp2 (fdiv (cents k) c1200))) c20 UNI_FMAX ∧
        inck k = fdiv (fmul TWO_PI (fk k)) SR ∧ phi k = ffmod (fmul (ffloat k) PHI) TWO_PI) ∧
      (∀ k n, th k n = ffmod (fadd (phi k) (fmul (inck k) (ffloat (s0 + BitVec.ofNat 64 n).toNat))) TWO_PI) ∧
      (∀ n, acc n 0 = c0) ∧
      (∀ n k, acc n (k + 1) =
        fadd (acc n k) (fnTanh (fmul s.params.softclipDrive (waveValue o.waveform (th k n))))) ∧
      ph 0 = o.phase ∧
      (∀ k, ph (k + 1) =
        if s.params.unisonBasePhase = .hold then ph k
        else if fle TWO_PI (fadd (ph k) inc) then fsub (fadd (ph k) inc) TWO_PI else fadd (ph k) inc) ∧
      exec (.oscRender inst b fb frequency volume s0 detune) s = .next
        (State.answered
          { s with
            osc := s.osc.set inst.toNat { waveform := o.waveform, phase := ph s.params.n, frequency := f }
            mem := m } 0x11 []) ∧
      (∀ n, n < s.params.n →
        readWord m (wordAddr s.params.n b.toNat n) = fmul vol (fdiv (acc n U) (ffloat U))) ∧
      ∀ a, (∀ n, n < s.params.n → a ≠ wordAddr s.params.n b.toNat n) → readWord m a = readWord s.mem a

/-- R146: every word OSC_RENDER writes is finite and lies in [-1.0, 1.0]. -/
def Obligations.RenderedWordsInRange : Prop :=
  ∀ (inst b fb : Byte) (frequency volume : F64) (s0 : U64) (detune : F64) (s t : State),
    s.Good → (Instr.oscRender inst b fb frequency volume s0 detune).failure s.params = none →
    exec (.oscRender inst b fb frequency volume s0 detune) s = .next t →
    ∀ n, n < s.params.n →
      isFinite (readWord t.mem (wordAddr s.params.n b.toNat n)) = true ∧
      Within cNeg1 c1 (readWord t.mem (wordAddr s.params.n b.toNat n))

/-- R152: two consecutive renders at one frequency write exactly the words that one render of a buffer twice as long would
write, and leave the same PHASE; with a unison count above 1, when the second render's s0 is the first's s0 + N. -/
def Obligations.PhaseIsContinuous : Prop :=
  ∀ (inst b b' fb : Byte) (frequency volume : F64) (s0 s0' : U64) (detune : F64) (s : State) (m : Memory),
    s.Sized → Memory.wf s.mem → Memory.wf m → inst.toNat < s.params.numOsc → b.toNat < s.params.numBuf →
    b'.toNat < s.params.numBuf → isFinite frequency = true → isFinite volume = true → isFinite detune = true →
    (1 < fb.toNat → s0' = s0 + BitVec.ofNat 64 s.params.n) →
    ∃ t u w : State,
      exec (.oscRender inst b fb frequency volume s0 detune) s = .next t ∧
      exec (.oscRender inst b' fb frequency volume s0' detune) t = .next u ∧
      exec (.oscRender inst b fb frequency volume s0 detune)
        { s with params := { s.params with n := 2 * s.params.n }, mem := m } = .next w ∧
      u.oscAt inst.toNat = w.oscAt inst.toNat ∧
      ∀ n, n < s.params.n →
        readWord t.mem (wordAddr s.params.n b.toNat n) = readWord w.mem (wordAddr (2 * s.params.n) b.toNat n) ∧
        readWord u.mem (wordAddr s.params.n b'.toNat n) =
          readWord w.mem (wordAddr (2 * s.params.n) b.toNat (s.params.n + n))

/-- R147, R148: whatever the base frequency and detune after R142's clamps, every track frequency lies in [20.0, 19845.0],
and a base frequency of 0.0 gives every track 20.0 Hz. -/
def Obligations.TrackFrequencies : Prop :=
  ∀ (f det : F64) (count k : Nat), Within c0 NYQ f → Within c0 c1 det → 2 ≤ count → count ≤ 16 → k < count →
    Within c20 0x40D3614000000000 (trackFrequency f det count k) ∧
      (feq f c0 = true → trackFrequency f det count k = c20)

/-! ### Envelopes (R170-R182) -/

/-- R170: ENV_INIT starts the envelope for a new note; cnt(ms) is max(1, floor(clamp(ms) * 44100.0 / 1000.0)). -/
def Obligations.EnvInitStarts : Prop :=
  ∀ (inst : Byte) (attackMs decayMs sustainLevel releaseMs sustainMs : F64) (s : State),
    inst.toNat < s.params.numEnv →
    (∀ x ∈ [attackMs, decayMs, sustainLevel, releaseMs, sustainMs], isFinite x = true) →
    let cnt := fun ms : F64 =>
      BitVec.ofNat 64 (max 1 (ffloor (fdiv (fmul (fclamp ms c0 0x412E848000000000) 0x40E5888000000000) c1000)))
    exec (.envInit inst 0 0 attackMs decayMs sustainLevel releaseMs sustainMs) s = .next
      (State.answered
        { s with
          env := s.env.set inst.toNat
            { stage := .attack, finished := false, sampleIndex := 0, releaseStart := 0, envAtRelease := c0, prev := c0,
              attackSamples := cnt attackMs, decaySamples := cnt decayMs, sustainSamples := cnt sustainMs,
              releaseSamples := cnt releaseMs, sustainLevel := fclamp sustainLevel c0 c1 } } 0x20 [])

/-- R171-R175: ENV_STEP makes one sample: the stage it is in after the forward transitions, the raw value of that stage,
FINISHED when the release is over, the smoothed gain kept in PREV and answered, SAMPLE_INDEX one further. That the raw value
follows the elapsed count of R172 also where it has wrapped past 2^64 after the finishing sample, against the words "every
later step" of R175, is the model's reading (log 31). -/
def Obligations.EnvStepSamples : Prop :=
  ∀ (inst : Byte) (s : State), inst.toNat < s.params.numEnv →
    let e := s.envAt inst.toNat
    let alpha := s.params.envAlpha
    let j := e.sampleIndex - e.attackSamples
    let el := e.sampleIndex - e.releaseStart
    let pastAttack := e.stage = .attack ∧ e.attackSamples.toNat ≤ e.sampleIndex.toNat ∨ e.stage = .decay
    ∃ (stage : Stage) (raw : F64) (finished : Bool),
      (e.stage = .attack → e.sampleIndex.toNat < e.attackSamples.toNat →
        stage = .attack ∧ raw = fdiv (ffloat e.sampleIndex.toNat) (ffloat e.attackSamples.toNat) ∧
          finished = e.finished) ∧
      (pastAttack → j.toNat < e.decaySamples.toNat →
        stage = .decay ∧
          raw = fsub c1 (fmul (fsub c1 e.sustainLevel) (fdiv (ffloat j.toNat) (ffloat e.decaySamples.toNat))) ∧
          finished = e.finished) ∧
      (pastAttack ∧ e.decaySamples.toNat ≤ j.toNat ∨ e.stage = .sustain →
        stage = .sustain ∧ raw = e.sustainLevel ∧ finished = e.finished) ∧
      (e.stage = .release → el.toNat < e.releaseSamples.toNat →
        stage = .release ∧
          raw = fmul e.envAtRelease
            (fnExp (fmul 0xC014000000000000 (fdiv (ffloat el.toNat) (ffloat e.releaseSamples.toNat)))) ∧
          finished = e.finished) ∧
      (e.stage = .release → e.releaseSamples.toNat ≤ el.toNat → stage = .release ∧ raw = c0 ∧ finished = true) ∧
      let g := fadd (fmul e.prev alpha) (fmul raw (fsub c1 alpha))
      exec (.envStep inst 0 0) s = .next
        (State.answered
          { s with
            env := s.env.set inst.toNat
              { e with stage := stage, finished := finished, prev := g, sampleIndex := e.sampleIndex + 1 } } 0x21 [g])

/-- R182: ENV_APPLY is exactly N ENV_STEPs, e k the envelope before step k and g k its answer, each gain scaling its word;
every word outside the buffer is as before. -/
def Obligations.EnvApplyIsSteps : Prop :=
  ∀ (inst b : Byte) (s : State), Memory.wf s.mem → inst.toNat < s.params.numEnv → b.toNat < s.params.numBuf →
    ∃ (e : Nat → Env) (g : Nat → F64) (m : Memory),
      e 0 = s.envAt inst.toNat ∧
      (∀ (k : Nat) (u : State), u.params = s.params → u.envAt inst.toNat = e k →
        exec (.envStep inst 0 0) u = .next (State.answered { u with env := u.env.set inst.toNat (e (k + 1)) } 0x21 [g k])) ∧
      exec (.envApply inst b 0) s = .next
        (State.answered { s with env := s.env.set inst.toNat (e s.params.n), mem := m } 0x22 []) ∧
      (∀ n, n < s.params.n → readWord m (wordAddr s.params.n b.toNat n) =
        fmul (readWord s.mem (wordAddr s.params.n b.toNat n)) (g n)) ∧
      ∀ a, (∀ n, n < s.params.n → a ≠ wordAddr s.params.n b.toNat n) → readWord m a = readWord s.mem a

/-- R180: ENV_NOTE_OFF enters RELEASE from any other stage, records the index and the smoothed value, and on an envelope
already in RELEASE changes nothing (R181). -/
def Obligations.EnvNoteOffReleases : Prop :=
  ∀ (inst : Byte) (s : State), s.Sized → inst.toNat < s.params.numEnv →
    let e := s.envAt inst.toNat
    (e.stage ≠ .release →
      exec (.envNoteOff inst 0 0) s = .next
        (State.answered
          { s with
            env := s.env.set inst.toNat
              { e with stage := .release, releaseStart := e.sampleIndex, envAtRelease := e.prev } } 0x23 [])) ∧
    (e.stage = .release → exec (.envNoteOff inst 0 0) s = .next (s.answered 0x23 []))

/-- R181: after an ENV_NOTE_OFF, a second one on the same envelope changes no state, however many steps and words from the
host lie between, as long as no ENV_INIT of that envelope is performed. -/
def Obligations.SecondNoteOffChangesNothing : Prop :=
  ∀ (inst : Byte) (s : State) (trace : Nat → State) (n : Nat), s.Sized → inst.toNat < s.params.numEnv →
    exec (.envNoteOff inst 0 0) s = .next (trace 0) →
    (∀ k, k < n →
      (step (trace k) = .next (trace (k + 1)) ∧
        ∀ i rest, decode (trace k).cmdPort = .command i rest →
          ¬(i.opc = 0x20 ∧ i.inst = inst ∧ i.failure (trace k).params = none)) ∨
      ∃ ws, trace (k + 1) = { trace k with cmdPort := (trace k).cmdPort ++ ws }) →
    exec (.envNoteOff inst 0 0) (trace n) = .next ((trace n).answered 0x23 [])

/-- R178 (a), R341: an envelope at rest, as after reset, answers +0.0 at every ENV_STEP and stays at rest.
R175, R178 (e): from the finishing sample on, the gain is PREV * ENV_ALPHA and never above PREV, and FINISHED is 1. This
clause is about an elapsed count that has reached RELEASE_SAMPLES and has not wrapped past 2^64: what R172 gives after the
wrap is log 31's. -/
def Obligations.IdleEnvelopeAnswersZero : Prop :=
  ∀ (inst : Byte) (s : State), LegalParams s.params → inst.toNat < s.params.numEnv →
    let e := s.envAt inst.toNat
    (e.stage = .release → e.finished = true → e.envAtRelease = c0 → e.prev = c0 →
      exec (.envStep inst 0 0) s = .next
        (State.answered
          { s with env := s.env.set inst.toNat { e with sampleIndex := e.sampleIndex + 1 } } 0x21 [0x0000000000000000])) ∧
    (e.stage = .release → e.releaseSamples.toNat ≤ (e.sampleIndex - e.releaseStart).toNat → Within c0 c1 e.prev →
      ∃ g : F64, feq g (fmul e.prev s.params.envAlpha) = true ∧ fle g e.prev = true ∧
        exec (.envStep inst 0 0) s = .next
          (State.answered
            { s with
              env := s.env.set inst.toNat { e with finished := true, prev := g, sampleIndex := e.sampleIndex + 1 } }
            0x21 [g]))

/-- R41: over every step that performs no ENV_INIT of this envelope, its STAGE never decreases and RELEASE is never left;
no step but a CORE_RESET, which puts every envelope into RELEASE, enters it except by this envelope's ENV_NOTE_OFF. -/
def Obligations.StageOnlyAdvances : Prop :=
  ∀ (s t : State) (k : Nat), step s = .next t →
    (∀ i rest, decode s.cmdPort = .command i rest →
      ¬(i.opc = 0x20 ∧ i.inst.toNat = k ∧ i.failure s.params = none)) →
    (s.envAt k).stage.number.toNat ≤ (t.envAt k).stage.number.toNat ∧
    ((s.envAt k).stage = .release → (t.envAt k).stage = .release) ∧
    ((∀ inst fa fb rest, decode s.cmdPort ≠ .command (.coreReset inst fa fb) rest) →
      (s.envAt k).stage ≠ .release → (t.envAt k).stage = .release →
      ∃ inst fa fb rest, decode s.cmdPort = .command (.envNoteOff inst fa fb) rest ∧ inst.toNat = k)

/-- R43, R175: FINISHED is cleared only by ENV_INIT, and set only by reset or by a sample step in RELEASE whose elapsed count
has reached RELEASE_SAMPLES: the one of ENV_STEP, or one of the N of ENV_APPLY, the n-th at SAMPLE_INDEX + n. -/
def Obligations.FinishedFlag : Prop :=
  ∀ (i : Instr) (s t : State) (k : Nat), exec i s = .next t →
    let e := s.envAt k
    let elapsed := fun n : Nat => e.sampleIndex + BitVec.ofNat 64 n - e.releaseStart
    (e.finished = true → (t.envAt k).finished = false → i.opc = 0x20 ∧ i.inst.toNat = k) ∧
    (e.finished = false → (t.envAt k).finished = true →
      i.opc = 0x01 ∨
      (i.inst.toNat = k ∧ e.stage = .release ∧
        (i.opc = 0x21 ∧ e.releaseSamples.toNat ≤ (elapsed 0).toNat ∨
         i.opc = 0x22 ∧ ∃ n, n < s.params.n ∧ e.releaseSamples.toNat ≤ (elapsed n).toNat)))

/-- R177: every gain ENV_STEP answers, and so PREV, lies in [0.0, 1.0]. -/
def Obligations.GainsInRange : Prop :=
  ∀ (inst : Byte) (s : State), s.Good → inst.toNat < s.params.numEnv →
    ∃ (g : F64) (t : State), exec (.envStep inst 0 0) s = .next t ∧ t.respPort = s.respPort ++ okWords 0x21 [g] ∧
      Within c0 c1 g ∧ (t.envAt inst.toNat).prev = g ∧ Within c0 c1 (t.envAt inst.toNat).envAtRelease

/-! ### Filters (R200-R211) -/

/-- R200-R203: FILT_UPDATE computes the target from the clamped cutoff and Q, falls back to the identity where the
stability test fails, and touches neither CUR, the taps nor NONFINITE. -/
def Obligations.FiltUpdateDesigns : Prop :=
  ∀ (inst fa : Byte) (t : FiltType) (cutoff qIn : F64) (s : State), inst.toNat < s.params.numFilt →
    (fa = 0 ∧ t = .lowpass ∨ fa = 1 ∧ t = .highpass ∨ fa = 2 ∧ t = .bandpass) →
    isFinite cutoff = true → isFinite qIn = true →
    let fc := fclamp cutoff c20 c20000
    let q := fclamp qIn c0p1 c10
    let w0 := fdiv (fmul TWO_PI fc) SR
    let cs := fnCos w0
    let al := fdiv (fnSin w0) (fmul c2 q)
    let nrm := fdiv c1 (fadd c1 al)
    let a0 := match t with
      | .lowpass => fmul (fdiv (fsub c1 cs) c2) nrm
      | .highpass => fmul (fdiv (fadd c1 cs) c2) nrm
      | .bandpass => fmul al nrm
    let a1 := match t with
      | .lowpass => fmul (fsub c1 cs) nrm
      | .highpass => fmul (fneg (fadd c1 cs)) nrm
      | .bandpass => c0
    let a2 := match t with
      | .lowpass => a0
      | .highpass => a0
      | .bandpass => fmul (fneg al) nrm
    let b1 := fmul (fmul 0xC000000000000000 cs) nrm
    let b2 := fmul (fsub c1 al) nrm
    let stable := fle (fabs b1) c2 && fle (fabs b2) c1
    exec (.filtUpdate inst fa 0 cutoff qIn) s = .next
      (State.answered
        { s with
          filt := s.filt.set inst.toNat
            { s.filtAt inst.toNat with
              type := t
              cutoff := fc
              q := q
              tgt := if stable then { a0 := a0, a1 := a1, a2 := a2, b1 := b1, b2 := b2 }
                else { a0 := c1, a1 := c0, a2 := c0, b1 := c0, b2 := c0 }
              fallback := !stable } } 0x30 [])

/-- R205: FILT_RESET zeroes the taps, snaps CUR to TGT and clears NONFINITE, FALLBACK unchanged. -/
def Obligations.FiltResetSnaps : Prop :=
  ∀ (inst : Byte) (s : State), inst.toNat < s.params.numFilt →
    let f := s.filtAt inst.toNat
    exec (.filtReset inst 0 0) s = .next
      (State.answered
        { s with filt := s.filt.set inst.toNat { f with z1 := c0, z2 := c0, cur := f.tgt, nonfinite := false } } 0x31 [])

/-- R206, R207: FILT_PROCESS nudges the five coefficients, filters x in transposed direct form II and answers y clamped;
a non-finite value zeroes the taps, sets NONFINITE and answers 0.0, the nudge staying. -/
def Obligations.FiltProcessSamples : Prop :=
  ∀ (inst : Byte) (x : F64) (s : State), inst.toNat < s.params.numFilt → isFinite x = true →
    let f := s.filtAt inst.toNat
    let nudged := fun cur tgt : F64 => fadd cur (fmul s.params.filtSmoothK (fsub tgt cur))
    let cur : Coeffs :=
      { a0 := nudged f.cur.a0 f.tgt.a0, a1 := nudged f.cur.a1 f.tgt.a1, a2 := nudged f.cur.a2 f.tgt.a2,
        b1 := nudged f.cur.b1 f.tgt.b1, b2 := nudged f.cur.b2 f.tgt.b2 }
    let y := fadd (fmul cur.a0 x) f.z1
    let nz1 := fadd (fsub (fmul cur.a1 x) (fmul cur.b1 y)) f.z2
    let nz2 := fsub (fmul cur.a2 x) (fmul cur.b2 y)
    (isFinite y = true ∧ isFinite nz1 = true ∧ isFinite nz2 = true →
      exec (.filtProcess inst 0 0 x) s = .next
        (State.answered { s with filt := s.filt.set inst.toNat { f with cur := cur, z1 := nz1, z2 := nz2 } } 0x32
          [fclamp y cNeg1 c1])) ∧
    (¬(isFinite y = true ∧ isFinite nz1 = true ∧ isFinite nz2 = true) →
      exec (.filtProcess inst 0 0 x) s = .next
        (State.answered
          { s with filt := s.filt.set inst.toNat { f with cur := cur, z1 := c0, z2 := c0, nonfinite := true } } 0x32
          [c0]))

/-- R210: FILT_APPLY is exactly N FILT_PROCESS steps in ascending n, f k the filter before step k; every word outside the
buffer is as before. -/
def Obligations.FiltApplyIsSteps : Prop :=
  ∀ (inst b : Byte) (s : State), Memory.wf s.mem → Memory.finite s.mem → inst.toNat < s.params.numFilt →
    b.toNat < s.params.numBuf →
    ∃ (f : Nat → Filt) (y : Nat → F64) (m : Memory),
      f 0 = s.filtAt inst.toNat ∧
      (∀ (k : Nat) (u : State), k < s.params.n → u.params = s.params → u.filtAt inst.toNat = f k →
        exec (.filtProcess inst 0 0 (readWord s.mem (wordAddr s.params.n b.toNat k))) u = .next
          (State.answered { u with filt := u.filt.set inst.toNat (f (k + 1)) } 0x32 [y k])) ∧
      exec (.filtApply inst b 0) s = .next
        (State.answered { s with filt := s.filt.set inst.toNat (f s.params.n), mem := m } 0x33 []) ∧
      (∀ n, n < s.params.n → readWord m (wordAddr s.params.n b.toNat n) = y n) ∧
      ∀ a, (∀ n, n < s.params.n → a ≠ wordAddr s.params.n b.toNat n) → readWord m a = readWord s.mem a

/-- R209: for every finite input, any coefficients and any state, the answer of FILT_PROCESS is finite and lies in
[-1.0, 1.0], and the taps it leaves are finite. -/
def Obligations.FilteredSamplesInRange : Prop :=
  ∀ (inst : Byte) (x : F64) (s : State), inst.toNat < s.params.numFilt → isFinite x = true →
    ∃ (y : F64) (f : Filt),
      exec (.filtProcess inst 0 0 x) s = .next
        (State.answered { s with filt := s.filt.set inst.toNat f } 0x32 [y]) ∧
      isFinite y = true ∧ Within cNeg1 c1 y ∧ isFinite f.z1 = true ∧ isFinite f.z2 = true

/-- R211 (a), R341: a filter at reset passes its input, clamped, and its coefficients and taps stay at their reset
values, the answer and the taps up to the sign of a zero (log 21); so every later FILT step answers so too. -/
def Obligations.ResetFilterPasses : Prop :=
  ∀ (inst : Byte) (x : F64) (s : State), LegalParams s.params → inst.toNat < s.params.numFilt → isFinite x = true →
    (s.filtAt inst.toNat).cur = Coeffs.identity → (s.filtAt inst.toNat).tgt = Coeffs.identity →
    feq (s.filtAt inst.toNat).z1 c0 = true → feq (s.filtAt inst.toNat).z2 c0 = true →
    ∃ y z1 z2 : F64,
      exec (.filtProcess inst 0 0 x) s = .next
        (State.answered { s with filt := s.filt.set inst.toNat { s.filtAt inst.toNat with z1 := z1, z2 := z2 } } 0x32
          [y]) ∧
      feq y (fclamp x cNeg1 c1) = true ∧ feq z1 c0 = true ∧ feq z2 c0 = true

/-! ### The LFO (R230-R233) -/

/-- R230: LFO_ENABLE resets phase and memory exactly when it changes ENABLED. -/
def Obligations.LfoEnableSets : Prop :=
  ∀ (fa : Byte) (en : Bool) (s : State), (fa = 0 ∧ en = false ∨ fa = 1 ∧ en = true) →
    (en ≠ s.lfo.enabled →
      exec (.lfoEnable 0 fa 0) s = .next
        (State.answered { s with lfo := { enabled := en, phase := c0, prev := c0 } } 0x40 [])) ∧
    (en = s.lfo.enabled → exec (.lfoEnable 0 fa 0) s = .next (s.answered 0x40 []))

/-- R231, R232: a disabled LFO_STEP answers +0.0 and changes nothing; an enabled one smooths the sine at the phase before
its advance, keeps and answers it, and advances the phase. -/
def Obligations.LfoStepSamples : Prop :=
  ∀ (rate depth : F64) (s : State), isFinite rate = true → isFinite depth = true →
    (s.lfo.enabled = false → exec (.lfoStep 0 0 0 rate depth) s = .next (s.answered 0x41 [0x0000000000000000])) ∧
    (s.lfo.enabled = true →
      let inc := fdiv (fmul TWO_PI (fclamp rate c0 c10)) SR
      let raw := fmul (fmul (fnSin s.lfo.phase) (fclamp depth c0 c100)) c0p25
      let v := fadd (fmul s.lfo.prev s.params.lfoAlpha) (fmul raw (fsub c1 s.params.lfoAlpha))
      let p := fadd s.lfo.phase inc
      exec (.lfoStep 0 0 0 rate depth) s = .next
        (State.answered
          { s with lfo := { enabled := true, phase := if fle TWO_PI p then fsub p TWO_PI else p, prev := v } } 0x41 [v]))

/-- R233 says the smoothed value lies in [-25.0, 25.0]. In binary64 the smoothing of R232 can pass 25.0 by one rounding,
so this fails (log 16); what holds in its place is the bound 25 + 2^-47 of `Lfo.Good`. -/
def Obligations.SmoothingStaysWithin25 : Prop :=
  ∀ alpha prev raw : F64, flt c0 alpha = true → flt alpha c1 = true →
    Within 0xC039000000000000 0x4039000000000000 prev → Within 0xC039000000000000 0x4039000000000000 raw →
    Within 0xC039000000000000 0x4039000000000000 (fadd (fmul prev alpha) (fmul raw (fsub c1 alpha)))

/-- R121: the two commands of `lfo.restart` leave the LFO enabled with phase and memory +0.0, whatever it was. -/
def Obligations.LfoRestartRestarts : Prop :=
  assembleLine "lfo.restart".toList = some [.lfoEnable 0 0 0, .lfoEnable 0 1 0] ∧
  ∀ s : State, ∃ t,
    exec (.lfoEnable 0 0 0) s = .next t ∧
    exec (.lfoEnable 0 1 0) t = .next
      { s with
        lfo := { enabled := true, phase := c0, prev := c0 }
        respPort := s.respPort ++ [0x00004000, 0x00004000] }

/-! ### Whole-machine rules -/

/-- Every step from a good state leaves a good state: the parameters legal, every unit there, the memory canonical, inside
the map and finite (R83), phases in [0, TWO_PI) (R38, R57), counts and gains in range (R46, R47, R177), FINISHED only in
RELEASE (R43), the filter target stable (R53) and its taps finite (R209), an error recorded exactly when VALID (R35).
The bound of the LFO's PREV, 25 + 2^-47 in magnitude, is the model's (log 16). -/
def Obligations.StepKeepsGood : Prop :=
  ∀ s t : State, s.Good → step s = .next t → t.Good

/-- The power-on state of every block with legal parameters is good (R340). -/
def Obligations.PowerOnIsGood : Prop :=
  (∀ p : Params, LegalParams p → (State.powerOn p).Good) ∧ State.reset.Good

/-- R83, R58: however a block with legal parameters came to be where it is, whatever words the host put on the command port
(log 6), every buffer word is finite. -/
def Obligations.BufferWordsStayFinite : Prop :=
  ∀ (p : Params) (s : State), LegalParams p → Run (State.powerOn p) s →
    s.params = p ∧ ∀ b n, b < p.numBuf → n < p.n → isFinite (s.memRead b n) = true

/-- R2: no command of one unit writes another unit's state: a unit changes only by a command of its own class, the high
nibble of OPC (R115), whose INST is its index, or by CORE_RESET. -/
def Obligations.UnitsAreNotWrittenByOthers : Prop :=
  ∀ (i : Instr) (s t : State) (k : Nat), exec i s = .next t → i.opc ≠ 0x01 →
    (¬(i.opc.toNat / 16 = 1 ∧ i.inst.toNat = k) → t.oscAt k = s.oscAt k) ∧
    (¬(i.opc.toNat / 16 = 2 ∧ i.inst.toNat = k) → t.envAt k = s.envAt k) ∧
    (¬(i.opc.toNat / 16 = 3 ∧ i.inst.toNat = k) → t.filtAt k = s.filtAt k) ∧
    (¬(i.opc.toNat / 16 = 4 ∧ i.inst.toNat = 0) → t.lfo = s.lfo)

/-- R2: no command of one unit reads another unit's state: on two states that agree on the parameters, the buffer memory
and the unit a unit command names, the command leaves the same unit, the same memory, and answers the same words. -/
def Obligations.UnitsAreNotReadByOthers : Prop :=
  ∀ (i : Instr) (s s' t t' : State), 1 ≤ i.opc.toNat / 16 → s.Sized → s'.Sized →
    s.params = s'.params → s.mem = s'.mem →
    (i.opc.toNat / 16 = 1 → s.oscAt i.inst.toNat = s'.oscAt i.inst.toNat) →
    (i.opc.toNat / 16 = 2 → s.envAt i.inst.toNat = s'.envAt i.inst.toNat) →
    (i.opc.toNat / 16 = 3 → s.filtAt i.inst.toNat = s'.filtAt i.inst.toNat) →
    (i.opc.toNat / 16 = 4 → s.lfo = s'.lfo) →
    exec i s = .next t → exec i s' = .next t' →
    t.mem = t'.mem ∧ t.respPort.drop s.respPort.length = t'.respPort.drop s'.respPort.length ∧
    (i.opc.toNat / 16 = 1 → t.oscAt i.inst.toNat = t'.oscAt i.inst.toNat) ∧
    (i.opc.toNat / 16 = 2 → t.envAt i.inst.toNat = t'.envAt i.inst.toNat) ∧
    (i.opc.toNat / 16 = 3 → t.filtAt i.inst.toNat = t'.filtAt i.inst.toNat) ∧
    (i.opc.toNat / 16 = 4 → t.lfo = t'.lfo)

/-- R86: these commands, repeated at once, give the same state: the second changes nothing but the response port. -/
def Obligations.RepeatedCommands : Prop :=
  ∀ (i : Instr) (s t u : State), Memory.wf s.mem → i.failure s.params = none →
    i.opc ∈ [0x00, 0x01, 0x02, 0x03, 0x08, 0x09, 0x0A, 0x10, 0x20, 0x23, 0x30, 0x31, 0x40] →
    exec i s = .next t → exec i t = .next u → u = { t with respPort := u.respPort }

/-! ### The host contract (46_host_contract.md) -/

/-- R291: an idle voice bank mixes to exact silence, 2N zero bytes, and sends the block nothing. -/
def Obligations.IdleBankIsSilent : Prop :=
  ∀ (h : HostParams) (now : Nat) (p : Snapshot) (l : Link),
    mixVoices h now p l (Bank.empty l.known) = (l, Bank.empty l.known, List.replicate (2 * l.known.n) 0)

/-- R286, R291: a sum of samples is clamped to the 16-bit range, never wrapped, and its two bytes, low byte first, are
that sample's two's complement. -/
def Obligations.PcmClampsNeverWraps : Prop :=
  ∀ x : Int, -32768 ≤ clampPcm x ∧ clampPcm x ≤ 32767 ∧ (-32768 ≤ x ∧ x ≤ 32767 → clampPcm x = x) ∧
    (32767 < x → clampPcm x = 32767) ∧ (x < -32768 → clampPcm x = -32768) ∧
    ∃ lo hi : Byte, pcmBytes (clampPcm x) = [lo, hi] ∧ (hi ++ lo : BitVec 16).toInt = clampPcm x

/-- R288, R289: after a note-on at a frequency for which a slot was taken, exactly one voice is reachable at that
frequency, the new one, however many were before. That it is so too where the creation commands are refused, or the host
fails before the last of them, is the model's choice: such a voice keeps its slot and its map entry (log 30), and a note
event that was begun counts as taken (log 26). -/
def Obligations.NoteOnLeavesOneVoice : Prop :=
  ∀ (h : HostParams) (now : Nat) (p : Snapshot) (frequency : F64) (l : Link) (b : Bank) (v : Nat),
    isFinite frequency = true → (b.untrack frequency).takeSlot h.policy = some v →
    ((noteOn h now p frequency l b).2.owner.filter fun e => feq e.1 frequency) = [(frequency, v)] ∧
      (noteOn h now p frequency l b).2.lookup frequency = some v

/-- R343, R33, R34: the reference host's bring-up resets the block by `core.reset` and learns ID and all parameters by
nine `reg.read`s, ten packets in all. That the words waiting on the command port before it are dropped (`cmdPort := []`) is
the model's choice (log 29): R343 says nothing of them, and at power-on there are none (R342). -/
def Obligations.BringUpLearnsTheBlock : Prop :=
  ∀ s : State, LegalParams s.params →
    bringUp s = some (0x53594E5400000001,
      { block := { s.resetAll with cmdPort := [], position := s.position + 10 }
        known := s.params
        failed := false
        budget := none })

/-- R295-R298: Stopped is never left; from Idle only `start` leads on, with the sink open in its one format, or answers
Unsupported-device where the device has not that format; the turn after `stop` writes N zero samples, releases the sink and
leaves all else; a stopped Mixer can be destroyed. The buffer of a tick that fails, by the host's own failure or, of the
refused commands of R297, by an LFO_STEP whose rate is not finite, is N zero samples, and the failure is logged. Other
refused commands are not covered.
The model's choices it rests on: the deadline in sample periods, N after `start` (log 20); what "otherwise" means and a
failure logged as the time `now` (log 26); a snapshot rate that is not finite sent as it stands, one snapshot per tick, and
the device as a list of formats, the last silence to the sink alone (log 28); a command port on which nothing waits (log 29);
one `now` for a whole turn (log 30). -/
def Obligations.MixerLifecycle : Prop :=
  ∀ (h : HostParams) (y : Synth),
    (∀ a, y.mixer = .stopped → (y.act h a).mixer = .stopped) ∧
    (∀ a, y.mixer = .idle → (y.act h a).mixer ≠ .idle → ∃ now device, a = .start now device) ∧
    (∀ now device, y.mixer = .idle →
      let format : SinkFormat :=
        { sampleRate := 44100, bits := 16, signed := true, channels := 1, littleEndian := true }
      (format ∉ device → y.start now device = .error .unsupportedDevice) ∧
      (format ∈ device →
        y.start now device = .ok
          { y with
            mixer := .running
            running := true
            deadline := now + y.link.known.n
            sink := some { format := format, isOpen := true, written := [] } })) ∧
    (∀ now fails p k, y.mixer = .running → y.sink = some k → k.isOpen = true →
      y.stop.turn h now fails p =
        { y with
          mixer := .stopped
          running := false
          sink := some { k with isOpen := false, written := k.written ++ [List.replicate (2 * y.link.known.n) 0] } }) ∧
    (y.mixer = .stopped → y.destroy = none) ∧
    ∀ now fails p, fails ≠ none ∨ isFinite p.lfoRate = false →
      (y.tick h now fails p).2 = List.replicate (2 * y.link.known.n) 0 ∧
      (y.tick h now fails p).1.failures = y.failures ++ [now]
end

