-- ==== Sys2Proof/Laws/Binary64.lean ====
section
/-!
SUPPORT. What the binary64 operations of R12 do, said once: the order is the order of the values, an exact result
bounded by a binary64 value rounds to a result bounded by that value, and a NaN result is a NaN. Range claims cite
these and reason about rational numbers; none unfolds the rounding.
-/

namespace Sys2Proof.Machine

/-- The exponent part of a magnitude encoding: its value is `mantissa * 2 ^ scale` units. -/
def magScale (bits : Nat) : Nat := bits / 0x10000000000000 - 1

/-- The mantissa of a magnitude encoding. -/
def magMantissa (bits : Nat) : Nat :=
  if bits < 0x10000000000000 then bits else 0x10000000000000 + bits % 0x10000000000000

theorem magUnits_eq (b : Nat) : magUnits b = magMantissa b * 2 ^ magScale b := by
  unfold magUnits magMantissa magScale
  split
  · rename_i h
    have : b / 0x10000000000000 = 0 := Nat.div_eq_of_lt h
    simp [this]
  · rw [Nat.shiftLeft_eq]

theorem mag_split (b : Nat) : b = magScale b * 0x10000000000000 + magMantissa b := by
  unfold magMantissa magScale
  split <;> omega

theorem magMantissa_lt (b : Nat) : magMantissa b < 2 * 0x10000000000000 := by
  unfold magMantissa
  split <;> omega

theorem le_magMantissa {b : Nat} (h : 0 < magScale b) : 0x10000000000000 ≤ magMantissa b := by
  unfold magMantissa magScale at *
  split <;> omega

theorem roundHalfEven_le {num den k : Nat} (hd : 0 < den) (h : num ≤ k * den) : roundHalfEven num den ≤ k := by
  unfold roundHalfEven
  have hdm := Nat.div_add_mod num den
  have hm := Nat.mod_lt num hd
  have hle : num / den ≤ k := Nat.div_le_of_le_mul (by rw [Nat.mul_comm]; exact h)
  rcases Nat.lt_or_ge (num / den) k with hlt | hge
  · dsimp only
    split
    · omega
    · split
      · omega
      · have := Nat.mod_lt (num / den) (by omega : 0 < 2)
        omega
  · have hk : num / den = k := by omega
    have : num % den = 0 := by
      have : den * k = k * den := Nat.mul_comm _ _
      rw [hk] at hdm
      omega
    simp [this, hd, hk]

theorem le_roundHalfEven {num den k : Nat} (hd : 0 < den) (h : k * den ≤ num) : k ≤ roundHalfEven num den := by
  have hle : k ≤ num / den := (Nat.le_div_iff_mul_le hd).2 h
  unfold roundHalfEven
  dsimp only
  split
  · omega
  · split <;> omega

theorem scale_spec (q : Nat) : q < 2 ^ (53 + (q.log2 - 52)) ∧ (0 < q.log2 - 52 → 2 ^ (52 + (q.log2 - 52)) ≤ q) := by
  constructor
  · rcases Nat.eq_zero_or_pos q with rfl | hq
    · exact Nat.two_pow_pos _
    · have h1 : q < 2 ^ (q.log2 + 1) := Nat.lt_log2_self
      exact lt_of_lt_of_le h1 (Nat.pow_le_pow_right (by omega) (by omega))
  · intro h
    have hq : q ≠ 0 := by rintro rfl; simp at h
    have : 52 + (q.log2 - 52) = q.log2 := by omega
    rw [this]
    exact Nat.log2_self_le hq

/-- An exact magnitude at most that of b rounds to a magnitude at most that of b. -/
theorem roundBits_le {num den b : Nat} (hd : 0 < den) (h : num ≤ magUnits b * den) : roundBits num den ≤ b := by
  unfold roundBits
  refine (Nat.min_le_left _ _).trans ?_
  rw [Nat.shiftLeft_eq]
  set q := num / den with hq
  set e := q.log2 - 52 with he
  obtain ⟨hlt, -⟩ := scale_spec q
  rw [← he] at hlt
  rw [magUnits_eq] at h
  have hqle : q ≤ magMantissa b * 2 ^ magScale b :=
    Nat.div_le_of_le_mul (by rw [Nat.mul_comm]; exact h)
  have hsplit := mag_split b
  have hmant := magMantissa_lt b
  have hele : e ≤ magScale b := by
    by_contra hcon
    have hpos : 0 < e := by omega
    have hbig := (scale_spec q).2 (by omega)
    rw [← he] at hbig
    have h1 : magMantissa b * 2 ^ magScale b < 2 ^ 53 * 2 ^ magScale b :=
      Nat.mul_lt_mul_of_pos_right (by norm_num; omega) (Nat.two_pow_pos _)
    rw [← Nat.pow_add] at h1
    have h2 : 2 ^ (53 + magScale b) ≤ 2 ^ (52 + e) := Nat.pow_le_pow_right (by omega) (by omega)
    omega
  rcases Nat.lt_or_ge e (magScale b) with hlt' | hge
  · have hm := le_magMantissa (b := b) (by omega)
    have hr : roundHalfEven num (den * 2 ^ e) ≤ 2 ^ 53 := by
      apply roundHalfEven_le (Nat.mul_pos hd (Nat.two_pow_pos _))
      have h3 : num < (q + 1) * den := by
        rw [hq, Nat.add_mul, Nat.one_mul]
        have := Nat.div_add_mod num den
        have := Nat.mod_lt num hd
        have : num / den * den = den * (num / den) := Nat.mul_comm _ _
        omega
      have h4 : (q + 1) * den ≤ 2 ^ (53 + e) * den := Nat.mul_le_mul_right _ (by omega)
      calc num ≤ 2 ^ (53 + e) * den := by omega
        _ = 2 ^ 53 * (den * 2 ^ e) := by rw [Nat.pow_add]; ring
    have : (2 : Nat) ^ 53 = 2 * 0x10000000000000 := by norm_num
    have : (e + 1) * 0x10000000000000 ≤ magScale b * 0x10000000000000 := Nat.mul_le_mul_right _ hlt'
    omega
  · have hee : e = magScale b := by omega
    have hr : roundHalfEven num (den * 2 ^ e) ≤ magMantissa b := by
      apply roundHalfEven_le (Nat.mul_pos hd (Nat.two_pow_pos _))
      calc num ≤ magMantissa b * 2 ^ magScale b * den := h
        _ = magMantissa b * (den * 2 ^ e) := by rw [hee]; ring
    rw [hee] at hr ⊢
    omega

/-- An exact magnitude at least that of a finite b rounds to a magnitude at least that of b. -/
theorem le_roundBits {num den b : Nat} (hd : 0 < den) (hb : b ≤ infBits) (h : magUnits b * den ≤ num) :
    b ≤ roundBits num den := by
  unfold roundBits
  refine Nat.le_min.2 ⟨?_, hb⟩
  rw [Nat.shiftLeft_eq]
  set q := num / den with hq
  set e := q.log2 - 52 with he
  obtain ⟨hlt, hge⟩ := scale_spec q
  rw [← he] at hlt hge
  rw [magUnits_eq] at h
  have hqle : magMantissa b * 2 ^ magScale b ≤ q := (Nat.le_div_iff_mul_le hd).2 h
  have hsplit := mag_split b
  have hmant := magMantissa_lt b
  have hele : magScale b ≤ e := by
    by_contra hcon
    have hm := le_magMantissa (b := b) (by omega)
    have h1 : 2 ^ 52 * 2 ^ magScale b ≤ magMantissa b * 2 ^ magScale b :=
      Nat.mul_le_mul_right _ (by norm_num; omega)
    rw [← Nat.pow_add] at h1
    have h2 : 2 ^ (53 + e) ≤ 2 ^ (52 + magScale b) := Nat.pow_le_pow_right (by omega) (by omega)
    omega
  rcases Nat.lt_or_ge (magScale b) e with hlt' | hge'
  · have hr : 2 ^ 52 ≤ roundHalfEven num (den * 2 ^ e) := by
      apply le_roundHalfEven (Nat.mul_pos hd (Nat.two_pow_pos _))
      have h3 : 2 ^ (52 + e) * den ≤ q * den := Nat.mul_le_mul_right _ (hge (by omega))
      have h4 : q * den ≤ num := Nat.div_mul_le_self num den
      calc 2 ^ 52 * (den * 2 ^ e) = 2 ^ (52 + e) * den := by rw [Nat.pow_add]; ring
        _ ≤ num := h3.trans h4
    have : (2 : Nat) ^ 52 = 0x10000000000000 := by norm_num
    have : (magScale b + 1) * 0x10000000000000 ≤ e * 0x10000000000000 := Nat.mul_le_mul_right _ hlt'
    omega
  · have hee : e = magScale b := by omega
    have hr : magMantissa b ≤ roundHalfEven num (den * 2 ^ e) := by
      apply le_roundHalfEven (Nat.mul_pos hd (Nat.two_pow_pos _))
      calc magMantissa b * (den * 2 ^ e) = magMantissa b * 2 ^ magScale b * den := by rw [hee]; ring
        _ ≤ num := h
    rw [hee] at hr ⊢
    omega

theorem roundBits_le_infBits (num den : Nat) : roundBits num den ≤ infBits := Nat.min_le_right _ _

/-- A value that is a binary64 value rounds to itself. -/
theorem roundBits_exact {num den b : Nat} (hd : 0 < den) (hb : b ≤ infBits) (h : num = magUnits b * den) :
    roundBits num den = b :=
  Nat.le_antisymm (roundBits_le hd h.le) (le_roundBits hd hb h.ge)

theorem magUnits_strictMono : StrictMono magUnits := by
  intro a b h
  rw [magUnits_eq, magUnits_eq]
  have hsa := mag_split a
  have hsb := mag_split b
  have hma := magMantissa_lt a
  have hscale : magScale a ≤ magScale b := Nat.sub_le_sub_right (Nat.div_le_div_right h.le) 1
  rcases Nat.lt_or_ge (magScale a) (magScale b) with hs | hs
  · have hmb := le_magMantissa (b := b) (by omega)
    have h5 : magMantissa a * 2 ^ magScale a < 2 ^ 53 * 2 ^ magScale a :=
      Nat.mul_lt_mul_of_pos_right (by norm_num; omega) (Nat.two_pow_pos _)
    have h6 : 2 ^ 52 * 2 ^ magScale b ≤ magMantissa b * 2 ^ magScale b :=
      Nat.mul_le_mul_right _ (by norm_num; omega)
    rw [← Nat.pow_add] at h5 h6
    have : 2 ^ (53 + magScale a) ≤ 2 ^ (52 + magScale b) := Nat.pow_le_pow_right (by omega) (by omega)
    omega
  · have hee : magScale a = magScale b := by omega
    rw [hee] at hsa ⊢
    exact Nat.mul_lt_mul_of_pos_right (by omega) (Nat.two_pow_pos _)

/-- The magnitude encodings are in the order of their values. -/
theorem magUnits_le_iff {a b : Nat} : magUnits a ≤ magUnits b ↔ a ≤ b := magUnits_strictMono.le_iff_le

@[simp] theorem magUnits_zero : magUnits 0 = 0 := rfl

theorem roundHalfEven_mono {n₁ d₁ n₂ d₂ : Nat} (h₁ : 0 < d₁) (h₂ : 0 < d₂) (h : n₁ * d₂ ≤ n₂ * d₁) :
    roundHalfEven n₁ d₁ ≤ roundHalfEven n₂ d₂ := by
  have e₁ := Nat.div_add_mod n₁ d₁
  have e₂ := Nat.div_add_mod n₂ d₂
  have l₁ := Nat.mod_lt n₁ h₁
  have l₂ := Nat.mod_lt n₂ h₂
  have hq : n₁ / d₁ ≤ n₂ / d₂ := by
    rw [Nat.le_div_iff_mul_le h₂]
    refine Nat.le_of_mul_le_mul_right (c := d₁) ?_ h₁
    calc n₁ / d₁ * d₂ * d₁ = n₁ / d₁ * d₁ * d₂ := by ring
      _ ≤ n₁ * d₂ := Nat.mul_le_mul_right _ (Nat.div_mul_le_self _ _)
      _ ≤ n₂ * d₁ := h
  rcases Nat.lt_or_ge (n₁ / d₁) (n₂ / d₂) with hlt | hge
  · have u₁ : roundHalfEven n₁ d₁ ≤ n₁ / d₁ + 1 := by
      unfold roundHalfEven
      dsimp only
      split <;> [skip; split] <;> omega
    have u₂ : n₂ / d₂ ≤ roundHalfEven n₂ d₂ := by
      unfold roundHalfEven
      dsimp only
      split <;> [skip; split] <;> omega
    omega
  · have hqq : n₁ / d₁ = n₂ / d₂ := by omega
    have hr : n₁ % d₁ * d₂ ≤ n₂ % d₂ * d₁ := by
      rw [hqq] at e₁
      have : (d₁ * (n₂ / d₂) + n₁ % d₁) * d₂ ≤ (d₂ * (n₂ / d₂) + n₂ % d₂) * d₁ := by rw [e₁, e₂]; exact h
      nlinarith
    unfold roundHalfEven
    dsimp only
    rw [hqq]
    split
    · split <;> [skip; split] <;> omega
    · rename_i ha
      have hge2 : d₂ ≤ 2 * (n₂ % d₂) := by
        by_contra hcon
        have : 2 * (n₂ % d₂) * d₁ < d₂ * d₁ := Nat.mul_lt_mul_of_pos_right (by omega) h₁
        have : d₁ * d₂ ≤ 2 * (n₁ % d₁) * d₂ := Nat.mul_le_mul_right _ (by omega)
        nlinarith
      split
      · rename_i hb
        have hgt2 : d₂ < 2 * (n₂ % d₂) := by
          by_contra hcon
          have : 2 * (n₂ % d₂) * d₁ ≤ d₂ * d₁ := Nat.mul_le_mul_right _ (by omega)
          have : d₁ * d₂ < 2 * (n₁ % d₁) * d₂ := Nat.mul_lt_mul_of_pos_right hb h₂
          nlinarith
        rw [if_neg (by omega), if_pos hgt2]
      · split <;> [omega; split] <;> omega

/-- Rounding keeps the order of exact magnitudes. -/
theorem roundBits_mono {n₁ d₁ n₂ d₂ : Nat} (h₁ : 0 < d₁) (h₂ : 0 < d₂) (h : n₁ * d₂ ≤ n₂ * d₁) :
    roundBits n₁ d₁ ≤ roundBits n₂ d₂ := by
  unfold roundBits
  refine min_le_min_right _ ?_
  rw [Nat.shiftLeft_eq, Nat.shiftLeft_eq]
  have hq : n₁ / d₁ ≤ n₂ / d₂ := by
    rw [Nat.le_div_iff_mul_le h₂]
    refine Nat.le_of_mul_le_mul_right (c := d₁) ?_ h₁
    calc n₁ / d₁ * d₂ * d₁ = n₁ / d₁ * d₁ * d₂ := by ring
      _ ≤ n₁ * d₂ := Nat.mul_le_mul_right _ (Nat.div_mul_le_self _ _)
      _ ≤ n₂ * d₁ := h
  set q₁ := n₁ / d₁ with hq₁
  set q₂ := n₂ / d₂ with hq₂
  have hlog : q₁.log2 ≤ q₂.log2 := by
    rcases Nat.eq_zero_or_pos q₁ with h0 | h0
    · rw [h0]; simp
    · exact (Nat.le_log2 (by omega)).2 ((Nat.log2_self_le (by omega)).trans hq)
  set a₁ := q₁.log2 - 52
  set a₂ := q₂.log2 - 52
  have ha : a₁ ≤ a₂ := by omega
  rcases Nat.lt_or_ge a₁ a₂ with hlt | hge
  · have r₁ : roundHalfEven n₁ (d₁ * 2 ^ a₁) ≤ 2 ^ 53 := by
      apply roundHalfEven_le (Nat.mul_pos h₁ (Nat.two_pow_pos _))
      have h3 : n₁ < (q₁ + 1) * d₁ := by
        have := Nat.div_add_mod n₁ d₁
        have := Nat.mod_lt n₁ h₁
        rw [hq₁, Nat.add_mul, Nat.one_mul, Nat.mul_comm (n₁ / d₁)]
        omega
      have h4 : (q₁ + 1) * d₁ ≤ 2 ^ (53 + a₁) * d₁ := Nat.mul_le_mul_right _ (scale_spec q₁).1
      calc n₁ ≤ 2 ^ (53 + a₁) * d₁ := by omega
        _ = 2 ^ 53 * (d₁ * 2 ^ a₁) := by rw [Nat.pow_add]; ring
    have r₂ : 2 ^ 52 ≤ roundHalfEven n₂ (d₂ * 2 ^ a₂) := by
      apply le_roundHalfEven (Nat.mul_pos h₂ (Nat.two_pow_pos _))
      have h3 : 2 ^ (52 + a₂) * d₂ ≤ q₂ * d₂ := Nat.mul_le_mul_right _ ((scale_spec q₂).2 (by omega))
      calc 2 ^ 52 * (d₂ * 2 ^ a₂) = 2 ^ (52 + a₂) * d₂ := by rw [Nat.pow_add]; ring
        _ ≤ n₂ := h3.trans (Nat.div_mul_le_self n₂ d₂)
    have e1 : (2 : Nat) ^ 53 = 2 * 0x10000000000000 := by norm_num
    have e2 : (2 : Nat) ^ 52 = 0x10000000000000 := by norm_num
    have : (a₁ + 1) * 0x10000000000000 ≤ a₂ * 0x10000000000000 := Nat.mul_le_mul_right _ hlt
    omega
  · have hee : a₁ = a₂ := by omega
    rw [hee]
    refine Nat.add_le_add_left (roundHalfEven_mono (Nat.mul_pos h₁ (Nat.two_pow_pos _))
      (Nat.mul_pos h₂ (Nat.two_pow_pos _)) ?_) _
    calc n₁ * (d₂ * 2 ^ a₂) = n₁ * d₂ * 2 ^ a₂ := by ring
      _ ≤ n₂ * d₁ * 2 ^ a₂ := Nat.mul_le_mul_right _ h
      _ = n₂ * (d₁ * 2 ^ a₂) := by ring

/-- Every 53-bit multiple of a power of two is the value of a magnitude encoding (of a finite one, if not too large). -/
theorem exists_magUnits (k : Nat) : ∀ m : Nat, m < 0x20000000000000 → ∃ b, magUnits b = m * 2 ^ k := by
  induction k with
  | zero =>
    intro m hm
    refine ⟨m, ?_⟩
    rw [magUnits_eq, magMantissa, magScale]
    split
    · rename_i h
      rw [Nat.div_eq_of_lt h]
    · have : m / 0x10000000000000 = 1 := by omega
      rw [this]
      omega
  | succ k ih =>
    intro m hm
    rcases Nat.lt_or_ge m 0x10000000000000 with h | h
    · obtain ⟨b, hb⟩ := ih (2 * m) (by omega)
      exact ⟨b, by rw [hb, Nat.pow_succ]; ring⟩
    · refine ⟨(k + 1) * 0x10000000000000 + m, ?_⟩
      have h1 : ((k + 1) * 0x10000000000000 + m) / 0x10000000000000 = k + 2 := by omega
      have h2 : ((k + 1) * 0x10000000000000 + m) % 0x10000000000000 = m - 0x10000000000000 := by omega
      rw [magUnits_eq, magMantissa, magScale, if_neg (by omega), h1, h2]
      have : 0x10000000000000 + (m - 0x10000000000000) = m := by omega
      rw [this]
      rfl

/-- A magnitude below infinity's that is a 53-bit multiple of a power of two is not changed by rounding. -/
theorem magUnits_roundBits {m k : Nat} (hm : m < 0x20000000000000) (hb : m * 2 ^ k ≤ magUnits infBits) :
    magUnits (roundBits (m * 2 ^ k) 1) = m * 2 ^ k := by
  obtain ⟨b, h⟩ := exists_magUnits k m hm
  rw [← h] at hb ⊢
  rw [roundBits_exact Nat.one_pos (magUnits_le_iff.1 hb) (by simp)]

theorem oneUnits_pos : 0 < oneUnits := by
  unfold oneUnits
  exact Nat.lt_of_lt_of_le Nat.one_pos Nat.le_shiftLeft

/-! ### Encodings -/

theorem magBits_lt (x : F64) : magBits x < 0x8000000000000000 := Nat.mod_lt _ (by decide)

theorem toNat_eq (x : F64) : x.toNat = (if fsign x then 0x8000000000000000 else 0) + magBits x := by
  unfold fsign magBits
  have := x.isLt
  rw [BitVec.msb_eq_decide]
  simp only [decide_eq_true_eq]
  split <;> omega

theorem eq_pack (x : F64) : x = pack (fsign x) (magBits x) := by
  apply BitVec.eq_of_toNat_eq
  unfold pack
  rw [BitVec.toNat_ofNat, ← toNat_eq]
  exact (Nat.mod_eq_of_lt x.isLt).symm

@[simp] theorem magBits_pack {neg : Bool} {b : Nat} (h : b ≤ infBits) : magBits (pack neg b) = b := by
  unfold infBits at h
  unfold magBits pack
  rw [BitVec.toNat_ofNat]
  cases neg <;> simp only [Bool.false_eq_true, if_false, if_true] <;> omega

@[simp] theorem fsign_pack {neg : Bool} {b : Nat} (h : b ≤ infBits) : fsign (pack neg b) = neg := by
  unfold infBits at h
  unfold fsign pack
  rw [BitVec.msb_eq_decide, BitVec.toNat_ofNat]
  cases neg <;> simp only [Bool.false_eq_true, if_false, if_true, decide_eq_false_iff_not, decide_eq_true_eq] <;> omega

theorem isFinite_iff {x : F64} : isFinite x = true ↔ magBits x < infBits := by simp [isFinite]

theorem isNaN_of_isFinite {x : F64} (h : isFinite x = true) : isNaN x = false := by
  simp only [isFinite, isNaN, decide_eq_true_eq, decide_eq_false_iff_not] at *
  omega

theorem isInf_of_isFinite {x : F64} (h : isFinite x = true) : isInf x = false := by
  simp only [isFinite, isInf, decide_eq_true_eq, decide_eq_false_iff_not] at *
  omega

/-- An operation's NaN result is a NaN, whatever its free bits (log 10). -/
@[simp] theorem isNaN_nanResult (op : FpOp) (a b : F64) : isNaN (nanResult op a b) = true := by
  unfold nanResult isNaN magBits infBits
  set r := Config.nanRaw op a b
  have h : ∀ i, 51 ≤ i → i < 63 → (r ||| 0x7FF8000000000000#64).getLsbD i = true := by
    intro i h1 h2
    rw [BitVec.getLsbD_or]
    have : (0x7FF8000000000000#64).getLsbD i = true := by interval_cases i <;> decide
    simp [this]
  have hx : (0x7FF8000000000000 : Nat) ≤ ((r ||| 0x7FF8000000000000#64).toNat % 0x8000000000000000) := by
    rw [BitVec.toNat_or]
    have : (0x8000000000000000 : Nat) = 2 ^ 63 := by norm_num
    rw [this, Nat.or_mod_two_pow]
    exact Nat.right_le_or
  simp only [decide_eq_true_eq]
  omega

@[simp] theorem isFinite_nanResult (op : FpOp) (a b : F64) : isFinite (nanResult op a b) = false := by
  have := isNaN_nanResult op a b
  simp only [isNaN, isFinite, decide_eq_true_eq, decide_eq_false_iff_not] at *
  omega

/-! ### Order -/

theorem fle_iff {a b : F64} (ha : isNaN a = false) (hb : isNaN b = false) :
    fle a b = true ↔ orderKey a ≤ orderKey b := by simp [fle, ha, hb]

theorem flt_iff {a b : F64} (ha : isNaN a = false) (hb : isNaN b = false) :
    flt a b = true ↔ orderKey a < orderKey b := by simp [flt, ha, hb]

theorem not_nan_of_fle {a b : F64} (h : fle a b = true) : isNaN a = false ∧ isNaN b = false := by
  simp only [fle, Bool.and_eq_true, Bool.not_eq_true'] at h
  exact h.1

theorem not_nan_of_flt {a b : F64} (h : flt a b = true) : isNaN a = false ∧ isNaN b = false := by
  simp only [flt, Bool.and_eq_true, Bool.not_eq_true'] at h
  exact h.1

theorem fle_trans {a b c : F64} (h1 : fle a b = true) (h2 : fle b c = true) : fle a c = true := by
  obtain ⟨ha, hb⟩ := not_nan_of_fle h1
  obtain ⟨-, hc⟩ := not_nan_of_fle h2
  rw [fle_iff ha hb] at h1
  rw [fle_iff hb hc] at h2
  rw [fle_iff ha hc]
  omega

theorem flt_of_fle_of_flt {a b c : F64} (h1 : fle a b = true) (h2 : flt b c = true) : flt a c = true := by
  obtain ⟨ha, hb⟩ := not_nan_of_fle h1
  obtain ⟨-, hc⟩ := not_nan_of_flt h2
  rw [fle_iff ha hb] at h1
  rw [flt_iff hb hc] at h2
  rw [flt_iff ha hc]
  omega

theorem fle_of_flt {a b : F64} (h : flt a b = true) : fle a b = true := by
  obtain ⟨ha, hb⟩ := not_nan_of_flt h
  rw [flt_iff ha hb] at h
  rw [fle_iff ha hb]
  omega

theorem fle_refl {a : F64} (h : isNaN a = false) : fle a a = true := by rw [fle_iff h h]

/-- A value between two finite ones is finite. -/
theorem feq_of_fle {a b : F64} (h1 : fle a b = true) (h2 : fle b a = true) : feq a b = true := by
  obtain ⟨ha, hb⟩ := not_nan_of_fle h1
  have a1 := (fle_iff ha hb).1 h1
  have a2 := (fle_iff hb ha).1 h2
  simp only [feq, ha, hb, Bool.not_false, Bool.true_and, decide_eq_true_eq]
  omega

theorem isFinite_of_between {lo x hi : F64} (hlo : isFinite lo = true) (hhi : isFinite hi = true)
    (h1 : fle lo x = true) (h2 : fle x hi = true) : isFinite x = true := by
  obtain ⟨ha, hb⟩ := not_nan_of_fle h1
  obtain ⟨-, hc⟩ := not_nan_of_fle h2
  rw [fle_iff ha hb] at h1
  rw [fle_iff hb hc] at h2
  rw [isFinite_iff] at *
  unfold orderKey at h1 h2
  cases h3 : fsign lo <;> cases h4 : fsign x <;> cases h5 : fsign hi <;> simp [h3, h4, h5] at h1 h2 <;> omega

/-! ### Values -/

/-- The value of a finite binary64. -/
def val (x : F64) : ℚ := (signedUnits x : ℚ) / (oneUnits : ℚ)

theorem signedUnits_le_iff {a b : F64} : signedUnits a ≤ signedUnits b ↔ orderKey a ≤ orderKey b := by
  unfold signedUnits orderKey units
  have h1 := magUnits_le_iff (a := magBits a) (b := magBits b)
  have h2 := magUnits_le_iff (a := magBits b) (b := magBits a)
  have h3 := magUnits_le_iff (a := magBits a) (b := 0)
  have h4 := magUnits_le_iff (a := magBits b) (b := 0)
  simp only [magUnits_zero] at h3 h4
  split <;> split <;> omega

theorem oneUnits_posQ : (0 : ℚ) < (oneUnits : ℚ) := by exact_mod_cast oneUnits_pos

theorem fle_iff_val {a b : F64} (ha : isFinite a = true) (hb : isFinite b = true) :
    fle a b = true ↔ val a ≤ val b := by
  rw [fle_iff (isNaN_of_isFinite ha) (isNaN_of_isFinite hb), ← signedUnits_le_iff, val, val,
    div_le_div_iff_of_pos_right oneUnits_posQ]
  exact_mod_cast Iff.rfl

theorem flt_iff_val {a b : F64} (ha : isFinite a = true) (hb : isFinite b = true) :
    flt a b = true ↔ val a < val b := by
  have h := fle_iff_val hb ha
  rw [fle_iff (isNaN_of_isFinite hb) (isNaN_of_isFinite ha)] at h
  rw [flt_iff (isNaN_of_isFinite ha) (isNaN_of_isFinite hb), ← not_le, h, not_le]

/-! ### Rounding a signed exact value -/

theorem roundTo_not_nan (neg : Bool) (num den : Nat) : isNaN (roundTo neg num den) = false := by
  have := roundBits_le_infBits num den
  simp only [roundTo, isNaN, magBits_pack this, decide_eq_false_iff_not]
  omega

/-- The exact signed magnitude that `roundTo` rounds, times its denominator. -/
def signedNum (neg : Bool) (num : Nat) : Int := if neg then -(num : Int) else (num : Int)

theorem orderKey_roundTo (neg : Bool) (num den : Nat) :
    orderKey (roundTo neg num den) = signedNum neg (roundBits num den) := by
  have := roundBits_le_infBits num den
  simp only [roundTo, orderKey, signedNum, magBits_pack this, fsign_pack this]

theorem roundTo_le {neg : Bool} {num den : Nat} {c : F64} (hd : 0 < den) (hc : isFinite c = true)
    (h : signedNum neg num ≤ signedUnits c * (den : Int)) : fle (roundTo neg num den) c = true := by
  rw [fle_iff (roundTo_not_nan _ _ _) (isNaN_of_isFinite hc), orderKey_roundTo]
  rw [isFinite_iff] at hc
  unfold signedNum signedUnits units at *
  unfold orderKey
  have hup := roundBits_le (num := num) (den := den) (b := magBits c) hd
  have hlo := le_roundBits (num := num) (den := den) (b := magBits c) hd hc.le
  have hz := roundBits_le (num := num) (den := den) (b := 0) hd
  simp only [magUnits_zero, Nat.zero_mul] at hz
  have hnn : (0 : Int) ≤ (magUnits (magBits c) : Int) * (den : Int) := by positivity
  cases neg <;> cases hs : fsign c <;>
    simp only [hs, Bool.false_eq_true, if_false, if_true, Int.neg_mul] at h ⊢
  · have := hup (by exact_mod_cast h)
    omega
  · have h0 : num ≤ 0 := by omega
    have := hz h0
    have h1 : magUnits (magBits c) * den ≤ num := by
      have : (magUnits (magBits c) : Int) * (den : Int) ≤ 0 := by omega
      have : magUnits (magBits c) * den ≤ 0 := by exact_mod_cast this
      omega
    have := hlo h1
    omega
  · omega
  · have : (magUnits (magBits c) : Int) * (den : Int) ≤ (num : Int) := by omega
    have := hlo (by exact_mod_cast this)
    omega

theorem le_roundTo {neg : Bool} {num den : Nat} {c : F64} (hd : 0 < den) (hc : isFinite c = true)
    (h : signedUnits c * (den : Int) ≤ signedNum neg num) : fle c (roundTo neg num den) = true := by
  rw [fle_iff (isNaN_of_isFinite hc) (roundTo_not_nan _ _ _), orderKey_roundTo]
  rw [isFinite_iff] at hc
  unfold signedNum signedUnits units at *
  unfold orderKey
  have hup := roundBits_le (num := num) (den := den) (b := magBits c) hd
  have hlo := le_roundBits (num := num) (den := den) (b := magBits c) hd hc.le
  have hz := roundBits_le (num := num) (den := den) (b := 0) hd
  simp only [magUnits_zero, Nat.zero_mul] at hz
  have hnn : (0 : Int) ≤ (magUnits (magBits c) : Int) * (den : Int) := by positivity
  cases neg <;> cases hs : fsign c <;>
    simp only [hs, Bool.false_eq_true, if_false, if_true, Int.neg_mul] at h ⊢
  · have := hlo (by exact_mod_cast h)
    omega
  · omega
  · have h0 : num ≤ 0 := by omega
    have := hz h0
    have h1 : magUnits (magBits c) * den ≤ num := by
      have : (magUnits (magBits c) : Int) * (den : Int) ≤ 0 := by omega
      have : magUnits (magBits c) * den ≤ 0 := by exact_mod_cast this
      omega
    have := hlo h1
    omega
  · have : (num : Int) ≤ (magUnits (magBits c) : Int) * (den : Int) := by omega
    have := hup (by exact_mod_cast this)
    omega

/-- Rounding keeps the order of exact signed values. -/
theorem roundTo_mono {s₁ s₂ : Bool} {n₁ d₁ n₂ d₂ : Nat} (h₁ : 0 < d₁) (h₂ : 0 < d₂)
    (h : signedNum s₁ n₁ * (d₂ : Int) ≤ signedNum s₂ n₂ * (d₁ : Int)) :
    fle (roundTo s₁ n₁ d₁) (roundTo s₂ n₂ d₂) = true := by
  rw [fle_iff (roundTo_not_nan _ _ _) (roundTo_not_nan _ _ _), orderKey_roundTo, orderKey_roundTo]
  have z₁ := roundBits_le (num := n₁) (den := d₁) (b := 0) h₁
  have z₂ := roundBits_le (num := n₂) (den := d₂) (b := 0) h₂
  simp only [magUnits_zero, Nat.zero_mul] at z₁ z₂
  have p₁ : (0 : Int) ≤ (n₁ : Int) * (d₂ : Int) := by positivity
  have p₂ : (0 : Int) ≤ (n₂ : Int) * (d₁ : Int) := by positivity
  unfold signedNum at *
  cases s₁ <;> cases s₂ <;> simp only [Bool.false_eq_true, if_false, if_true, Int.neg_mul] at h ⊢
  · exact_mod_cast roundBits_mono h₁ h₂ (by exact_mod_cast h)
  · have e₁ : (n₁ : Int) * (d₂ : Int) = 0 := by omega
    have e₂ : (n₂ : Int) * (d₁ : Int) = 0 := by omega
    have f₁ : n₁ = 0 := by
      have : n₁ * d₂ = 0 := by exact_mod_cast e₁
      rcases Nat.mul_eq_zero.1 this with h | h <;> omega
    have f₂ : n₂ = 0 := by
      have : n₂ * d₁ = 0 := by exact_mod_cast e₂
      rcases Nat.mul_eq_zero.1 this with h | h <;> omega
    have := z₁ (by omega)
    have := z₂ (by omega)
    omega
  · omega
  · have : (n₂ : Int) * (d₁ : Int) ≤ (n₁ : Int) * (d₂ : Int) := by omega
    have := roundBits_mono h₂ h₁ (by exact_mod_cast this)
    omega

/-! ### The operations on finite values: an exact result bounded by a binary64 value is rounded within it -/

theorem fadd_finite {a b : F64} (ha : isFinite a = true) (hb : isFinite b = true) : fadd a b = addFinite a b := by
  simp [fadd, isNaN_of_isFinite ha, isNaN_of_isFinite hb, isInf_of_isFinite ha, isInf_of_isFinite hb]

theorem signedNum_natAbs (z : Int) : signedNum (decide (z < 0)) z.natAbs = z := by
  unfold signedNum
  simp only [decide_eq_true_eq]
  split <;> omega

theorem addFinite_le {a b c : F64} (hc : isFinite c = true) (h : signedUnits a + signedUnits b ≤ signedUnits c) :
    fle (addFinite a b) c = true := by
  unfold addFinite
  dsimp only
  set z := signedUnits a + signedUnits b with hz
  split
  · rename_i h0
    have : isNaN (pack (fsign a && fsign b) 0) = false := by
      simp [isNaN, magBits_pack (Nat.zero_le infBits)]
    rw [fle_iff this (isNaN_of_isFinite hc), ← signedUnits_le_iff]
    have : signedUnits (pack (fsign a && fsign b) 0) = 0 := by
      simp [signedUnits, units, magBits_pack (Nat.zero_le infBits)]
    omega
  · apply roundTo_le Nat.one_pos hc
    rw [signedNum_natAbs]
    simpa using h

theorem le_addFinite {a b c : F64} (hc : isFinite c = true) (h : signedUnits c ≤ signedUnits a + signedUnits b) :
    fle c (addFinite a b) = true := by
  unfold addFinite
  dsimp only
  set z := signedUnits a + signedUnits b with hz
  split
  · rename_i h0
    have : isNaN (pack (fsign a && fsign b) 0) = false := by
      simp [isNaN, magBits_pack (Nat.zero_le infBits)]
    rw [fle_iff (isNaN_of_isFinite hc) this, ← signedUnits_le_iff]
    have : signedUnits (pack (fsign a && fsign b) 0) = 0 := by
      simp [signedUnits, units, magBits_pack (Nat.zero_le infBits)]
    omega
  · apply le_roundTo Nat.one_pos hc
    rw [signedNum_natAbs]
    simpa using h

theorem val_add_le_iff {a b c : F64} :
    val a + val b ≤ val c ↔ signedUnits a + signedUnits b ≤ signedUnits c := by
  rw [val, val, val, ← add_div, div_le_div_iff_of_pos_right oneUnits_posQ]
  exact_mod_cast Iff.rfl

theorem le_val_add_iff {a b c : F64} :
    val c ≤ val a + val b ↔ signedUnits c ≤ signedUnits a + signedUnits b := by
  rw [val, val, val, ← add_div, div_le_div_iff_of_pos_right oneUnits_posQ]
  exact_mod_cast Iff.rfl

theorem fadd_le {a b c : F64} (ha : isFinite a = true) (hb : isFinite b = true) (hc : isFinite c = true)
    (h : val a + val b ≤ val c) : fle (fadd a b) c = true := by
  rw [fadd_finite ha hb]
  exact addFinite_le hc (val_add_le_iff.1 h)

theorem le_fadd {a b c : F64} (ha : isFinite a = true) (hb : isFinite b = true) (hc : isFinite c = true)
    (h : val c ≤ val a + val b) : fle c (fadd a b) = true := by
  rw [fadd_finite ha hb]
  exact le_addFinite hc (le_val_add_iff.1 h)

theorem fneg_toNat_mod (a : F64) : magBits (fneg a) = magBits a := by
  unfold magBits fneg
  have : (0x8000000000000000 : Nat) = 2 ^ 63 := by norm_num
  rw [BitVec.toNat_xor, this, Nat.xor_mod_two_pow]
  norm_num

theorem fsign_fneg (a : F64) : fsign (fneg a) = !fsign a := by
  unfold fsign fneg
  rw [BitVec.msb_xor]
  have : (0x8000000000000000#64 : F64).msb = true := by decide
  simp [this]

theorem isFinite_fneg (a : F64) : isFinite (fneg a) = isFinite a := by simp [isFinite, fneg_toNat_mod]

theorem val_fneg (a : F64) : val (fneg a) = -val a := by
  unfold val signedUnits units
  rw [fneg_toNat_mod, fsign_fneg]
  cases fsign a <;> simp [neg_div]

theorem magBits_fabs (a : F64) : magBits (fabs a) = magBits a := by
  unfold magBits fabs
  have : (0x8000000000000000 : Nat) = 2 ^ 63 := by norm_num
  have h2 : (0x7FFFFFFFFFFFFFFF#64 : F64).toNat = 2 ^ 63 - 1 := by decide
  rw [BitVec.toNat_and, this, h2, Nat.and_two_pow_sub_one_eq_mod, Nat.mod_mod]

theorem fsign_fabs (a : F64) : fsign (fabs a) = false := by
  unfold fsign fabs
  rw [BitVec.msb_and]
  have : (0x7FFFFFFFFFFFFFFF#64 : F64).msb = false := by decide
  simp [this]

theorem isFinite_fabs (a : F64) : isFinite (fabs a) = isFinite a := by simp [isFinite, magBits_fabs]

theorem val_fabs (a : F64) : val (fabs a) = |val a| := by
  have hnn : (0 : ℚ) ≤ ((magUnits (magBits a) : ℤ) : ℚ) / (oneUnits : ℚ) := by positivity
  unfold val signedUnits units
  rw [magBits_fabs, fsign_fabs]
  cases fsign a
  · simp only [Bool.false_eq_true, if_false]
    exact (abs_of_nonneg hnn).symm
  · simp only [Bool.false_eq_true, if_false, if_true]
    rw [Int.cast_neg, neg_div, abs_neg, abs_of_nonneg hnn]

theorem fsub_le {a b c : F64} (ha : isFinite a = true) (hb : isFinite b = true) (hc : isFinite c = true)
    (h : val a - val b ≤ val c) : fle (fsub a b) c = true :=
  fadd_le ha ((isFinite_fneg b).trans hb) hc (by rw [val_fneg]; linarith)

theorem le_fsub {a b c : F64} (ha : isFinite a = true) (hb : isFinite b = true) (hc : isFinite c = true)
    (h : val c ≤ val a - val b) : fle c (fsub a b) = true :=
  le_fadd ha ((isFinite_fneg b).trans hb) hc (by rw [val_fneg]; linarith)

theorem signedNum_mul (a b : F64) :
    signedNum (fsign a != fsign b) (units a * units b) = signedUnits a * signedUnits b := by
  unfold signedNum signedUnits
  cases fsign a <;> cases fsign b <;> simp

theorem fmul_finite {a b : F64} (ha : isFinite a = true) (hb : isFinite b = true) :
    fmul a b = roundTo (fsign a != fsign b) (units a * units b) oneUnits := by
  simp [fmul, isNaN_of_isFinite ha, isNaN_of_isFinite hb, isInf_of_isFinite ha, isInf_of_isFinite hb]

theorem val_mul_le_iff {a b c : F64} :
    val a * val b ≤ val c ↔ signedUnits a * signedUnits b ≤ signedUnits c * (oneUnits : Int) := by
  have h1 := oneUnits_posQ
  unfold val
  rw [div_mul_div_comm, div_le_div_iff₀ (mul_pos h1 h1) h1, ← mul_assoc, mul_le_mul_iff_of_pos_right h1]
  exact_mod_cast Iff.rfl

theorem le_val_mul_iff {a b c : F64} :
    val c ≤ val a * val b ↔ signedUnits c * (oneUnits : Int) ≤ signedUnits a * signedUnits b := by
  have h1 := oneUnits_posQ
  unfold val
  rw [div_mul_div_comm, div_le_div_iff₀ h1 (mul_pos h1 h1), ← mul_assoc, mul_le_mul_iff_of_pos_right h1]
  exact_mod_cast Iff.rfl

theorem fmul_le {a b c : F64} (ha : isFinite a = true) (hb : isFinite b = true) (hc : isFinite c = true)
    (h : val a * val b ≤ val c) : fle (fmul a b) c = true := by
  rw [fmul_finite ha hb]
  refine roundTo_le oneUnits_pos hc ?_
  rw [signedNum_mul]
  exact val_mul_le_iff.1 h

theorem le_fmul {a b c : F64} (ha : isFinite a = true) (hb : isFinite b = true) (hc : isFinite c = true)
    (h : val c ≤ val a * val b) : fle c (fmul a b) = true := by
  rw [fmul_finite ha hb]
  refine le_roundTo oneUnits_pos hc ?_
  rw [signedNum_mul]
  exact le_val_mul_iff.1 h

theorem fdiv_finite {a b : F64} (ha : isFinite a = true) (hb : isFinite b = true) (h0 : isZero b = false) :
    fdiv a b = roundTo (fsign a != fsign b) (units a * oneUnits) (units b) := by
  simp [fdiv, isNaN_of_isFinite ha, isNaN_of_isFinite hb, isInf_of_isFinite ha, isInf_of_isFinite hb, h0]

theorem units_pos {b : F64} (h0 : isZero b = false) : 0 < units b := by
  simp only [isZero, decide_eq_false_iff_not] at h0
  have := magUnits_le_iff (a := magBits b) (b := 0)
  simp only [magUnits_zero] at this
  unfold units
  omega

theorem val_div_eq (a b : F64) (h0 : isZero b = false) :
    val a / val b = (signedNum (fsign a != fsign b) (units a * oneUnits) : ℚ) / ((units b : ℚ) * (oneUnits : ℚ)) := by
  have h1 := oneUnits_posQ
  have h2 : (0 : ℚ) < (units b : ℚ) := by exact_mod_cast units_pos h0
  unfold val signedUnits signedNum
  cases fsign a <;> cases fsign b <;> simp <;> field_simp

theorem fdiv_le {a b c : F64} (ha : isFinite a = true) (hb : isFinite b = true) (hc : isFinite c = true)
    (h0 : isZero b = false) (h : val a / val b ≤ val c) : fle (fdiv a b) c = true := by
  have h1 := oneUnits_posQ
  have h2 : (0 : ℚ) < (units b : ℚ) := by exact_mod_cast units_pos h0
  rw [fdiv_finite ha hb h0]
  refine roundTo_le (units_pos h0) hc ?_
  rw [val_div_eq a b h0, val, div_le_div_iff₀ (mul_pos h2 h1) h1, ← mul_assoc, mul_le_mul_iff_of_pos_right h1] at h
  exact_mod_cast h

theorem le_fdiv {a b c : F64} (ha : isFinite a = true) (hb : isFinite b = true) (hc : isFinite c = true)
    (h0 : isZero b = false) (h : val c ≤ val a / val b) : fle c (fdiv a b) = true := by
  have h1 := oneUnits_posQ
  have h2 : (0 : ℚ) < (units b : ℚ) := by exact_mod_cast units_pos h0
  rw [fdiv_finite ha hb h0]
  refine le_roundTo (units_pos h0) hc ?_
  rw [val_div_eq a b h0, val, div_le_div_iff₀ h1 (mul_pos h2 h1), ← mul_assoc, mul_le_mul_iff_of_pos_right h1] at h
  exact_mod_cast h

theorem isZero_iff_val {a : F64} : isZero a = true ↔ val a = 0 := by
  have h1 := oneUnits_posQ
  have h := magUnits_le_iff (a := magBits a) (b := 0)
  simp only [magUnits_zero] at h
  unfold val
  rw [div_eq_zero_iff, or_iff_left h1.ne']
  unfold isZero signedUnits units
  rw [decide_eq_true_eq, Int.cast_eq_zero]
  split <;> omega

theorem isZero_false_of_val_pos {a : F64} (h : 0 < val a) : isZero a = false := by
  rw [Bool.eq_false_iff]
  intro h0
  rw [isZero_iff_val] at h0
  exact absurd h0 h.ne'

theorem fmul_mono {a b c d : F64} (ha : isFinite a = true) (hb : isFinite b = true) (hc : isFinite c = true)
    (hd : isFinite d = true) (h : val a * val b ≤ val c * val d) : fle (fmul a b) (fmul c d) = true := by
  have h1 := oneUnits_posQ
  rw [fmul_finite ha hb, fmul_finite hc hd]
  refine roundTo_mono oneUnits_pos oneUnits_pos ?_
  rw [signedNum_mul, signedNum_mul]
  refine Int.mul_le_mul_of_nonneg_right ?_ (by positivity)
  unfold val at h
  rw [div_mul_div_comm, div_mul_div_comm, div_le_div_iff_of_pos_right (mul_pos h1 h1)] at h
  exact_mod_cast h

theorem fdiv_mono {a b c d : F64} (ha : isFinite a = true) (hb : isFinite b = true) (hc : isFinite c = true)
    (hd : isFinite d = true) (hb0 : isZero b = false) (hd0 : isZero d = false) (h : val a / val b ≤ val c / val d) :
    fle (fdiv a b) (fdiv c d) = true := by
  have h1 := oneUnits_posQ
  have h2 : (0 : ℚ) < (units b : ℚ) := by exact_mod_cast units_pos hb0
  have h3 : (0 : ℚ) < (units d : ℚ) := by exact_mod_cast units_pos hd0
  rw [fdiv_finite ha hb hb0, fdiv_finite hc hd hd0]
  refine roundTo_mono (units_pos hb0) (units_pos hd0) ?_
  rw [val_div_eq a b hb0, val_div_eq c d hd0, div_le_div_iff₀ (mul_pos h2 h1) (mul_pos h3 h1), ← mul_assoc,
    ← mul_assoc, mul_le_mul_iff_of_pos_right h1] at h
  exact_mod_cast h

/-! ### Half-spacing bounds: what rounding can add, and what it cannot pass -/

theorem two_mul_roundHalfEven_le (num den : Nat) : 2 * (roundHalfEven num den * den) ≤ 2 * num + den := by
  have h := Nat.div_add_mod num den
  have hc : num / den * den = den * (num / den) := Nat.mul_comm _ _
  unfold roundHalfEven
  dsimp only
  split
  · omega
  · split
    · rw [Nat.add_mul]
      omega
    · have h2 := Nat.mod_lt (num / den) (by omega : 0 < 2)
      have h3 : (num / den + num / den % 2) * den ≤ num / den * den + den := by
        rw [Nat.add_mul]
        have : num / den % 2 * den ≤ 1 * den := Nat.mul_le_mul_right _ (by omega)
        omega
      omega

theorem magUnits_of_parts {e r : Nat} (h : r ≤ 2 * 0x10000000000000) (h0 : 0 < e → 0x10000000000000 ≤ r) :
    magUnits (e * 0x10000000000000 + r) = r * 2 ^ e := by
  rw [magUnits_eq, magMantissa, magScale]
  rcases Nat.eq_or_lt_of_le h with rfl | h1
  · have h2 : (e * 0x10000000000000 + 2 * 0x10000000000000) / 0x10000000000000 = e + 2 := by omega
    have h3 : (e * 0x10000000000000 + 2 * 0x10000000000000) % 0x10000000000000 = 0 := by omega
    rw [if_neg (by omega), h2, h3]
    have : e + 2 - 1 = e + 1 := rfl
    rw [this, Nat.pow_succ]
    ring
  · rcases Nat.lt_or_ge r 0x10000000000000 with h2 | h2
    · have he : e = 0 := by
        by_contra hcon
        have := h0 (by omega)
        omega
      subst he
      rw [if_pos (by omega), Nat.zero_mul, Nat.zero_add, Nat.div_eq_of_lt h2]
    · have h3 : (e * 0x10000000000000 + r) / 0x10000000000000 = e + 1 := by omega
      have h4 : (e * 0x10000000000000 + r) % 0x10000000000000 = r - 0x10000000000000 := by omega
      rw [if_neg (by omega), h3, h4]
      have : 0x10000000000000 + (r - 0x10000000000000) = r := by omega
      rw [this, Nat.add_sub_cancel]

/-- What `roundBits` answers, as one number: the quotient's mantissa, rounded at the quotient's own exponent e. -/
theorem magUnits_roundBits_le_parts {num den : Nat} (hd : 0 < den) :
    magUnits (roundBits num den) ≤
      roundHalfEven num (den * 2 ^ ((num / den).log2 - 52)) * 2 ^ ((num / den).log2 - 52) := by
  unfold roundBits
  dsimp only
  rw [Nat.shiftLeft_eq]
  set e := (num / den).log2 - 52 with he
  obtain ⟨s1, s2⟩ := scale_spec (num / den)
  rw [← he] at s1 s2
  have hpos : 0 < den * 2 ^ e := Nat.mul_pos hd (Nat.two_pow_pos _)
  have hr : roundHalfEven num (den * 2 ^ e) ≤ 2 * 0x10000000000000 := by
    apply roundHalfEven_le hpos
    have h1 := (Nat.div_lt_iff_lt_mul hd).1 s1
    have : 2 ^ (53 + e) * den = 2 * 0x10000000000000 * (den * 2 ^ e) := by rw [Nat.pow_add]; ring
    omega
  have hr0 : 0 < e → 0x10000000000000 ≤ roundHalfEven num (den * 2 ^ e) := by
    intro h0
    apply le_roundHalfEven hpos
    have h1 := (Nat.le_div_iff_mul_le hd).1 (s2 h0)
    have : 2 ^ (52 + e) * den = 0x10000000000000 * (den * 2 ^ e) := by rw [Nat.pow_add]; ring
    omega
  rw [← magUnits_of_parts hr hr0]
  exact magUnits_le_iff.2 (Nat.min_le_left _ _)

/-- A magnitude below 2^(53+k) units rounds up by at most half of 2^k units. -/
theorem magUnits_roundBits_le {num den k : Nat} (hd : 0 < den) (h : num < 2 ^ (53 + k) * den) :
    2 * (magUnits (roundBits num den) * den) ≤ 2 * num + den * 2 ^ k := by
  have hb := magUnits_roundBits_le_parts (num := num) hd
  set e := (num / den).log2 - 52 with he
  have hek : e ≤ k := by
    rcases Nat.eq_zero_or_pos (num / den) with h0 | h0
    · rw [he, h0]; simp
    · have : (num / den).log2 < 53 + k := (Nat.log2_lt (by omega)).2 ((Nat.div_lt_iff_lt_mul hd).2 h)
      omega
  have h1 := Nat.mul_le_mul_right den hb
  have h2 := two_mul_roundHalfEven_le num (den * 2 ^ e)
  have h3 : roundHalfEven num (den * 2 ^ e) * 2 ^ e * den = roundHalfEven num (den * 2 ^ e) * (den * 2 ^ e) := by ring
  have h4 : den * 2 ^ e ≤ den * 2 ^ k := Nat.mul_le_mul_left _ (Nat.pow_le_pow_right (by omega) hek)
  omega

/-- A whole number of units rounds up by at most its 2^53rd part. -/
theorem magUnits_roundBits_rel (num : Nat) : 2 ^ 53 * magUnits (roundBits num 1) ≤ (2 ^ 53 + 1) * num := by
  have hb := magUnits_roundBits_le_parts (num := num) Nat.one_pos
  rw [Nat.div_one, Nat.one_mul] at hb
  obtain ⟨-, s2⟩ := scale_spec num
  have h2 := two_mul_roundHalfEven_le num (2 ^ (num.log2 - 52))
  rcases Nat.eq_zero_or_pos (num.log2 - 52) with h0 | h0
  · rw [h0] at hb h2
    omega
  · have := s2 h0
    rw [Nat.pow_add] at this
    omega

/-- A magnitude past an even mantissa by at most half a spacing does not round past it (ties to even). -/
theorem roundBits_le_even {num e r : Nat} (h0 : 0x10000000000000 ≤ r) (h1 : r < 2 * 0x10000000000000)
    (h2 : r % 2 = 0) (h : 2 * num ≤ 2 * (r * 2 ^ e) + 2 ^ e) : roundBits num 1 ≤ e * 0x10000000000000 + r := by
  have hval : magUnits (e * 0x10000000000000 + r) = r * 2 ^ e := magUnits_of_parts (by omega) fun _ => h0
  rcases Nat.lt_or_ge (r * 2 ^ e) num with hlt | hge
  · have hpos : 0 < 2 ^ e := Nat.two_pow_pos _
    have hlo : 0x10000000000000 * 2 ^ e ≤ r * 2 ^ e := Nat.mul_le_mul_right _ h0
    have hhi : (r + 1) * 2 ^ e ≤ 2 * 0x10000000000000 * 2 ^ e := Nat.mul_le_mul_right _ (by omega)
    rw [Nat.add_mul, Nat.one_mul] at hhi
    have hlog : num.log2 = 52 + e := by
      have a1 : 52 + e ≤ num.log2 := (Nat.le_log2 (by omega)).2 (by rw [Nat.pow_add]; omega)
      have a2 : num.log2 < 52 + e + 1 := (Nat.log2_lt (by omega)).2 (by rw [Nat.pow_succ, Nat.pow_add]; omega)
      omega
    unfold roundBits
    dsimp only
    rw [Nat.div_one, Nat.shiftLeft_eq, Nat.one_mul, hlog, Nat.add_sub_cancel_left]
    refine (Nat.min_le_left _ _).trans ?_
    have hdiv : num / 2 ^ e = r := by
      apply Nat.div_eq_of_lt_le
      · omega
      · rw [Nat.add_mul, Nat.one_mul]; omega
    have hmod : 2 * (num % 2 ^ e) ≤ 2 ^ e := by
      have := Nat.div_add_mod num (2 ^ e)
      rw [hdiv, Nat.mul_comm] at this
      omega
    have hr : roundHalfEven num (2 ^ e) = r := by
      unfold roundHalfEven
      dsimp only
      rw [hdiv, h2]
      split
      · rfl
      · rw [if_neg (by omega), Nat.add_zero]
    rw [hr]
  · exact roundBits_le Nat.one_pos (by rw [hval]; omega)

/-- A sum past an even mantissa by at most half a spacing does not round past it. -/
theorem magBits_addFinite_le {a b : F64} {e r : Nat} (h0 : 0x10000000000000 ≤ r)
    (h1 : r < 2 * 0x10000000000000) (h2 : r % 2 = 0)
    (h : 2 * (signedUnits a + signedUnits b).natAbs ≤ 2 * (r * 2 ^ e) + 2 ^ e) :
    magBits (addFinite a b) ≤ e * 0x10000000000000 + r := by
  unfold addFinite
  dsimp only
  split
  · rw [magBits_pack (Nat.zero_le _)]
    omega
  · rw [roundTo, magBits_pack (roundBits_le_infBits _ _)]
    exact roundBits_le_even h0 h1 h2 h

end Sys2Proof.Machine
end

