-- ==== Sys2Proof/Laws/Decode.lean ====
section
/-!
SUPPORT. The fields of a header, the words of an operand, and what the decoder reads from a packet's words (R84,
R110-R113).
-/

namespace Sys2Proof

@[simp] theorem lowWord_joinWords (a b : Word) : lowWord (joinWords a b) = a := by
  unfold lowWord joinWords
  ext i hi
  simp only [BitVec.getElem_extractLsb', BitVec.getLsbD_append, Nat.zero_add]
  rw [if_pos hi]
  exact BitVec.getLsbD_eq_getElem hi

@[simp] theorem highWord_joinWords (a b : Word) : highWord (joinWords a b) = b := by
  unfold highWord joinWords
  ext i hi
  simp only [BitVec.getElem_extractLsb', BitVec.getLsbD_append]
  rw [if_neg (by omega), Nat.add_sub_cancel_left]
  exact BitVec.getLsbD_eq_getElem hi

@[simp] theorem joinWords_low_high (v : U64) : joinWords (lowWord v) (highWord v) = v := by
  unfold lowWord highWord joinWords
  ext i hi
  rw [← BitVec.getLsbD_eq_getElem, ← BitVec.getLsbD_eq_getElem, BitVec.getLsbD_append]
  simp only [BitVec.getLsbD_extractLsb']
  split
  · rename_i h
    simp [h]
  · have : 32 + (i - 32) = i := by omega
    simp [this]
    omega

@[simp] theorem instOf_mkHeader (opc inst fa fb : Byte) : instOf (mkHeader opc inst fa fb) = inst := by
  unfold instOf mkHeader
  ext i hi
  simp only [BitVec.getElem_extractLsb', BitVec.getLsbD_append]
  rw [if_neg (by omega), if_neg (by omega), if_pos (by omega)]
  have : 16 + i - 8 - 8 = i := by omega
  rw [this]
  exact BitVec.getLsbD_eq_getElem hi

@[simp] theorem faOf_mkHeader (opc inst fa fb : Byte) : faOf (mkHeader opc inst fa fb) = fa := by
  unfold faOf mkHeader
  ext i hi
  simp only [BitVec.getElem_extractLsb', BitVec.getLsbD_append]
  rw [if_neg (by omega), if_pos (by omega)]
  have : 8 + i - 8 = i := by omega
  rw [this]
  exact BitVec.getLsbD_eq_getElem hi

@[simp] theorem fbOf_mkHeader (opc inst fa fb : Byte) : fbOf (mkHeader opc inst fa fb) = fb := by
  unfold fbOf mkHeader
  ext i hi
  simp only [BitVec.getElem_extractLsb', BitVec.getLsbD_append]
  rw [if_pos (by omega), Nat.zero_add]
  exact BitVec.getLsbD_eq_getElem hi

@[simp] theorem opcOf_mkHeader (opc inst fa fb : Byte) : opcOf (mkHeader opc inst fa fb) = opc := by
  unfold opcOf mkHeader
  ext i hi
  simp only [BitVec.getElem_extractLsb', BitVec.getLsbD_append]
  rw [if_neg (by omega), if_neg (by omega), if_neg (by omega)]
  have : 24 + i - 8 - 8 - 8 = i := by omega
  rw [this]
  exact BitVec.getLsbD_eq_getElem hi

/-- A header is its four fields (R111). -/
theorem mkHeader_fields (h : Word) : mkHeader (opcOf h) (instOf h) (faOf h) (fbOf h) = h := by
  unfold mkHeader opcOf instOf faOf fbOf
  ext i hi
  rw [← BitVec.getLsbD_eq_getElem, ← BitVec.getLsbD_eq_getElem]
  simp only [BitVec.getLsbD_append, BitVec.getLsbD_extractLsb']
  split
  · rename_i h1
    simp [h1]
  · split
    · have : 8 + (i - 8) = i := by omega
      rw [this]
      simp
      omega
    · split
      · have : 16 + (i - 8 - 8) = i := by omega
        rw [this]
        simp
        omega
      · have : 24 + (i - 8 - 8 - 8) = i := by omega
        rw [this]
        simp
        omega

@[simp] theorem opcOf_header (i : Instr) : opcOf i.header = i.opc := opcOf_mkHeader _ _ _ _
@[simp] theorem instOf_header (i : Instr) : instOf i.header = i.inst := instOf_mkHeader _ _ _ _
@[simp] theorem faOf_header (i : Instr) : faOf i.header = i.fa := faOf_mkHeader _ _ _ _
@[simp] theorem fbOf_header (i : Instr) : fbOf i.header = i.fb := fbOf_mkHeader _ _ _ _

theorem length_operandWords (vs : List U64) : (operandWords vs).length = 2 * vs.length := by
  induction vs with
  | nil => rfl
  | cons v vs ih =>
    simp only [operandWords, List.length_cons, ih]
    omega

theorem length_encode (i : Instr) : (encode i).length = 1 + 2 * i.operands.length := by
  unfold encode
  rw [List.length_cons, length_operandWords]
  omega

end Sys2Proof
end

