-- ==== Sys2Proof/Laws/State.lean ====
section
/-!
SUPPORT. One lemma per field and update of State: each true by unfolding, so that no later proof unfolds a record
update.
-/

namespace Sys2Proof.Machine

@[simp] theorem State.respond_params (s : State) (opc : Byte) (r : Option U64) : (s.respond opc r).params = s.params := rfl
@[simp] theorem State.respond_err (s : State) (opc : Byte) (r : Option U64) : (s.respond opc r).err = s.err := rfl
@[simp] theorem State.respond_osc (s : State) (opc : Byte) (r : Option U64) : (s.respond opc r).osc = s.osc := rfl
@[simp] theorem State.respond_env (s : State) (opc : Byte) (r : Option U64) : (s.respond opc r).env = s.env := rfl
@[simp] theorem State.respond_filt (s : State) (opc : Byte) (r : Option U64) : (s.respond opc r).filt = s.filt := rfl
@[simp] theorem State.respond_lfo (s : State) (opc : Byte) (r : Option U64) : (s.respond opc r).lfo = s.lfo := rfl
@[simp] theorem State.respond_mem (s : State) (opc : Byte) (r : Option U64) : (s.respond opc r).mem = s.mem := rfl
@[simp] theorem State.respond_cmdPort (s : State) (opc : Byte) (r : Option U64) : (s.respond opc r).cmdPort = s.cmdPort := rfl
@[simp] theorem State.respond_respPort (s : State) (opc : Byte) (r : Option U64) : (s.respond opc r).respPort = s.respPort ++ statusWord opc .ok :: resultWords r := rfl
@[simp] theorem State.respond_position (s : State) (opc : Byte) (r : Option U64) : (s.respond opc r).position = s.position := rfl

@[simp] theorem State.refuse_params (s : State) (st : Status) (hdr : Word) : (s.refuse st hdr).params = s.params := rfl
@[simp] theorem State.refuse_err (s : State) (st : Status) (hdr : Word) : (s.refuse st hdr).err = recordError s.err st hdr := rfl
@[simp] theorem State.refuse_osc (s : State) (st : Status) (hdr : Word) : (s.refuse st hdr).osc = s.osc := rfl
@[simp] theorem State.refuse_env (s : State) (st : Status) (hdr : Word) : (s.refuse st hdr).env = s.env := rfl
@[simp] theorem State.refuse_filt (s : State) (st : Status) (hdr : Word) : (s.refuse st hdr).filt = s.filt := rfl
@[simp] theorem State.refuse_lfo (s : State) (st : Status) (hdr : Word) : (s.refuse st hdr).lfo = s.lfo := rfl
@[simp] theorem State.refuse_mem (s : State) (st : Status) (hdr : Word) : (s.refuse st hdr).mem = s.mem := rfl
@[simp] theorem State.refuse_cmdPort (s : State) (st : Status) (hdr : Word) : (s.refuse st hdr).cmdPort = s.cmdPort := rfl
@[simp] theorem State.refuse_respPort (s : State) (st : Status) (hdr : Word) : (s.refuse st hdr).respPort = s.respPort ++ [statusWord (opcOf hdr) st] := rfl
@[simp] theorem State.refuse_position (s : State) (st : Status) (hdr : Word) : (s.refuse st hdr).position = s.position := rfl

@[simp] theorem State.accept_params (s : State) (rest : List Word) : (s.accept rest).params = s.params := rfl
@[simp] theorem State.accept_err (s : State) (rest : List Word) : (s.accept rest).err = s.err := rfl
@[simp] theorem State.accept_osc (s : State) (rest : List Word) : (s.accept rest).osc = s.osc := rfl
@[simp] theorem State.accept_env (s : State) (rest : List Word) : (s.accept rest).env = s.env := rfl
@[simp] theorem State.accept_filt (s : State) (rest : List Word) : (s.accept rest).filt = s.filt := rfl
@[simp] theorem State.accept_lfo (s : State) (rest : List Word) : (s.accept rest).lfo = s.lfo := rfl
@[simp] theorem State.accept_mem (s : State) (rest : List Word) : (s.accept rest).mem = s.mem := rfl
@[simp] theorem State.accept_cmdPort (s : State) (rest : List Word) : (s.accept rest).cmdPort = rest := rfl
@[simp] theorem State.accept_respPort (s : State) (rest : List Word) : (s.accept rest).respPort = s.respPort := rfl
@[simp] theorem State.accept_position (s : State) (rest : List Word) : (s.accept rest).position = s.position + 1 := rfl

@[simp] theorem State.setOsc_params (s : State) (i : Nat) (o : Osc) : (s.setOsc i o).params = s.params := rfl
@[simp] theorem State.setOsc_err (s : State) (i : Nat) (o : Osc) : (s.setOsc i o).err = s.err := rfl
@[simp] theorem State.setOsc_osc (s : State) (i : Nat) (o : Osc) : (s.setOsc i o).osc = s.osc.set i o := rfl
@[simp] theorem State.setOsc_env (s : State) (i : Nat) (o : Osc) : (s.setOsc i o).env = s.env := rfl
@[simp] theorem State.setOsc_filt (s : State) (i : Nat) (o : Osc) : (s.setOsc i o).filt = s.filt := rfl
@[simp] theorem State.setOsc_lfo (s : State) (i : Nat) (o : Osc) : (s.setOsc i o).lfo = s.lfo := rfl
@[simp] theorem State.setOsc_mem (s : State) (i : Nat) (o : Osc) : (s.setOsc i o).mem = s.mem := rfl
@[simp] theorem State.setOsc_cmdPort (s : State) (i : Nat) (o : Osc) : (s.setOsc i o).cmdPort = s.cmdPort := rfl
@[simp] theorem State.setOsc_respPort (s : State) (i : Nat) (o : Osc) : (s.setOsc i o).respPort = s.respPort := rfl
@[simp] theorem State.setOsc_position (s : State) (i : Nat) (o : Osc) : (s.setOsc i o).position = s.position := rfl

@[simp] theorem State.setEnv_params (s : State) (i : Nat) (e : Env) : (s.setEnv i e).params = s.params := rfl
@[simp] theorem State.setEnv_err (s : State) (i : Nat) (e : Env) : (s.setEnv i e).err = s.err := rfl
@[simp] theorem State.setEnv_osc (s : State) (i : Nat) (e : Env) : (s.setEnv i e).osc = s.osc := rfl
@[simp] theorem State.setEnv_env (s : State) (i : Nat) (e : Env) : (s.setEnv i e).env = s.env.set i e := rfl
@[simp] theorem State.setEnv_filt (s : State) (i : Nat) (e : Env) : (s.setEnv i e).filt = s.filt := rfl
@[simp] theorem State.setEnv_lfo (s : State) (i : Nat) (e : Env) : (s.setEnv i e).lfo = s.lfo := rfl
@[simp] theorem State.setEnv_mem (s : State) (i : Nat) (e : Env) : (s.setEnv i e).mem = s.mem := rfl
@[simp] theorem State.setEnv_cmdPort (s : State) (i : Nat) (e : Env) : (s.setEnv i e).cmdPort = s.cmdPort := rfl
@[simp] theorem State.setEnv_respPort (s : State) (i : Nat) (e : Env) : (s.setEnv i e).respPort = s.respPort := rfl
@[simp] theorem State.setEnv_position (s : State) (i : Nat) (e : Env) : (s.setEnv i e).position = s.position := rfl

@[simp] theorem State.setFilt_params (s : State) (i : Nat) (f : Filt) : (s.setFilt i f).params = s.params := rfl
@[simp] theorem State.setFilt_err (s : State) (i : Nat) (f : Filt) : (s.setFilt i f).err = s.err := rfl
@[simp] theorem State.setFilt_osc (s : State) (i : Nat) (f : Filt) : (s.setFilt i f).osc = s.osc := rfl
@[simp] theorem State.setFilt_env (s : State) (i : Nat) (f : Filt) : (s.setFilt i f).env = s.env := rfl
@[simp] theorem State.setFilt_filt (s : State) (i : Nat) (f : Filt) : (s.setFilt i f).filt = s.filt.set i f := rfl
@[simp] theorem State.setFilt_lfo (s : State) (i : Nat) (f : Filt) : (s.setFilt i f).lfo = s.lfo := rfl
@[simp] theorem State.setFilt_mem (s : State) (i : Nat) (f : Filt) : (s.setFilt i f).mem = s.mem := rfl
@[simp] theorem State.setFilt_cmdPort (s : State) (i : Nat) (f : Filt) : (s.setFilt i f).cmdPort = s.cmdPort := rfl
@[simp] theorem State.setFilt_respPort (s : State) (i : Nat) (f : Filt) : (s.setFilt i f).respPort = s.respPort := rfl
@[simp] theorem State.setFilt_position (s : State) (i : Nat) (f : Filt) : (s.setFilt i f).position = s.position := rfl

@[simp] theorem State.memWrite_params (s : State) (b n : Nat) (v : F64) : (s.memWrite b n v).params = s.params := rfl
@[simp] theorem State.memWrite_err (s : State) (b n : Nat) (v : F64) : (s.memWrite b n v).err = s.err := rfl
@[simp] theorem State.memWrite_osc (s : State) (b n : Nat) (v : F64) : (s.memWrite b n v).osc = s.osc := rfl
@[simp] theorem State.memWrite_env (s : State) (b n : Nat) (v : F64) : (s.memWrite b n v).env = s.env := rfl
@[simp] theorem State.memWrite_filt (s : State) (b n : Nat) (v : F64) : (s.memWrite b n v).filt = s.filt := rfl
@[simp] theorem State.memWrite_lfo (s : State) (b n : Nat) (v : F64) : (s.memWrite b n v).lfo = s.lfo := rfl
@[simp] theorem State.memWrite_mem (s : State) (b n : Nat) (v : F64) : (s.memWrite b n v).mem = writeWord s.mem (wordAddr s.params.n b n) v := rfl
@[simp] theorem State.memWrite_cmdPort (s : State) (b n : Nat) (v : F64) : (s.memWrite b n v).cmdPort = s.cmdPort := rfl
@[simp] theorem State.memWrite_respPort (s : State) (b n : Nat) (v : F64) : (s.memWrite b n v).respPort = s.respPort := rfl
@[simp] theorem State.memWrite_position (s : State) (b n : Nat) (v : F64) : (s.memWrite b n v).position = s.position := rfl

@[simp] theorem State.resetAll_params (s : State) : (s.resetAll).params = s.params := rfl
@[simp] theorem State.resetAll_err (s : State) : (s.resetAll).err = .reset := rfl
@[simp] theorem State.resetAll_osc (s : State) : (s.resetAll).osc = List.replicate s.params.numOsc .reset := rfl
@[simp] theorem State.resetAll_env (s : State) : (s.resetAll).env = List.replicate s.params.numEnv .reset := rfl
@[simp] theorem State.resetAll_filt (s : State) : (s.resetAll).filt = List.replicate s.params.numFilt .reset := rfl
@[simp] theorem State.resetAll_lfo (s : State) : (s.resetAll).lfo = .reset := rfl
@[simp] theorem State.resetAll_mem (s : State) : (s.resetAll).mem = [] := rfl
@[simp] theorem State.resetAll_cmdPort (s : State) : (s.resetAll).cmdPort = s.cmdPort := rfl
@[simp] theorem State.resetAll_respPort (s : State) : (s.resetAll).respPort = s.respPort := rfl
@[simp] theorem State.resetAll_position (s : State) : (s.resetAll).position = s.position := rfl

theorem length_setOsc (s : State) (i : Nat) (o : Osc) : (s.setOsc i o).osc.length = s.osc.length := by simp
theorem length_setEnv (s : State) (i : Nat) (e : Env) : (s.setEnv i e).env.length = s.env.length := by simp
theorem length_setFilt (s : State) (i : Nat) (f : Filt) : (s.setFilt i f).filt.length = s.filt.length := by simp

/-- A unit's state is one of the list's, or the reset state where the index is past the list. -/
theorem oscAt_mem (s : State) {i : Nat} (h : i < s.osc.length) : s.oscAt i ∈ s.osc := by
  unfold State.oscAt
  rw [List.getD_eq_getElem _ _ h]
  exact List.getElem_mem h

theorem envAt_mem (s : State) {i : Nat} (h : i < s.env.length) : s.envAt i ∈ s.env := by
  unfold State.envAt
  rw [List.getD_eq_getElem _ _ h]
  exact List.getElem_mem h

theorem filtAt_mem (s : State) {i : Nat} (h : i < s.filt.length) : s.filtAt i ∈ s.filt := by
  unfold State.filtAt
  rw [List.getD_eq_getElem _ _ h]
  exact List.getElem_mem h

/-- Replacing one unit keeps a property that every unit had and the new one has. -/
theorem forall_mem_set {α : Type} {p : α → Prop} {l : List α} {i : Nat} {a : α} (hl : ∀ x ∈ l, p x) (ha : p a) :
    ∀ x ∈ l.set i a, p x := by
  intro x hx
  rcases List.mem_or_eq_of_mem_set hx with h | h
  · exact hl x h
  · exact h ▸ ha

end Sys2Proof.Machine
end

