-- ==== Sys2Proof/Laws/Command.lean ====
section
/-!
SUPPORT. Each command in one form: `exec` is `command` on the command's header, the check of R312 as Table E1 gives it
(`Instr.failure`), its effect and its result. And what `command` answers.
-/

set_option linter.unusedSimpArgs false

namespace Sys2Proof.Machine

/-- A command always answers a next state: the refusal of its failing check, or its effect and response (R313). -/
theorem command_refused (hdr : Word) (st : Status) (s t : State) (r : Option U64) :
    command hdr (some st) s t r = .next (s.refuse st hdr) := rfl

theorem command_performed (hdr : Word) (s t : State) (r : Option U64) :
    command hdr none s t r = .next (t.respond (opcOf hdr) r) := rfl

/-! ### The checks (R310-R312) -/

theorem firstFailure_true : firstFailure true true true true true = none := rfl

/-- The first failing check in the order of R312, from the checks' truth. -/
theorem firstFailure_eq (a b c d e : Bool) :
    firstFailure a b c d e =
      if a = false then some .badField else if b = false then some .badInstance else if c = false then some .badBuffer
      else if d = false then some .nonfiniteOperand else if e = false then some .badIndex else none := by
  cases a <;> cases b <;> cases c <;> cases d <;> cases e <;> rfl

theorem firstFailure_none {a b c d e : Bool} :
    firstFailure a b c d e = none ↔ a = true ∧ b = true ∧ c = true ∧ d = true ∧ e = true := by
  cases a <;> cases b <;> cases c <;> cases d <;> cases e <;> simp [firstFailure]

theorem regValue_isSome (s : State) (cls : Byte) (i r : Nat) :
    (regValue s cls i r).isSome = decide (r < registerCount cls) := by
  unfold regValue registerCount
  split
  · unfold coreRegister
    split <;> simp_all
    omega
  · unfold oscRegister
    split <;> simp_all
    omega
  · unfold envRegister
    split <;> simp_all
    omega
  · unfold filtRegister
    split <;> simp_all
    omega
  · unfold lfoRegister
    split <;> simp_all
    omega
  · simp_all

/-- The check of R312 read off Table E1 is `firstFailure` of the five checks. -/
theorem failure_eq (i : Instr) (p : Params) {inst : Byte} (h : i.inst = inst) :
    i.failure p = firstFailure i.wellFormed (!(i.instanceCount p).any (fun c => c ≤ inst.toNat))
      (!i.bufferField.any (fun b => p.numBuf ≤ b.toNat)) (!i.realOperands.any (fun x => !isFinite x))
      (!i.indexOperand.any (fun n => p.n ≤ n.toNat)) := by
  subst h
  rw [firstFailure_eq]
  unfold Instr.failure
  simp only [Bool.not_eq_eq_eq_not, Bool.not_false]

/-- A command is performed exactly when none of the five checks fails. -/
theorem failure_none_iff {i : Instr} {p : Params} :
    i.failure p = none ↔ i.wellFormed = true ∧ (∀ c, i.instanceCount p = some c → i.inst.toNat < c) ∧
      (∀ b, i.bufferField = some b → b.toNat < p.numBuf) ∧ (∀ x ∈ i.realOperands, isFinite x = true) ∧
      ∀ n, i.indexOperand = some n → n.toNat < p.n := by
  rw [failure_eq i p rfl, firstFailure_none]
  cases i.instanceCount p <;> cases i.bufferField <;> cases i.indexOperand <;> simp

/-- A failing check has a status other than OK. -/
theorem failure_ne_ok (i : Instr) (p : Params) : i.failure p ≠ some .ok := by
  rw [failure_eq i p rfl]
  unfold firstFailure
  repeat' split
  all_goals simp

/-! ### Each command -/

theorem execNop_eq (inst fa fb : Byte) (s : State) :
    exec (.nop inst fa fb) s =
      command (Instr.nop inst fa fb).header ((Instr.nop inst fa fb).failure s.params) s
        s none := by
  simp only [exec, execNop, Instr.header, Instr.opc, Instr.inst, Instr.fa, Instr.fb]
  rw [failure_eq (inst := inst) _ _ rfl]
  congr 2

theorem execCoreReset_eq (inst fa fb : Byte) (s : State) :
    exec (.coreReset inst fa fb) s =
      command (Instr.coreReset inst fa fb).header ((Instr.coreReset inst fa fb).failure s.params) s
        s.resetAll none := by
  simp only [exec, execCoreReset, Instr.header, Instr.opc, Instr.inst, Instr.fa, Instr.fb]
  rw [failure_eq (inst := inst) _ _ rfl]
  congr 2

theorem execRegRead_eq (inst fa fb : Byte) (s : State) :
    exec (.regRead inst fa fb) s =
      command (Instr.regRead inst fa fb).header ((Instr.regRead inst fa fb).failure s.params) s
        s (regValue s fa inst.toNat fb.toNat) := by
  simp only [exec, execRegRead, Instr.header, Instr.opc, Instr.inst, Instr.fa, Instr.fb]
  rw [failure_eq (inst := inst) _ _ rfl]
  congr 2 <;>
    (rw [Bool.eq_iff_iff]; simp [Instr.wellFormed, Instr.instanceCount, Instr.bufferField, Instr.realOperands,
    Instr.indexOperand, isZeroField, isEnumField, isInstance, isBuffer, isIndex, allFinite, regValue_isSome, Instr.inst,
    Params.numLfo])

theorem execErrClear_eq (inst fa fb : Byte) (s : State) :
    exec (.errClear inst fa fb) s =
      command (Instr.errClear inst fa fb).header ((Instr.errClear inst fa fb).failure s.params) s
        { s with err := .reset } none := by
  simp only [exec, execErrClear, Instr.header, Instr.opc, Instr.inst, Instr.fa, Instr.fb]
  rw [failure_eq (inst := inst) _ _ rfl]
  congr 2

theorem execBufWrite_eq (inst fa fb : Byte) (n : U64) (value : F64) (s : State) :
    exec (.bufWrite inst fa fb n value) s =
      command (Instr.bufWrite inst fa fb n value).header ((Instr.bufWrite inst fa fb n value).failure s.params) s
        (s.memWrite fa.toNat n.toNat value) none := by
  simp only [exec, execBufWrite, Instr.header, Instr.opc, Instr.inst, Instr.fa, Instr.fb]
  rw [failure_eq (inst := inst) _ _ rfl]
  congr 2 <;>
    (rw [Bool.eq_iff_iff]; simp [Instr.wellFormed, Instr.instanceCount, Instr.bufferField, Instr.realOperands,
    Instr.indexOperand, isZeroField, isEnumField, isInstance, isBuffer, isIndex, allFinite, regValue_isSome, Instr.inst,
    Params.numLfo])

theorem execBufRead_eq (inst fa fb : Byte) (n : U64) (s : State) :
    exec (.bufRead inst fa fb n) s =
      command (Instr.bufRead inst fa fb n).header ((Instr.bufRead inst fa fb n).failure s.params) s
        s (some (s.memRead fa.toNat n.toNat)) := by
  simp only [exec, execBufRead, Instr.header, Instr.opc, Instr.inst, Instr.fa, Instr.fb]
  rw [failure_eq (inst := inst) _ _ rfl]
  congr 2 <;>
    (rw [Bool.eq_iff_iff]; simp [Instr.wellFormed, Instr.instanceCount, Instr.bufferField, Instr.realOperands,
    Instr.indexOperand, isZeroField, isEnumField, isInstance, isBuffer, isIndex, allFinite, regValue_isSome, Instr.inst,
    Params.numLfo])

theorem execBufClear_eq (inst fa fb : Byte) (s : State) :
    exec (.bufClear inst fa fb) s =
      command (Instr.bufClear inst fa fb).header ((Instr.bufClear inst fa fb).failure s.params) s
        { s with mem := (s.sweepBuffer fa.toNat clearWord ()).2 } none := by
  simp only [exec, execBufClear, Instr.header, Instr.opc, Instr.inst, Instr.fa, Instr.fb]
  rw [failure_eq (inst := inst) _ _ rfl]
  congr 2 <;>
    (rw [Bool.eq_iff_iff]; simp [Instr.wellFormed, Instr.instanceCount, Instr.bufferField, Instr.realOperands,
    Instr.indexOperand, isZeroField, isEnumField, isInstance, isBuffer, isIndex, allFinite, regValue_isSome, Instr.inst,
    Params.numLfo])

theorem execOscInit_eq (inst fa fb : Byte) (s : State) :
    exec (.oscInit inst fa fb) s =
      command (Instr.oscInit inst fa fb).header ((Instr.oscInit inst fa fb).failure s.params) s
        (s.setOsc inst.toNat { waveform := waveformOf fa, phase := c0, frequency := c0 }) none := by
  simp only [exec, execOscInit, Instr.header, Instr.opc, Instr.inst, Instr.fa, Instr.fb]
  rw [failure_eq (inst := inst) _ _ rfl]
  congr 2 <;>
    (rw [Bool.eq_iff_iff]; simp [Instr.wellFormed, Instr.instanceCount, Instr.bufferField, Instr.realOperands,
    Instr.indexOperand, isZeroField, isEnumField, isInstance, isBuffer, isIndex, allFinite, regValue_isSome, Instr.inst,
    Params.numLfo])

theorem execOscRender_eq (inst fa fb : Byte) (frequency volume : F64) (s0 : U64) (detune : F64) (s : State) :
    exec (.oscRender inst fa fb frequency volume s0 detune) s =
      command (Instr.oscRender inst fa fb frequency volume s0 detune).header ((Instr.oscRender inst fa fb frequency volume s0 detune).failure s.params) s
        (oscRender s inst.toNat fa.toNat fb frequency volume s0 detune) none := by
  simp only [exec, execOscRender, Instr.header, Instr.opc, Instr.inst, Instr.fa, Instr.fb]
  rw [failure_eq (inst := inst) _ _ rfl]
  congr 2 <;>
    (rw [Bool.eq_iff_iff]; simp [Instr.wellFormed, Instr.instanceCount, Instr.bufferField, Instr.realOperands,
    Instr.indexOperand, isZeroField, isEnumField, isInstance, isBuffer, isIndex, allFinite, regValue_isSome, Instr.inst,
    Params.numLfo])

theorem execEnvInit_eq (inst fa fb : Byte) (attackMs decayMs sustainLevel releaseMs sustainMs : F64) (s : State) :
    exec (.envInit inst fa fb attackMs decayMs sustainLevel releaseMs sustainMs) s =
      command (Instr.envInit inst fa fb attackMs decayMs sustainLevel releaseMs sustainMs).header ((Instr.envInit inst fa fb attackMs decayMs sustainLevel releaseMs sustainMs).failure s.params) s
        (s.setEnv inst.toNat (startEnvelope attackMs decayMs sustainLevel releaseMs sustainMs)) none := by
  simp only [exec, execEnvInit, Instr.header, Instr.opc, Instr.inst, Instr.fa, Instr.fb]
  rw [failure_eq (inst := inst) _ _ rfl]
  congr 2 <;>
    (rw [Bool.eq_iff_iff]; simp [Instr.wellFormed, Instr.instanceCount, Instr.bufferField, Instr.realOperands,
    Instr.indexOperand, isZeroField, isEnumField, isInstance, isBuffer, isIndex, allFinite, regValue_isSome, Instr.inst,
    Params.numLfo])

theorem execEnvStep_eq (inst fa fb : Byte) (s : State) :
    exec (.envStep inst fa fb) s =
      command (Instr.envStep inst fa fb).header ((Instr.envStep inst fa fb).failure s.params) s
        (s.setEnv inst.toNat (envSample s.params.envAlpha (s.envAt inst.toNat)).1) (some (envSample s.params.envAlpha (s.envAt inst.toNat)).2) := by
  simp only [exec, execEnvStep, Instr.header, Instr.opc, Instr.inst, Instr.fa, Instr.fb]
  rw [failure_eq (inst := inst) _ _ rfl]
  congr 2 <;>
    (rw [Bool.eq_iff_iff]; simp [Instr.wellFormed, Instr.instanceCount, Instr.bufferField, Instr.realOperands,
    Instr.indexOperand, isZeroField, isEnumField, isInstance, isBuffer, isIndex, allFinite, regValue_isSome, Instr.inst,
    Params.numLfo])

theorem execEnvApply_eq (inst fa fb : Byte) (s : State) :
    exec (.envApply inst fa fb) s =
      command (Instr.envApply inst fa fb).header ((Instr.envApply inst fa fb).failure s.params) s
        (envApply s inst.toNat fa.toNat) none := by
  simp only [exec, execEnvApply, Instr.header, Instr.opc, Instr.inst, Instr.fa, Instr.fb]
  rw [failure_eq (inst := inst) _ _ rfl]
  congr 2 <;>
    (rw [Bool.eq_iff_iff]; simp [Instr.wellFormed, Instr.instanceCount, Instr.bufferField, Instr.realOperands,
    Instr.indexOperand, isZeroField, isEnumField, isInstance, isBuffer, isIndex, allFinite, regValue_isSome, Instr.inst,
    Params.numLfo])

theorem execEnvNoteOff_eq (inst fa fb : Byte) (s : State) :
    exec (.envNoteOff inst fa fb) s =
      command (Instr.envNoteOff inst fa fb).header ((Instr.envNoteOff inst fa fb).failure s.params) s
        (s.setEnv inst.toNat (noteOff (s.envAt inst.toNat))) none := by
  simp only [exec, execEnvNoteOff, Instr.header, Instr.opc, Instr.inst, Instr.fa, Instr.fb]
  rw [failure_eq (inst := inst) _ _ rfl]
  congr 2 <;>
    (rw [Bool.eq_iff_iff]; simp [Instr.wellFormed, Instr.instanceCount, Instr.bufferField, Instr.realOperands,
    Instr.indexOperand, isZeroField, isEnumField, isInstance, isBuffer, isIndex, allFinite, regValue_isSome, Instr.inst,
    Params.numLfo])

theorem execFiltUpdate_eq (inst fa fb : Byte) (cutoff qIn : F64) (s : State) :
    exec (.filtUpdate inst fa fb cutoff qIn) s =
      command (Instr.filtUpdate inst fa fb cutoff qIn).header ((Instr.filtUpdate inst fa fb cutoff qIn).failure s.params) s
        (s.setFilt inst.toNat (updateFilter (s.filtAt inst.toNat) (filtTypeOf fa) cutoff qIn)) none := by
  simp only [exec, execFiltUpdate, Instr.header, Instr.opc, Instr.inst, Instr.fa, Instr.fb]
  rw [failure_eq (inst := inst) _ _ rfl]
  congr 2 <;>
    (rw [Bool.eq_iff_iff]; simp [Instr.wellFormed, Instr.instanceCount, Instr.bufferField, Instr.realOperands,
    Instr.indexOperand, isZeroField, isEnumField, isInstance, isBuffer, isIndex, allFinite, regValue_isSome, Instr.inst,
    Params.numLfo])

theorem execFiltReset_eq (inst fa fb : Byte) (s : State) :
    exec (.filtReset inst fa fb) s =
      command (Instr.filtReset inst fa fb).header ((Instr.filtReset inst fa fb).failure s.params) s
        (s.setFilt inst.toNat (resetFilter (s.filtAt inst.toNat))) none := by
  simp only [exec, execFiltReset, Instr.header, Instr.opc, Instr.inst, Instr.fa, Instr.fb]
  rw [failure_eq (inst := inst) _ _ rfl]
  congr 2 <;>
    (rw [Bool.eq_iff_iff]; simp [Instr.wellFormed, Instr.instanceCount, Instr.bufferField, Instr.realOperands,
    Instr.indexOperand, isZeroField, isEnumField, isInstance, isBuffer, isIndex, allFinite, regValue_isSome, Instr.inst,
    Params.numLfo])

theorem execFiltProcess_eq (inst fa fb : Byte) (x : F64) (s : State) :
    exec (.filtProcess inst fa fb x) s =
      command (Instr.filtProcess inst fa fb x).header ((Instr.filtProcess inst fa fb x).failure s.params) s
        (s.setFilt inst.toNat (filtSample s.params.filtSmoothK (s.filtAt inst.toNat) x).1) (some (filtSample s.params.filtSmoothK (s.filtAt inst.toNat) x).2) := by
  simp only [exec, execFiltProcess, Instr.header, Instr.opc, Instr.inst, Instr.fa, Instr.fb]
  rw [failure_eq (inst := inst) _ _ rfl]
  congr 2 <;>
    (rw [Bool.eq_iff_iff]; simp [Instr.wellFormed, Instr.instanceCount, Instr.bufferField, Instr.realOperands,
    Instr.indexOperand, isZeroField, isEnumField, isInstance, isBuffer, isIndex, allFinite, regValue_isSome, Instr.inst,
    Params.numLfo])

theorem execFiltApply_eq (inst fa fb : Byte) (s : State) :
    exec (.filtApply inst fa fb) s =
      command (Instr.filtApply inst fa fb).header ((Instr.filtApply inst fa fb).failure s.params) s
        (filtApply s inst.toNat fa.toNat) none := by
  simp only [exec, execFiltApply, Instr.header, Instr.opc, Instr.inst, Instr.fa, Instr.fb]
  rw [failure_eq (inst := inst) _ _ rfl]
  congr 2 <;>
    (rw [Bool.eq_iff_iff]; simp [Instr.wellFormed, Instr.instanceCount, Instr.bufferField, Instr.realOperands,
    Instr.indexOperand, isZeroField, isEnumField, isInstance, isBuffer, isIndex, allFinite, regValue_isSome, Instr.inst,
    Params.numLfo])

theorem execLfoEnable_eq (inst fa fb : Byte) (s : State) :
    exec (.lfoEnable inst fa fb) s =
      command (Instr.lfoEnable inst fa fb).header ((Instr.lfoEnable inst fa fb).failure s.params) s
        { s with lfo := enableLfo s.lfo (decide (fa = 1)) } none := by
  simp only [exec, execLfoEnable, Instr.header, Instr.opc, Instr.inst, Instr.fa, Instr.fb]
  rw [failure_eq (inst := inst) _ _ rfl]
  congr 2 <;>
    (rw [Bool.eq_iff_iff]; simp [Instr.wellFormed, Instr.instanceCount, Instr.bufferField, Instr.realOperands,
    Instr.indexOperand, isZeroField, isEnumField, isInstance, isBuffer, isIndex, allFinite, regValue_isSome, Instr.inst,
    Params.numLfo])

theorem execLfoStep_eq (inst fa fb : Byte) (rate depth : F64) (s : State) :
    exec (.lfoStep inst fa fb rate depth) s =
      command (Instr.lfoStep inst fa fb rate depth).header ((Instr.lfoStep inst fa fb rate depth).failure s.params) s
        { s with lfo := (lfoSample s.params.lfoAlpha s.lfo rate depth).1 } (some (lfoSample s.params.lfoAlpha s.lfo rate depth).2) := by
  simp only [exec, execLfoStep, Instr.header, Instr.opc, Instr.inst, Instr.fa, Instr.fb]
  rw [failure_eq (inst := inst) _ _ rfl]
  congr 2 <;>
    (rw [Bool.eq_iff_iff]; simp [Instr.wellFormed, Instr.instanceCount, Instr.bufferField, Instr.realOperands,
    Instr.indexOperand, isZeroField, isEnumField, isInstance, isBuffer, isIndex, allFinite, regValue_isSome, Instr.inst,
    Params.numLfo])

/-! ### All commands at once -/

/-- What a command does to the state when no check fails, its response apart. -/
def effect (i : Instr) (s : State) : State :=
  match i with
  | .nop _ _ _ => s
  | .coreReset _ _ _ => s.resetAll
  | .regRead _ _ _ => s
  | .errClear _ _ _ => { s with err := .reset }
  | .bufWrite _ fa _ n value => s.memWrite fa.toNat n.toNat value
  | .bufRead _ _ _ _ => s
  | .bufClear _ fa _ => { s with mem := (s.sweepBuffer fa.toNat clearWord ()).2 }
  | .oscInit inst fa _ => s.setOsc inst.toNat { waveform := waveformOf fa, phase := c0, frequency := c0 }
  | .oscRender inst fa fb frequency volume s0 detune => oscRender s inst.toNat fa.toNat fb frequency volume s0 detune
  | .envInit inst _ _ attackMs decayMs sustainLevel releaseMs sustainMs => s.setEnv inst.toNat (startEnvelope attackMs decayMs sustainLevel releaseMs sustainMs)
  | .envStep inst _ _ => s.setEnv inst.toNat (envSample s.params.envAlpha (s.envAt inst.toNat)).1
  | .envApply inst fa _ => envApply s inst.toNat fa.toNat
  | .envNoteOff inst _ _ => s.setEnv inst.toNat (noteOff (s.envAt inst.toNat))
  | .filtUpdate inst fa _ cutoff qIn => s.setFilt inst.toNat (updateFilter (s.filtAt inst.toNat) (filtTypeOf fa) cutoff qIn)
  | .filtReset inst _ _ => s.setFilt inst.toNat (resetFilter (s.filtAt inst.toNat))
  | .filtProcess inst _ _ x => s.setFilt inst.toNat (filtSample s.params.filtSmoothK (s.filtAt inst.toNat) x).1
  | .filtApply inst fa _ => filtApply s inst.toNat fa.toNat
  | .lfoEnable _ fa _ => { s with lfo := enableLfo s.lfo (decide (fa = 1)) }
  | .lfoStep _ _ _ rate depth => { s with lfo := (lfoSample s.params.lfoAlpha s.lfo rate depth).1 }

/-- What a command answers when no check fails. -/
def result (i : Instr) (s : State) : Option U64 :=
  match i with
  | .nop _ _ _ => none
  | .coreReset _ _ _ => none
  | .regRead inst fa fb => regValue s fa inst.toNat fb.toNat
  | .errClear _ _ _ => none
  | .bufWrite _ _ _ _ _ => none
  | .bufRead _ fa _ n => some (s.memRead fa.toNat n.toNat)
  | .bufClear _ _ _ => none
  | .oscInit _ _ _ => none
  | .oscRender _ _ _ _ _ _ _ => none
  | .envInit _ _ _ _ _ _ _ _ => none
  | .envStep inst _ _ => some (envSample s.params.envAlpha (s.envAt inst.toNat)).2
  | .envApply _ _ _ => none
  | .envNoteOff _ _ _ => none
  | .filtUpdate _ _ _ _ _ => none
  | .filtReset _ _ _ => none
  | .filtProcess inst _ _ x => some (filtSample s.params.filtSmoothK (s.filtAt inst.toNat) x).2
  | .filtApply _ _ _ => none
  | .lfoEnable _ _ _ => none
  | .lfoStep _ _ _ rate depth => some (lfoSample s.params.lfoAlpha s.lfo rate depth).2

theorem exec_eq (i : Instr) (s : State) :
    exec i s = command i.header (i.failure s.params) s (effect i s) (result i s) := by
  cases i
  · exact execNop_eq ..
  · exact execCoreReset_eq ..
  · exact execRegRead_eq ..
  · exact execErrClear_eq ..
  · exact execBufWrite_eq ..
  · exact execBufRead_eq ..
  · exact execBufClear_eq ..
  · exact execOscInit_eq ..
  · exact execOscRender_eq ..
  · exact execEnvInit_eq ..
  · exact execEnvStep_eq ..
  · exact execEnvApply_eq ..
  · exact execEnvNoteOff_eq ..
  · exact execFiltUpdate_eq ..
  · exact execFiltReset_eq ..
  · exact execFiltProcess_eq ..
  · exact execFiltApply_eq ..
  · exact execLfoEnable_eq ..
  · exact execLfoStep_eq ..

/-- A command of which no check fails. -/
theorem exec_performed {i : Instr} {s : State} (h : i.failure s.params = none) :
    exec i s = .next ((effect i s).respond i.opc (result i s)) := by
  rw [exec_eq, h, command_performed, opcOf_header]

/-- A command of which a check fails. -/
theorem exec_refused {i : Instr} {s : State} {st : Status} (h : i.failure s.params = some st) :
    exec i s = .next (s.refuse st i.header) := by
  rw [exec_eq, h, command_refused]

/-- A response as the statements write it. -/
theorem respond_eq_answered (s : State) (opc : Byte) (r : Option U64) : s.respond opc r = s.answered opc r.toList := by
  cases r <;> rfl

end Sys2Proof.Machine
end

