-- ==== Sys2Proof/Laws/Host.lean ====
section
/-!
SUPPORT. What the host's program can do to its link to the block: one lemma per function of Machine/HostContract.lean, each
from the lemmas of the functions it calls, so that none is unfolded again.
-/

namespace Sys2Proof.Machine

/-- What every part of the host's program keeps: what the host knows of the block, a failure once seen, and that the host
does not fail otherwise where it was not to (R297, R343). -/
structure Link.Keeps (l m : Link) : Prop where
  known : m.known = l.known
  failed : l.failed = true → m.failed = true
  budget : l.budget = none → m.budget = none

namespace Link.Keeps

theorem refl (l : Link) : l.Keeps l := ⟨rfl, id, id⟩

theorem trans {l m n : Link} (h : l.Keeps m) (k : m.Keeps n) : l.Keeps n :=
  ⟨k.known.trans h.known, fun f => k.failed (h.failed f), fun b => k.budget (h.budget b)⟩

/-- A fold keeps what each of its steps keeps. -/
theorem foldl {α β : Type} {link : β → Link} {f : β → α → β} (hf : ∀ b a, (link b).Keeps (link (f b a))) :
    ∀ (as : List α) (b : β), (link b).Keeps (link (as.foldl f b))
  | [], _ => refl _
  | a :: as, b => (hf b a).trans (foldl hf as (f b a))

end Link.Keeps

theorem send_keeps (l : Link) (i : Instr) : l.Keeps (l.send i).1 := by
  unfold Link.send
  split
  · exact .refl l
  · exact ⟨rfl, fun h => by simp [h], fun h => by simp [h]⟩

/-- A command that the block refuses fails the buffer, unless the host has failed already. -/
theorem send_failed {l : Link} {i : Instr} (h : l.halted = false) (hr : isOkResponse (exchange l.block i).2 = false) :
    (l.send i).1.failed = true := by
  unfold Link.send
  simp [h, hr]

theorem send_halted {l : Link} (h : l.halted = true) (i : Instr) : l.send i = (l, none) := by
  simp [Link.send, h]

theorem halted_of_budget_none {l : Link} (h : l.budget = none) : l.halted = false := by simp [Link.halted, h]

theorem sendAll_keeps (l : Link) (is : List Instr) : l.Keeps (l.sendAll is) :=
  Link.Keeps.foldl (link := id) send_keeps is l

theorem inactive_keeps (l : Link) (v : Nat) : l.Keeps (l.inactive v).1 := send_keeps l _

theorem combineBuffers_keeps (h : HostParams) (l : Link) : l.Keeps (l.combineBuffers h) :=
  Link.Keeps.foldl (link := id)
    (fun l _ => (send_keeps l _).trans ((send_keeps _ _).trans (send_keeps _ _))) _ l

theorem readPcm_keeps (h : HostParams) (mv : F64) (l : Link) : l.Keeps (l.readPcm h mv).1 :=
  Link.Keeps.foldl (β := Link × List Int) (link := Prod.fst) (fun r _ => send_keeps r.1 _) _ (l, [])

theorem voiceTick_keeps (h : HostParams) (v : Nat) (p : Snapshot) (l : Link) (voice : Voice) :
    l.Keeps (voiceTick h v p l voice).1 := by
  have hi := inactive_keeps l v
  unfold voiceTick
  split <;> rename_i m heq <;> rw [heq] at hi
  · exact hi
  · refine hi.trans (.trans ?_ (readPcm_keeps h p.masterVolume _))
    exact (sendAll_keeps _ _).trans ((combineBuffers_keeps h _).trans ((sendAll_keeps _ _).trans (sendAll_keeps _ _)))

theorem noteOn_keeps (h : HostParams) (now : Nat) (p : Snapshot) (f : F64) (l : Link) (b : Bank) :
    l.Keeps (noteOn h now p f l b).1 := by
  unfold noteOn
  dsimp only
  split
  · exact .refl l
  · exact sendAll_keeps l _

theorem noteOffAt_keeps (f : F64) (l : Link) (b : Bank) : l.Keeps (noteOffAt f l b).1 := by
  unfold noteOffAt
  split
  · exact .refl l
  · exact send_keeps l _

theorem takeEvent_keeps (h : HostParams) (now : Nat) (p : Snapshot) (e : NoteEvent) (l : Link) (b : Bank) :
    l.Keeps (takeEvent h now p e l b).1 := by
  cases e
  · exact noteOn_keeps h now p _ l b
  · exact noteOffAt_keeps _ l b

theorem drainEvents_keeps (h : HostParams) (now : Nat) (p : Snapshot) :
    ∀ (es : List NoteEvent) (l : Link) (b : Bank), l.Keeps (drainEvents h now p es l b).1
  | [], l, _ => .refl l
  | e :: es, l, b => by
    unfold drainEvents
    split
    · exact .refl l
    · exact (takeEvent_keeps h now p e l b).trans (drainEvents_keeps h now p es _ _)

theorem sumVoices_keeps (h : HostParams) (p : Snapshot) (l : Link) (b : Bank) : l.Keeps (sumVoices h p l b).1 := by
  refine Link.Keeps.foldl (link := Prod.fst) (fun r v => ?_) _ (l, b, _)
  dsimp only
  split
  · exact .refl _
  · exact voiceTick_keeps h v p r.1 _

theorem prune_keeps (h : HostParams) (now : Nat) (l : Link) (b : Bank) : l.Keeps (prune h now l b).1 := by
  refine Link.Keeps.foldl (link := Prod.fst) (fun r v => ?_) _ (l, b)
  have hi := inactive_keeps r.1 v
  split
  · exact .refl _
  · split <;> rename_i m heq <;> rw [heq] at hi
    · split <;> exact hi
    · exact hi

theorem mixVoices_keeps (h : HostParams) (now : Nat) (p : Snapshot) (l : Link) (b : Bank) :
    l.Keeps (mixVoices h now p l b).1 :=
  (sumVoices_keeps h p l b).trans (prune_keeps h now _ _)

/-! ### The Mixer's records -/

@[simp] theorem Sink.write_of_open (k : Sink) (buffer : List Byte) (h : k.isOpen = true) :
    k.write buffer = { k with written := k.written ++ [buffer] } := by simp [Sink.write, h]
@[simp] theorem Sink.release_written (k : Sink) : k.release.written = k.written := rfl
@[simp] theorem Sink.release_isOpen (k : Sink) : k.release.isOpen = false := rfl
@[simp] theorem Synth.stop_running (y : Synth) : y.stop.running = false := rfl
@[simp] theorem Synth.stop_mixer (y : Synth) : y.stop.mixer = y.mixer := rfl
@[simp] theorem Synth.stop_link (y : Synth) : y.stop.link = y.link := rfl
@[simp] theorem Synth.stop_sink (y : Synth) : y.stop.sink = y.sink := rfl
@[simp] theorem Synth.post_mixer (e : NoteEvent) (y : Synth) : (y.post e).mixer = y.mixer := rfl
@[simp] theorem Synth.post_link (e : NoteEvent) (y : Synth) : (y.post e).link = y.link := rfl
@[simp] theorem Synth.post_events (e : NoteEvent) (y : Synth) : (y.post e).events = y.events ++ [e] := rfl
@[simp] theorem Synth.clearErrors_mixer (y : Synth) : y.clearErrors.mixer = y.mixer := rfl
@[simp] theorem Synth.output_mixer (y : Synth) (buffer : List Byte) : (y.output buffer).mixer = y.mixer := rfl
@[simp] theorem Synth.output_link (y : Synth) (buffer : List Byte) : (y.output buffer).link = y.link := rfl
@[simp] theorem Synth.drain_mixer (y : Synth) : y.drain.mixer = .stopped := rfl
@[simp] theorem Synth.drain_link (y : Synth) : y.drain.link = y.link := rfl

/-- A tick leaves the Mixer's own records alone. -/
theorem Synth.tick_mixer (h : HostParams) (now : Nat) (fails : Option Nat) (p : Snapshot) (y : Synth) :
    (y.tick h now fails p).1.mixer = y.mixer ∧ (y.tick h now fails p).1.running = y.running ∧
    (y.tick h now fails p).1.sink = y.sink ∧ (y.tick h now fails p).1.deadline = y.deadline := ⟨rfl, rfl, rfl, rfl⟩

end Sys2Proof.Machine
end

