-- ==== Sys2Proof/Laws/Memory.lean ====
section
/-!
SUPPORT. The buffer memory: read after write, the canonical form and the address map, and what a sweep over a buffer
leaves (R82, R83, R86, R87).
-/

namespace Sys2Proof.Machine

/-! ### One word -/

/-- An address below every listed one reads as an unlisted word. -/
theorem readWord_of_lt {m : Memory} {a : Nat} (h : ∀ c ∈ m, a < c.1) : readWord m a = unlistedWord := by
  induction m with
  | nil => rfl
  | cons c m ih =>
    have hc := h c (by simp)
    unfold readWord
    rw [if_neg (by omega)]
    exact ih fun d hd => h d (by simp [hd])

/-- Every entry a write leaves is an old one or the written one. -/
theorem mem_writeWord {m : Memory} {a : Nat} {v : F64} {c : Nat × F64} (h : c ∈ writeWord m a v) :
    c ∈ m ∨ (c = (a, v) ∧ v ≠ unlistedWord) := by
  induction m with
  | nil =>
    unfold writeWord at h
    split at h <;> simp_all
  | cons d m ih =>
    unfold writeWord at h
    split at h
    · rcases List.mem_cons.1 h with h | h
      · exact .inl (by simp [h])
      · rcases ih h with h | h
        · exact .inl (by simp [h])
        · exact .inr h
    · split at h <;> split at h <;> simp_all <;> tauto

/-- A write keeps the canonical form. -/
theorem wf_writeWord {m : Memory} (h : Memory.wf m) (a : Nat) (v : F64) : Memory.wf (writeWord m a v) := by
  obtain ⟨hp, hv⟩ := h
  refine ⟨?_, ?_⟩
  · induction m with
    | nil =>
      unfold writeWord
      split <;> simp
    | cons d m ih =>
      have hd := List.pairwise_cons.1 hp
      unfold writeWord
      split
      · rename_i hlt
        refine List.pairwise_cons.2 ⟨?_, ih hd.2 fun c hc => hv c (by simp [hc])⟩
        intro c hc
        rcases mem_writeWord hc with h | h
        · exact hd.1 c h
        · rw [h.1]
          exact hlt
      · rename_i hge
        split
        · rename_i heq
          split
          · exact hd.2
          · refine List.pairwise_cons.2 ⟨?_, hd.2⟩
            intro c hc
            rw [← heq]
            exact hd.1 c hc
        · rename_i hne
          split
          · exact hp
          · refine List.pairwise_cons.2 ⟨?_, hp⟩
            intro c hc
            rcases List.mem_cons.1 hc with h | h
            · rw [h]
              dsimp only
              omega
            · have := hd.1 c h
              dsimp only
              omega
  · intro c hc
    rcases mem_writeWord hc with h | h
    · exact hv c h
    · rw [h.1]
      exact h.2

/-- A read after a write: the written word, and every other word as before. -/
theorem readWord_writeWord {m : Memory} (h : Memory.wf m) (a b : Nat) (v : F64) :
    readWord (writeWord m a v) b = if b = a then v else readWord m b := by
  induction m with
  | nil =>
    unfold writeWord
    split
    · rename_i hv
      split <;> simp [readWord, hv]
    · simp only [readWord]
      split <;> split <;> first | rfl | omega
  | cons d m ih =>
    have hd := List.pairwise_cons.1 h.1
    have ih' := ih ⟨hd.2, fun c hc => h.2 c (by simp [hc])⟩
    unfold writeWord
    split
    · rename_i hlt
      simp only [readWord, ih']
      split
      · rw [if_neg (by omega)]
      · rfl
    · split
      · rename_i heq
        split
        · rename_i hv
          simp only [readWord]
          split
          · rename_i hb
            rw [hv]
            exact readWord_of_lt fun c hc => by have := hd.1 c hc; omega
          · rw [if_neg (by omega)]
        · simp only [readWord]
          by_cases hb : b = a
          · rw [if_pos hb.symm, if_pos hb]
          · rw [if_neg (by omega), if_neg hb, if_neg (by omega)]
      · split
        · rename_i hv
          split
          · rename_i hb
            rw [hv]
            apply readWord_of_lt
            intro c hc
            rcases List.mem_cons.1 hc with h1 | h1
            · rw [h1]
              omega
            · have := hd.1 c h1
              omega
          · rfl
        · simp only [readWord]
          by_cases hb : b = a
          · rw [if_pos hb.symm, if_pos hb]
          · rw [if_neg (by omega), if_neg hb]

theorem mapped_writeWord {p : Params} {m : Memory} (h : Memory.mapped p m) {a : Nat} (ha : a < p.numBuf * p.n)
    (v : F64) : Memory.mapped p (writeWord m a v) := by
  intro c hc
  rcases mem_writeWord hc with h1 | h1
  · exact h c h1
  · rw [h1.1]
    exact ha

theorem finite_writeWord {m : Memory} (h : Memory.finite m) (a : Nat) {v : F64} (hv : isFinite v = true) :
    Memory.finite (writeWord m a v) := by
  intro c hc
  rcases mem_writeWord hc with h1 | h1
  · exact h c h1
  · rw [h1.1]
    exact hv

/-- Every word of a memory that lists finite words is finite: an unlisted one is +0.0 (R83). -/
theorem finite_readWord {m : Memory} (h : Memory.finite m) (a : Nat) : isFinite (readWord m a) = true := by
  induction m with
  | nil => exact (by decide : isFinite c0 = true)
  | cons d m ih =>
    unfold readWord
    split
    · exact h d (by simp)
    · exact ih fun c hc => h c (by simp [hc])

/-- The address of a word of a buffer lies in the address map. -/
theorem wordAddr_lt {p : Params} {b n : Nat} (hb : b < p.numBuf) (hn : n < p.n) : wordAddr p.n b n < p.numBuf * p.n := by
  unfold wordAddr
  calc b * p.n + n < b * p.n + p.n := by omega
    _ = (b + 1) * p.n := by ring
    _ ≤ p.numBuf * p.n := Nat.mul_le_mul_right _ hb

/-- Two words of the map have one address only if they are the same word (R80). -/
theorem wordAddr_inj {N b c n k : Nat} (hn : n < N) (hk : k < N) (h : wordAddr N b n = wordAddr N c k) :
    b = c ∧ n = k := by
  unfold wordAddr at h
  have hN : 0 < N := by omega
  have hdiv : ∀ x y : Nat, y < N → (x * N + y) / N = x ∧ (x * N + y) % N = y := by
    intro x y hy
    constructor
    · rw [Nat.mul_comm, Nat.mul_add_div hN, Nat.div_eq_of_lt hy, Nat.add_zero]
    · rw [Nat.mul_comm, Nat.mul_add_mod, Nat.mod_eq_of_lt hy]
  have h1 := hdiv b n hn
  have h2 := hdiv c k hk
  rw [h] at h1
  exact ⟨h1.1.symm.trans h2.1, h1.2.symm.trans h2.2⟩

/-! ### A sweep: any property that one sample step keeps -/

/-- A sweep keeps a property of the unit and one of the memory, if one sample step does. -/
theorem sweep_induct {σ : Type} {f : Nat → σ → F64 → σ × F64} {base : Nat} {P : σ → Prop} {M : Memory → Prop}
    {top : Nat} (hf : ∀ n u m, n < top → P u → M m → P (f n u (readWord m (base + n))).1 ∧
      M (writeWord m (base + n) (f n u (readWord m (base + n))).2)) :
    ∀ (count n : Nat) (u : σ) (m : Memory), n + count ≤ top → P u → M m →
      P (sweep f base count n u m).1 ∧ M (sweep f base count n u m).2 := by
  intro count
  induction count with
  | zero =>
    intro n u m _ hu hm
    exact ⟨hu, hm⟩
  | succ count ih =>
    intro n u m hn hu hm
    have h := hf n u m (by omega) hu hm
    unfold sweep
    exact ih (n + 1) _ _ (by omega) h.1 h.2

/-- A sweep keeps the canonical form. -/
theorem wf_sweep {σ : Type} (f : Nat → σ → F64 → σ × F64) (base count n : Nat) (u : σ) {m : Memory}
    (h : Memory.wf m) : Memory.wf (sweep f base count n u m).2 :=
  (sweep_induct (P := fun _ => True) (M := fun m => Memory.wf m) (top := n + count)
    (fun _ _ _ _ _ hm => ⟨trivial, wf_writeWord hm _ _⟩) count n u m le_rfl trivial h).2

/-- A sweep's words and unit state: word k becomes the sample step's value on the unit state the steps before it left
and on the word's old value; words outside the sweep keep their value. -/
theorem sweep_spec {σ : Type} (f : Nat → σ → F64 → σ × F64) (base : Nat) (count : Nat) :
    ∀ (n : Nat) (u : σ) (m : Memory), Memory.wf m →
      ∀ st : Nat → σ, st n = u → (∀ k, n ≤ k → st (k + 1) = (f k (st k) (readWord m (base + k))).1) →
        (sweep f base count n u m).1 = st (n + count) ∧
          ∀ a, readWord (sweep f base count n u m).2 a =
            if base + n ≤ a ∧ a < base + n + count then (f (a - base) (st (a - base)) (readWord m a)).2
            else readWord m a := by
  induction count with
  | zero =>
    intro n u m _ st h0 _
    refine ⟨h0.symm, fun a => ?_⟩
    rw [if_neg (by omega)]
    rfl
  | succ count ih =>
    intro n u m hm st h0 hs
    have hfirst : (f n u (readWord m (base + n))).1 = st (n + 1) := by rw [hs n le_rfl, h0]
    obtain ⟨h1, h2⟩ := ih (n + 1) (f n u (readWord m (base + n))).1
      (writeWord m (base + n) (f n u (readWord m (base + n))).2) (wf_writeWord hm _ _) st hfirst.symm (by
        intro k hk
        rw [hs k (by omega), readWord_writeWord hm, if_neg (by omega)])
    unfold sweep
    refine ⟨?_, fun a => ?_⟩
    · rw [show n + (count + 1) = n + 1 + count by omega]
      exact h1
    · dsimp only
      rw [h2 a, readWord_writeWord hm]
      by_cases ha : a = base + n
      · have hsub : a - base = n := by omega
        rw [if_neg (by omega), if_pos ha, if_pos (by omega), hsub, h0, ha]
      · by_cases hin : base + (n + 1) ≤ a ∧ a < base + (n + 1) + count
        · rw [if_pos hin, if_neg ha, if_pos (by omega)]
        · rw [if_neg hin, if_neg ha, if_neg (by omega)]

/-- The words of a buffer command: word k of buffer b becomes the sample step's value on the unit state the steps before
it left and on the word's old value; every other word is as before. -/
theorem sweepBuffer_spec {σ : Type} {s : State} (h : Memory.wf s.mem) (b : Nat) (f : Nat → σ → F64 → σ × F64) (u : σ) :
    (s.sweepBuffer b f u).1 = sweepUnit f (wordAddr s.params.n b 0) s.mem u s.params.n ∧
    (∀ k, k < s.params.n → readWord (s.sweepBuffer b f u).2 (wordAddr s.params.n b k) =
      (f k (sweepUnit f (wordAddr s.params.n b 0) s.mem u k) (readWord s.mem (wordAddr s.params.n b k))).2) ∧
    ∀ a, (∀ k, k < s.params.n → a ≠ wordAddr s.params.n b k) →
      readWord (s.sweepBuffer b f u).2 a = readWord s.mem a := by
  obtain ⟨h1, h2⟩ := sweep_spec f (wordAddr s.params.n b 0) s.params.n 0 u s.mem h
    (sweepUnit f (wordAddr s.params.n b 0) s.mem u) rfl (fun _ _ => rfl)
  unfold State.sweepBuffer
  refine ⟨by rw [h1, Nat.zero_add], fun k hk => ?_, fun a ha => ?_⟩
  · rw [h2, if_pos (by unfold wordAddr; omega)]
    have hk' : wordAddr s.params.n b k - wordAddr s.params.n b 0 = k := by unfold wordAddr; omega
    rw [hk']
  · rw [h2, if_neg]
    intro hc
    refine ha (a - wordAddr s.params.n b 0) (by omega) ?_
    unfold wordAddr at hc ⊢
    omega

/-- A buffer command keeps a property of the unit and one of the memory, if one sample step of one of its words does. -/
theorem sweepBuffer_induct {σ : Type} {s : State} {b : Nat} {f : Nat → σ → F64 → σ × F64} {P : σ → Prop}
    {M : Memory → Prop} {u : σ} (hu : P u) (hm : M s.mem)
    (hf : ∀ n u m, n < s.params.n → P u → M m → P (f n u (readWord m (wordAddr s.params.n b n))).1 ∧
      M (writeWord m (wordAddr s.params.n b n) (f n u (readWord m (wordAddr s.params.n b n))).2)) :
    P (s.sweepBuffer b f u).1 ∧ M (s.sweepBuffer b f u).2 := by
  have ha : ∀ n, wordAddr s.params.n b 0 + n = wordAddr s.params.n b n := by
    intro n
    unfold wordAddr
    omega
  refine sweep_induct (top := s.params.n) (fun n u m hn h1 h2 => ?_) s.params.n 0 u s.mem (by omega) hu hm
  rw [ha]
  exact hf n u m hn h1 h2

/-- Two canonical memories that read the same everywhere are equal. -/
theorem wf_ext : ∀ {m m' : Memory}, Memory.wf m → Memory.wf m' → (∀ a, readWord m a = readWord m' a) → m = m' := by
  have below : ∀ {c : Nat × F64} {m : Memory}, Memory.wf (c :: m) → ∀ a, a < c.1 → readWord (c :: m) a = unlistedWord := by
    intro c m h a ha
    refine readWord_of_lt fun d hd => ?_
    rcases List.mem_cons.1 hd with h1 | h1
    · rw [h1]
      exact ha
    · have := (List.pairwise_cons.1 h.1).1 d h1
      omega
  have head : ∀ (c : Nat × F64) (m : Memory), readWord (c :: m) c.1 = c.2 := by
    intro c m
    simp [readWord]
  intro m
  induction m with
  | nil =>
    intro m' _ h' hr
    cases m' with
    | nil => rfl
    | cons d m' =>
      have := hr d.1
      rw [head] at this
      exact absurd this.symm (h'.2 d (by simp))
  | cons c m ih =>
    intro m' h h' hr
    cases m' with
    | nil =>
      have := hr c.1
      rw [head] at this
      exact absurd this (h.2 c (by simp))
    | cons d m' =>
      have hcd : c.1 = d.1 := by
        rcases Nat.lt_trichotomy c.1 d.1 with hlt | heq | hgt
        · have := hr c.1
          rw [head, below h' c.1 hlt] at this
          exact absurd this (h.2 c (by simp))
        · exact heq
        · have := hr d.1
          rw [head, below h d.1 hgt] at this
          exact absurd this.symm (h'.2 d (by simp))
      have hv : c.2 = d.2 := by
        have := hr c.1
        rw [head, hcd, head] at this
        exact this
      have hc : c = d := Prod.ext hcd hv
      subst hc
      have hp := List.pairwise_cons.1 h.1
      have hp' := List.pairwise_cons.1 h'.1
      rw [ih ⟨hp.2, fun x hx => h.2 x (by simp [hx])⟩ ⟨hp'.2, fun x hx => h'.2 x (by simp [hx])⟩]
      intro a
      by_cases ha : a = c.1
      · rw [readWord_of_lt (m := m) (fun x hx => ha ▸ hp.1 x hx), readWord_of_lt (m := m') (fun x hx => ha ▸ hp'.1 x hx)]
      · have := hr a
        simp only [readWord] at this
        rwa [if_neg (Ne.symm ha), if_neg (Ne.symm ha)] at this

end Sys2Proof.Machine
end

