-- ==== Sys2Proof/Laws/PerInstr.lean ====
section
/-!
SUPPORT. The family PacketLength of LAWS.json: the words of every command's packet are as many as its opcode says
(R110, R112, Table E1).
-/

namespace Sys2Proof.Laws.PacketLength

open Sys2Proof

def Statement (i : Instr) : Prop := (encode i).length = packetLength (opcOf i.header)

theorem nop (inst fa fb : Byte) : Statement (.nop inst fa fb) := by
  unfold Statement
  rw [length_encode, opcOf_header]
  rfl

theorem coreReset (inst fa fb : Byte) : Statement (.coreReset inst fa fb) := by
  unfold Statement
  rw [length_encode, opcOf_header]
  rfl

theorem regRead (inst fa fb : Byte) : Statement (.regRead inst fa fb) := by
  unfold Statement
  rw [length_encode, opcOf_header]
  rfl

theorem errClear (inst fa fb : Byte) : Statement (.errClear inst fa fb) := by
  unfold Statement
  rw [length_encode, opcOf_header]
  rfl

theorem bufWrite (inst fa fb : Byte) (n : U64) (value : F64) : Statement (.bufWrite inst fa fb n value) := by
  unfold Statement
  rw [length_encode, opcOf_header]
  rfl

theorem bufRead (inst fa fb : Byte) (n : U64) : Statement (.bufRead inst fa fb n) := by
  unfold Statement
  rw [length_encode, opcOf_header]
  rfl

theorem bufClear (inst fa fb : Byte) : Statement (.bufClear inst fa fb) := by
  unfold Statement
  rw [length_encode, opcOf_header]
  rfl

theorem oscInit (inst fa fb : Byte) : Statement (.oscInit inst fa fb) := by
  unfold Statement
  rw [length_encode, opcOf_header]
  rfl

theorem oscRender (inst fa fb : Byte) (frequency volume : F64) (s0 : U64) (detune : F64) : Statement (.oscRender inst fa fb frequency volume s0 detune) := by
  unfold Statement
  rw [length_encode, opcOf_header]
  rfl

theorem envInit (inst fa fb : Byte) (attackMs decayMs sustainLevel releaseMs sustainMs : F64) : Statement (.envInit inst fa fb attackMs decayMs sustainLevel releaseMs sustainMs) := by
  unfold Statement
  rw [length_encode, opcOf_header]
  rfl

theorem envStep (inst fa fb : Byte) : Statement (.envStep inst fa fb) := by
  unfold Statement
  rw [length_encode, opcOf_header]
  rfl

theorem envApply (inst fa fb : Byte) : Statement (.envApply inst fa fb) := by
  unfold Statement
  rw [length_encode, opcOf_header]
  rfl

theorem envNoteOff (inst fa fb : Byte) : Statement (.envNoteOff inst fa fb) := by
  unfold Statement
  rw [length_encode, opcOf_header]
  rfl

theorem filtUpdate (inst fa fb : Byte) (cutoff qIn : F64) : Statement (.filtUpdate inst fa fb cutoff qIn) := by
  unfold Statement
  rw [length_encode, opcOf_header]
  rfl

theorem filtReset (inst fa fb : Byte) : Statement (.filtReset inst fa fb) := by
  unfold Statement
  rw [length_encode, opcOf_header]
  rfl

theorem filtProcess (inst fa fb : Byte) (x : F64) : Statement (.filtProcess inst fa fb x) := by
  unfold Statement
  rw [length_encode, opcOf_header]
  rfl

theorem filtApply (inst fa fb : Byte) : Statement (.filtApply inst fa fb) := by
  unfold Statement
  rw [length_encode, opcOf_header]
  rfl

theorem lfoEnable (inst fa fb : Byte) : Statement (.lfoEnable inst fa fb) := by
  unfold Statement
  rw [length_encode, opcOf_header]
  rfl

theorem lfoStep (inst fa fb : Byte) (rate depth : F64) : Statement (.lfoStep inst fa fb rate depth) := by
  unfold Statement
  rw [length_encode, opcOf_header]
  rfl

end Sys2Proof.Laws.PacketLength
end

