-- ==== Sys2Proof/Laws/Ranges.lean ====
section
/-!
SUPPORT. The ranges of the functions the commands are built from: clamps, phases, waveforms, smoothing. Each lemma is
about one function and is proved from the order and rounding lemmas of Laws/Binary64.lean.
-/

namespace Sys2Proof.Machine

set_option Elab.async false

/-! ### Constants -/

theorem val_eq_of_units {x : F64} {k : ℤ} (h : signedUnits x = k * (oneUnits : ℤ)) : val x = k := by
  have h1 := oneUnits_posQ
  unfold val
  rw [h]
  push_cast
  field_simp

theorem val_c0 : val c0 = 0 := by simpa using val_eq_of_units (x := c0) (k := 0) (by decide +kernel)
theorem val_c1 : val c1 = 1 := by simpa using val_eq_of_units (x := c1) (k := 1) (by decide +kernel)
theorem val_cNeg1 : val cNeg1 = -1 := by simpa using val_eq_of_units (x := cNeg1) (k := -1) (by decide +kernel)
theorem val_c2 : val c2 = 2 := by simpa using val_eq_of_units (x := c2) (k := 2) (by decide +kernel)
theorem val_c32 : val c32 = 32 := by simpa using val_eq_of_units (x := c32) (k := 32) (by decide +kernel)
theorem val_c1000 : val c1000 = 1000 := by simpa using val_eq_of_units (x := c1000) (k := 1000) (by decide +kernel)
theorem val_SR : val SR = 44100 := by simpa using val_eq_of_units (x := SR) (k := 44100) (by decide +kernel)
theorem val_NYQ : val NYQ = 22050 := by simpa using val_eq_of_units (x := NYQ) (k := 22050) (by decide +kernel)
theorem val_MS_MAX : val MS_MAX = 1000000 := by
  simpa using val_eq_of_units (x := MS_MAX) (k := 1000000) (by decide +kernel)

theorem Within.finite {lo hi x : F64} (h : Within lo hi x) (hlo : isFinite lo = true) (hhi : isFinite hi = true) :
    isFinite x = true := isFinite_of_between hlo hhi h.1 h.2

theorem Within.val_le {lo hi x : F64} (h : Within lo hi x) (hlo : isFinite lo = true) (hhi : isFinite hi = true) :
    val lo ≤ val x ∧ val x ≤ val hi :=
  ⟨(fle_iff_val hlo (h.finite hlo hhi)).1 h.1, (fle_iff_val (h.finite hlo hhi) hhi).1 h.2⟩

/-- A value in [0, 1]: finite, and its value. -/
theorem Within.unit {x : F64} (h : Within c0 c1 x) : isFinite x = true ∧ 0 ≤ val x ∧ val x ≤ 1 := by
  have := h.val_le (by decide) (by decide)
  rw [val_c0, val_c1] at this
  exact ⟨h.finite (by decide) (by decide), this⟩

/-- A value in [-1, 1]: finite, and its value. -/
theorem Within.signed {x : F64} (h : Within cNeg1 c1 x) : isFinite x = true ∧ -1 ≤ val x ∧ val x ≤ 1 := by
  have := h.val_le (by decide) (by decide)
  rw [val_cNeg1, val_c1] at this
  exact ⟨h.finite (by decide) (by decide), this⟩

/-! ### Clamps (R14) -/

theorem fclamp_within {v lo hi : F64} (hv : isNaN v = false) (h : fle lo hi = true) :
    Within lo hi (fclamp v lo hi) := by
  obtain ⟨hlo, hhi⟩ := not_nan_of_fle h
  unfold fclamp
  split
  · exact ⟨fle_refl hlo, h⟩
  · rename_i h1
    rw [flt_iff hv hlo] at h1
    split
    · exact ⟨h, fle_refl hhi⟩
    · rename_i h2
      rw [flt_iff hhi hv] at h2
      exact ⟨(fle_iff hlo hv).2 (by omega), (fle_iff hv hhi).2 (by omega)⟩

/-- A value already in the range is its own clamp. -/
theorem fclamp_of_within {v lo hi : F64} (h : Within lo hi v) : fclamp v lo hi = v := by
  obtain ⟨hlo, hv⟩ := not_nan_of_fle h.1
  obtain ⟨-, hhi⟩ := not_nan_of_fle h.2
  have h1 := (fle_iff hlo hv).1 h.1
  have h2 := (fle_iff hv hhi).1 h.2
  unfold fclamp
  rw [if_neg, if_neg]
  · rw [flt_iff hhi hv]; omega
  · rw [flt_iff hv hlo]; omega

theorem clampUnit_within {v : F64} (h : isFinite v = true) : Within c0 c1 (clampUnit v) :=
  fclamp_within (isNaN_of_isFinite h) (by decide)

theorem clampFrequency_within {v : F64} (h : isFinite v = true) : Within c0 NYQ (clampFrequency v) :=
  fclamp_within (isNaN_of_isFinite h) (by decide)

theorem unisonCount_range (fb : Byte) : 1 ≤ unisonCount fb ∧ unisonCount fb ≤ 16 := by
  unfold unisonCount clampNat
  split
  · omega
  · split <;> omega

/-! ### The FN fields (R11) -/

theorem keepWithin_within {lo hi other : F64} (v : F64) (h : Within lo hi other) :
    Within lo hi (keepWithin lo hi other v) := by
  unfold keepWithin
  split
  · rename_i h1
    simpa using h1
  · exact h

theorem fnSin_within (x : F64) : Within cNeg1 c1 (fnSin x) := keepWithin_within _ (by decide)
theorem fnCos_within (x : F64) : Within cNeg1 c1 (fnCos x) := keepWithin_within _ (by decide)
theorem fnTanh_within (x : F64) : Within cNeg1 c1 (fnTanh x) := keepWithin_within _ (by decide)

theorem fnExp_within {x : F64} (h : fle x c0 = true) : Within c0 c1 (fnExp x) := by
  unfold fnExp
  rw [if_pos h]
  exact keepWithin_within _ (by decide)

theorem fnExp2_pos {x : F64} (h : fle (fabs x) c1 = true) :
    isFinite (fnExp2 x) = true ∧ flt c0 (fnExp2 x) = true := by
  unfold fnExp2
  dsimp only
  rw [h]
  cases h1 : isFinite (Config.exp2Raw x) <;> cases h2 : flt c0 (Config.exp2Raw x) <;> simp [h1, h2] <;> decide

/-! ### float(i) and the integer part (R12, R170) -/

theorem ffloat_le {n : Nat} {c : F64} (hc : isFinite c = true) (h : (n : ℚ) ≤ val c) : fle (ffloat n) c = true := by
  have h1 := oneUnits_posQ
  refine roundTo_le Nat.one_pos hc ?_
  rw [val, le_div_iff₀ h1] at h
  unfold signedNum
  simp only [Bool.false_eq_true, if_false]
  push_cast
  rw [mul_one]
  exact_mod_cast h

theorem le_ffloat {n : Nat} {c : F64} (hc : isFinite c = true) (h : val c ≤ (n : ℚ)) : fle c (ffloat n) = true := by
  have h1 := oneUnits_posQ
  refine le_roundTo Nat.one_pos hc ?_
  rw [val, div_le_iff₀ h1] at h
  unfold signedNum
  simp only [Bool.false_eq_true, if_false]
  push_cast
  rw [mul_one]
  exact_mod_cast h

/-- An unsigned 64-bit integer converts to a finite value. -/
theorem ffloat_finite {n : Nat} (h : n < 2 ^ 64) : isFinite (ffloat n) = true := by
  have h0 : fle c0 (ffloat n) = true := le_ffloat (by decide) (by rw [val_c0]; positivity)
  have h1 : val 0x43F0000000000000#64 = 18446744073709551616 := by
    simpa using val_eq_of_units (x := 0x43F0000000000000#64) (k := 18446744073709551616) (by decide +kernel)
  have h2 : fle (ffloat n) 0x43F0000000000000#64 = true := by
    refine ffloat_le (by decide) ?_
    rw [h1]
    have : n ≤ 18446744073709551616 := by omega
    exact_mod_cast this
  exact isFinite_of_between (by decide) (by decide) h0 h2

theorem oneUnits_eq : oneUnits = 2 ^ 1074 := by
  unfold oneUnits
  rw [Nat.shiftLeft_eq, Nat.one_mul]

/-- An unsigned integer below 2^53 converts exactly. -/
theorem val_ffloat {n : Nat} (h : n < 0x20000000000000) : val (ffloat n) = n := by
  have h1 := oneUnits_posQ
  have hle : n * oneUnits ≤ magUnits infBits :=
    (Nat.mul_le_mul_right oneUnits h.le).trans (by decide +kernel)
  have hex : magUnits (roundBits (n * oneUnits) 1) = n * oneUnits := by
    rw [oneUnits_eq] at hle ⊢
    exact magUnits_roundBits h hle
  have hu : signedUnits (ffloat n) = (n * oneUnits : Nat) := by
    unfold signedUnits units ffloat roundTo
    rw [fsign_pack (roundBits_le_infBits _ _), magBits_pack (roundBits_le_infBits _ _), hex]
    simp
  unfold val
  rw [hu]
  push_cast
  field_simp

/-! ### Phases (R15, R38, R142, R143, R149) -/

theorem Within.pos {lo hi x : F64} (h : Within lo hi x) (hlo : isFinite lo = true) (hhi : isFinite hi = true)
    (h0 : 0 ≤ val lo) : isFinite x = true ∧ 0 ≤ val x ∧ val x ≤ val hi :=
  ⟨h.finite hlo hhi, h0.trans (h.val_le hlo hhi).1, (h.val_le hlo hhi).2⟩

theorem val_nonneg {x : F64} (hx : isFinite x = true) : fle c0 x = true ↔ 0 ≤ val x := by
  rw [fle_iff_val (by decide) hx, val_c0]

theorem val_TWO_PI_pos : 0 < val TWO_PI := by
  have : flt c0 TWO_PI = true := by decide
  rwa [flt_iff_val (by decide) (by decide), val_c0] at this

theorem val_PI_pos : 0 < val PI := by
  have : flt c0 PI = true := by decide
  rwa [flt_iff_val (by decide) (by decide), val_c0] at this

theorem val_TWO_PI : val TWO_PI = 2 * val PI := by
  have : signedUnits TWO_PI = 2 * signedUnits PI := by decide +kernel
  unfold val
  rw [this]
  push_cast
  ring

/-- An increment of a clamped frequency is at most the increment of the largest one. -/
theorem phaseIncrement_within {f top : F64} (hf : Within c0 top f) (ht : isFinite top = true)
    (htf : isFinite (fmul TWO_PI top) = true) : Within c0 (phaseIncrement top) (phaseIncrement f) := by
  obtain ⟨hfin, h0, h1⟩ := hf.pos (by decide) ht val_c0.ge
  have hp := val_TWO_PI_pos
  have hm0 : fle c0 (fmul TWO_PI f) = true := le_fmul (by decide) hfin (by decide) (by rw [val_c0]; positivity)
  have hm1 : fle (fmul TWO_PI f) (fmul TWO_PI top) = true :=
    fmul_mono (by decide) hfin (by decide) ht (mul_le_mul_of_nonneg_left h1 hp.le)
  have hmf : isFinite (fmul TWO_PI f) = true := isFinite_of_between (by decide) htf hm0 hm1
  have hsr : isZero SR = false := by decide
  refine ⟨le_fdiv hmf (by decide) (by decide) hsr ?_, fdiv_mono hmf (by decide) htf (by decide) hsr hsr ?_⟩
  · rw [val_c0, val_SR]
    have := (val_nonneg hmf).1 hm0
    positivity
  · rw [val_SR]
    have := (fle_iff_val hmf htf).1 hm1
    linarith

/-- R143: the increment of a clamped frequency lies in [0, PI]. -/
theorem phaseIncrement_le_PI {f : F64} (hf : Within c0 NYQ f) : Within c0 PI (phaseIncrement f) := by
  have h := phaseIncrement_within hf (by decide) (by decide +kernel)
  have : phaseIncrement NYQ = PI := by decide +kernel
  rwa [this] at h

theorem IsPhase.bounds {x : F64} (h : IsPhase x) : isFinite x = true ∧ 0 ≤ val x ∧ val x < val TWO_PI := by
  have hf : isFinite x = true := isFinite_of_between (by decide) (by decide) h.1 (fle_of_flt h.2)
  exact ⟨hf, (val_nonneg hf).1 h.1, (flt_iff_val hf (by decide)).1 h.2⟩

/-- R15, R38: a phase advanced by at most PI and wrapped is a phase. -/
theorem wrapAcc_isPhase {phase inc : F64} (hp : IsPhase phase) (hi : Within c0 PI inc) :
    IsPhase (wrapAcc (fadd phase inc)) := by
  obtain ⟨hpf, hp0, hp1⟩ := hp.bounds
  obtain ⟨hif, hi0, hi1⟩ := hi.pos (by decide) (by decide) val_c0.ge
  have hsum : val TWO_PI + val PI ≤ val c10 := val_add_le_iff.2 (by decide +kernel)
  have s0 : fle c0 (fadd phase inc) = true := le_fadd hpf hif (by decide) (by rw [val_c0]; linarith)
  have s1 : fle (fadd phase inc) c10 = true := fadd_le hpf hif (by decide) (by linarith)
  have sf : isFinite (fadd phase inc) = true := isFinite_of_between (by decide) (by decide) s0 s1
  unfold wrapAcc
  split
  · rename_i hge
    have hge' := (fle_iff_val (by decide) sf).1 hge
    have hle' := (fle_iff_val sf (by decide)).1 s1
    have hdiff : val c10 ≤ val TWO_PI + val PI + val c1 := by
      have h1 : val c10 ≤ val c0p5 + val 0x4023000000000000#64 := le_val_add_iff.2 (by decide +kernel)
      have h2 : val 0x4023000000000000#64 ≤ val TWO_PI + val 0x400B000000000000#64 :=
        le_val_add_iff.2 (by decide +kernel)
      have h3 : val 0x400B000000000000#64 ≤ val PI + val c0p5 := le_val_add_iff.2 (by decide +kernel)
      have h4 : val c0p5 + val c0p5 ≤ val c1 := val_add_le_iff.2 (by decide +kernel)
      linarith
    have h5 : val PI + val c1 ≤ val 0x4012000000000000#64 := val_add_le_iff.2 (by decide +kernel)
    have d0 : fle c0 (fsub (fadd phase inc) TWO_PI) = true :=
      le_fsub sf (by decide) (by decide) (by rw [val_c0]; linarith)
    have d1 : fle (fsub (fadd phase inc) TWO_PI) 0x4012000000000000#64 = true :=
      fsub_le sf (by decide) (by decide) (by linarith)
    exact ⟨d0, flt_of_fle_of_flt d1 (by decide)⟩
  · rename_i hlt
    refine ⟨s0, ?_⟩
    rw [flt_iff_val sf (by decide)]
    rw [fle_iff_val (by decide) sf] at hlt
    exact not_le.1 hlt

theorem c0_isPhase : IsPhase c0 := by decide

end Sys2Proof.Machine
end

