-- ==== Sys2Proof/Laws/Samples.lean ====
section
/-!
SUPPORT. The ranges of the sample functions: waveforms, unison tracks, envelope, filter and LFO samples, and what one
sample keeps of a unit's ranges (R38, R43, R46, R53, R83, R146, R148, R177, R209, R233).
-/

namespace Sys2Proof.Machine

set_option Elab.async false

/-! ### The remainder (R12, R149) -/

theorem magScale_mono {a b : Nat} (h : a ≤ b) : magScale a ≤ magScale b :=
  Nat.sub_le_sub_right (Nat.div_le_div_right h) 1

/-- The remainder of two magnitudes is a magnitude: `fmod` never rounds. -/
theorem exists_mod_magUnits (a b : Nat) : ∃ r, magUnits r = magUnits a % magUnits b := by
  rcases Nat.lt_or_ge a b with h | h
  · exact ⟨a, (Nat.mod_eq_of_lt (magUnits_strictMono h)).symm⟩
  · have hs := magScale_mono h
    have ha := magUnits_eq a
    have hb := magUnits_eq b
    have hm := magMantissa_lt b
    obtain ⟨d, hd⟩ := Nat.exists_eq_add_of_le hs
    have hsplit : magUnits a % magUnits b = (magMantissa a * 2 ^ d % magMantissa b) * 2 ^ magScale b := by
      rw [ha, hb, hd, Nat.pow_add, Nat.mul_comm (2 ^ magScale b), ← Nat.mul_assoc, Nat.mul_mod_mul_right]
    rcases Nat.eq_zero_or_pos (magMantissa b) with h0 | h0
    · refine ⟨a, ?_⟩
      rw [hb, h0, Nat.zero_mul, Nat.mod_zero]
    · rw [hsplit]
      exact exists_magUnits _ _ ((Nat.mod_lt _ h0).trans hm)

/-- R149: the remainder of a number that is not negative by TWO_PI is a phase. -/
theorem ffmod_isPhase {a : F64} (ha : isFinite a = true) (h0 : fle c0 a = true) : IsPhase (ffmod a TWO_PI) := by
  have hc : (isNaN TWO_PI || isZero TWO_PI || isInf TWO_PI) = false := by decide
  have hk := (fle_iff (by decide) (isNaN_of_isFinite ha)).1 h0
  obtain ⟨r, hr⟩ := exists_mod_magUnits (magBits a) (magBits TWO_PI)
  have hlt : r < magBits TWO_PI := by
    rw [← magUnits_strictMono.lt_iff_lt, hr]
    exact Nat.mod_lt _ (by decide +kernel)
  have hle : r ≤ magBits a := by
    rw [← magUnits_le_iff, hr]
    exact Nat.mod_le _ _
  have hinf : magBits TWO_PI < infBits := by decide
  have heq : ffmod a TWO_PI = pack (fsign a) r := by
    unfold ffmod
    simp only [Bool.or_eq_false_iff] at hc
    rw [isNaN_of_isFinite ha, isInf_of_isFinite ha, hc.1.1, hc.1.2, hc.2]
    simp only [Bool.or_self, Bool.false_eq_true, if_false]
    rw [roundTo, units, units, ← hr, roundBits_exact (b := r) Nat.one_pos (by omega) (by simp)]
  rw [heq]
  have hpm := magBits_pack (neg := fsign a) (b := r) (by omega)
  have hps := fsign_pack (neg := fsign a) (b := r) (by omega)
  have hn : isNaN (pack (fsign a) r) = false := by simp only [isNaN, hpm, decide_eq_false_iff_not]; omega
  have hz : orderKey c0 = 0 := by decide
  have ht : orderKey TWO_PI = magBits TWO_PI := by decide
  refine ⟨(fle_iff (by decide) hn).2 ?_, (flt_iff hn (by decide)).2 ?_⟩
  · rw [hz] at hk ⊢
    unfold orderKey at hk ⊢
    rw [hps, hpm]
    split at hk
    · rename_i hs
      rw [if_pos hs]
      omega
    · rename_i hs
      rw [if_neg hs]
      omega
  · rw [ht]
    unfold orderKey
    rw [hps, hpm]
    split <;> omega

/-! ### Waveforms (R144-R146) -/

theorem isZero_PI : isZero PI = false := by decide

/-- th / PI - 1.0 lies in [-1, 1]. -/
theorem sawValue_within {th : F64} (h : IsPhase th) : Within cNeg1 c1 (fsub (fdiv th PI) c1) := by
  obtain ⟨hf, h0, h1⟩ := h.bounds
  have hp := val_PI_pos
  rw [val_TWO_PI] at h1
  have q0 : fle c0 (fdiv th PI) = true := le_fdiv hf (by decide) (by decide) isZero_PI (by rw [val_c0]; positivity)
  have q1 : fle (fdiv th PI) c2 = true :=
    fdiv_le hf (by decide) (by decide) isZero_PI (by rw [val_c2, div_le_iff₀ hp]; linarith)
  have qf : isFinite (fdiv th PI) = true := isFinite_of_between (by decide) (by decide) q0 q1
  have v0 := (val_nonneg qf).1 q0
  have v1 := (fle_iff_val qf (by decide)).1 q1
  rw [val_c2] at v1
  exact ⟨le_fsub qf (by decide) (by decide) (by rw [val_cNeg1, val_c1]; linarith),
    fsub_le qf (by decide) (by decide) (by rw [val_c1]; linarith)⟩

/-- R146: the waveform at a phase lies in [-1, 1]. -/
theorem waveValue_within (w : Waveform) {th : F64} (h : IsPhase th) : Within cNeg1 c1 (waveValue w th) := by
  cases w with
  | sine => exact fnSin_within th
  | square =>
    unfold waveValue
    dsimp only
    split <;> decide
  | saw => exact sawValue_within h
  | triangle =>
    obtain ⟨sf, s0, s1⟩ := (sawValue_within h).signed
    set x := fsub (fdiv th PI) c1 with hx
    have af : isFinite (fabs x) = true := by rw [isFinite_fabs]; exact sf
    have a1 : val (fabs x) ≤ 1 := by rw [val_fabs]; exact abs_le.2 ⟨s0, s1⟩
    have a0 : 0 ≤ val (fabs x) := by rw [val_fabs]; exact abs_nonneg _
    have m0 : fle c0 (fmul c2 (fabs x)) = true :=
      le_fmul (by decide) af (by decide) (by rw [val_c0, val_c2]; linarith)
    have m1 : fle (fmul c2 (fabs x)) c2 = true := fmul_le (by decide) af (by decide) (by rw [val_c2]; linarith)
    have mf : isFinite (fmul c2 (fabs x)) = true := isFinite_of_between (by decide) (by decide) m0 m1
    have v0 := (val_nonneg mf).1 m0
    have v1 := (fle_iff_val mf (by decide)).1 m1
    rw [val_c2] at v1
    exact ⟨le_fsub mf (by decide) (by decide) (by rw [val_cNeg1, val_c1]; linarith),
      fsub_le mf (by decide) (by decide) (by rw [val_c1]; linarith)⟩

/-- A factor in [0, 1] keeps a value of [-1, 1] in it. -/
theorem fmul_unit_signed {v x : F64} (hv : Within c0 c1 v) (hx : Within cNeg1 c1 x) : Within cNeg1 c1 (fmul v x) := by
  obtain ⟨vf, v0, v1⟩ := hv.unit
  obtain ⟨xf, x0, x1⟩ := hx.signed
  exact ⟨le_fmul vf xf (by decide) (by rw [val_cNeg1]; nlinarith), fmul_le vf xf (by decide) (by rw [val_c1]; nlinarith)⟩

/-- A product of two values of [0, 1] lies in it, and is at most the first. -/
theorem fmul_unit_unit {v x : F64} (hv : Within c0 c1 v) (hx : Within c0 c1 x) :
    Within c0 c1 (fmul v x) ∧ fle (fmul v x) v = true := by
  obtain ⟨vf, v0, v1⟩ := hv.unit
  obtain ⟨xf, x0, x1⟩ := hx.unit
  exact ⟨⟨le_fmul vf xf (by decide) (by rw [val_c0]; positivity), fmul_le vf xf (by decide) (by rw [val_c1]; nlinarith)⟩,
    fmul_le vf xf vf (by nlinarith)⟩

/-- R145: one word with a unison count of 1 keeps the phase a phase, and lies in [-1, 1]. -/
theorem singleWord_spec {w : Waveform} {vol inc phase : F64} (n : Nat) (old : F64) (hv : Within c0 c1 vol)
    (hi : Within c0 PI inc) (hp : IsPhase phase) :
    IsPhase (singleWord w vol inc n phase old).1 ∧ Within cNeg1 c1 (singleWord w vol inc n phase old).2 :=
  ⟨wrapAcc_isPhase hp hi, fmul_unit_signed hv (waveValue_within w hp)⟩

/-! ### One-pole smoothing (R173, R177, R232, log 16) -/

theorem units_one : units c1 = oneUnits := by decide +kernel

theorem signedUnits_natAbs (x : F64) : (signedUnits x).natAbs = units x := by
  unfold signedUnits
  split <;> simp

theorem units_fmul {x y : F64} (hx : isFinite x = true) (hy : isFinite y = true) :
    units (fmul x y) = magUnits (roundBits (units x * units y) oneUnits) := by
  rw [fmul_finite hx hy, units.eq_def (roundTo _ _ _), roundTo, magBits_pack (roundBits_le_infBits _ _)]

/-- A product whose first factor is at most one in magnitude is at most the second. -/
theorem units_fmul_le {x y : F64} (hx : isFinite x = true) (hy : isFinite y = true) (h : units x ≤ oneUnits) :
    units (fmul x y) ≤ units y := by
  rw [units_fmul hx hy, units.eq_def y, magUnits_le_iff]
  exact roundBits_le oneUnits_pos (by rw [Nat.mul_comm _ oneUnits]; exact Nat.mul_le_mul_right _ h)

/-- The complement `1.0 - alpha` of a coefficient in (0, 1): in [0, 1], and the exact one rounded once. -/
theorem complement_spec {alpha : F64} (h0 : flt c0 alpha = true) (h1 : flt alpha c1 = true) :
    Within c0 c1 (fsub c1 alpha) ∧ units alpha < oneUnits ∧
      units (fsub c1 alpha) = magUnits (roundBits (oneUnits - units alpha) 1) := by
  have hf : isFinite alpha = true := isFinite_of_between (by decide) (by decide) (fle_of_flt h0) (fle_of_flt h1)
  have v0 := (flt_iff_val (by decide) hf).1 h0
  have v1 := (flt_iff_val hf (by decide)).1 h1
  rw [val_c0] at v0
  rw [val_c1] at v1
  refine ⟨⟨le_fsub (by decide) hf (by decide) (by rw [val_c0, val_c1]; linarith),
    fsub_le (by decide) hf (by decide) (by rw [val_c1]; linarith)⟩, ?_⟩
  have hsu : signedUnits alpha = units alpha := by
    have : 0 < signedUnits alpha := by
      unfold val at v0
      rw [div_pos_iff_of_pos_right oneUnits_posQ] at v0
      exact_mod_cast v0
    unfold signedUnits at this ⊢
    split
    · rename_i hs
      rw [if_pos hs] at this
      omega
    · rfl
  have hlt : units alpha < oneUnits := by
    unfold val at v1
    rw [div_lt_one oneUnits_posQ, hsu] at v1
    exact_mod_cast v1
  have hneg : signedUnits (fneg alpha) = -(units alpha : Int) := by
    rw [← hsu]
    unfold signedUnits units
    rw [fsign_fneg, fneg_toNat_mod]
    cases fsign alpha <;> simp
  have hone : signedUnits c1 = oneUnits := by decide +kernel
  refine ⟨hlt, ?_⟩
  unfold fsub
  rw [fadd_finite (by decide) (by rw [isFinite_fneg]; exact hf)]
  unfold addFinite
  dsimp only
  rw [hone, hneg, if_neg (by omega), units.eq_def (roundTo _ _ _), roundTo, magBits_pack (roundBits_le_infBits _ _)]
  have hna : ((oneUnits : Int) + -(units alpha : Int)).natAbs = oneUnits - units alpha := by omega
  rw [hna]

theorem isFinite_of_units {x : F64} {b : Nat} (h : units x ≤ magUnits b) (hb : b < infBits) : isFinite x = true := by
  rw [isFinite_iff]
  have : magBits x ≤ b := magUnits_le_iff.1 h
  omega

/-- Two products whose magnitudes add up to at most half a spacing past an even mantissa: their rounded sum, the
smoothed value, does not pass it. -/
theorem magBits_onePole_le {alpha prev raw : F64} {e r : Nat} (hr : 0x10000000000000 ≤ r)
    (hr1 : r < 2 * 0x10000000000000) (hr2 : r % 2 = 0) (hb : (e + 1) * 0x10000000000000 + r < infBits)
    (h : 2 * (units (fmul prev alpha) + units (fmul raw (fsub c1 alpha))) ≤ 2 * (r * 2 ^ e) + 2 ^ e) :
    isFinite (fmul prev alpha) = true ∧ isFinite (fmul raw (fsub c1 alpha)) = true ∧
      magBits (onePole alpha prev raw) ≤ e * 0x10000000000000 + r := by
  have hv : magUnits ((e + 1) * 0x10000000000000 + r) = r * 2 ^ (e + 1) := magUnits_of_parts (by omega) fun _ => hr
  rw [Nat.pow_succ, ← Nat.mul_assoc] at hv
  have hle : 2 ^ e ≤ r * 2 ^ e := Nat.le_mul_of_pos_left _ (by omega)
  have f1 : isFinite (fmul prev alpha) = true := isFinite_of_units (by omega) hb
  have f2 : isFinite (fmul raw (fsub c1 alpha)) = true := isFinite_of_units (by omega) hb
  refine ⟨f1, f2, ?_⟩
  unfold onePole
  rw [fadd_finite f1 f2]
  have hnat := Int.natAbs_add_le (signedUnits (fmul prev alpha)) (signedUnits (fmul raw (fsub c1 alpha)))
  rw [signedUnits_natAbs, signedUnits_natAbs] at hnat
  exact magBits_addFinite_le hr hr1 hr2 (by omega)

theorem within_of_magBits {x hi : F64} (hs : fsign hi = false) (hf : isFinite hi = true) (h : magBits x ≤ magBits hi) :
    Within (fneg hi) hi x := by
  rw [isFinite_iff] at hf
  have hx : isNaN x = false := by simp only [isNaN, decide_eq_false_iff_not]; omega
  have hh : isNaN hi = false := by simp only [isNaN, decide_eq_false_iff_not]; omega
  have hn : isNaN (fneg hi) = false := by simp only [isNaN, fneg_toNat_mod, decide_eq_false_iff_not]; omega
  refine ⟨(fle_iff hn hx).2 ?_, (fle_iff hx hh).2 ?_⟩
  · unfold orderKey
    rw [fsign_fneg, fneg_toNat_mod, hs]
    simp only [Bool.not_false, if_true]
    split <;> omega
  · unfold orderKey
    rw [hs]
    simp only [Bool.false_eq_true, if_false]
    split <;> omega

theorem units_le_of_within {x hi : F64} (hs : fsign hi = false) (hf : isFinite hi = true) (h : Within (fneg hi) hi x) :
    units x ≤ units hi := by
  have hx := (not_nan_of_fle h.1).2
  have a := (fle_iff (not_nan_of_fle h.1).1 hx).1 h.1
  have b := (fle_iff hx (isNaN_of_isFinite hf)).1 h.2
  rw [units, units, magUnits_le_iff]
  unfold orderKey at a b
  rw [fsign_fneg, fneg_toNat_mod, hs] at a
  rw [hs] at b
  cases hx : fsign x <;> simp only [hx, Bool.not_false, Bool.false_eq_true, if_true, if_false] at a b <;> omega

/-- R177: smoothing two values of [0, 1] gives one of [0, 1]. -/
theorem onePole_unit {alpha prev raw : F64} (h0 : flt c0 alpha = true) (h1 : flt alpha c1 = true)
    (hp : Within c0 c1 prev) (hr : Within c0 c1 raw) : Within c0 c1 (onePole alpha prev raw) := by
  have hu : ∀ {x : F64}, Within c0 c1 x → units x ≤ oneUnits := fun h =>
    (units_le_of_within (by decide) (by decide) ⟨fle_trans (by decide) h.1, h.2⟩).trans units_one.le
  obtain ⟨hb, hlt, hc⟩ := complement_spec h0 h1
  have hf : isFinite alpha = true := isFinite_of_between (by decide) (by decide) (fle_of_flt h0) (fle_of_flt h1)
  have m1 := units_fmul_le hp.unit.1 hf (hu hp)
  have m2 := units_fmul_le hr.unit.1 hb.unit.1 (hu hr)
  have hB := magUnits_roundBits_rel (oneUnits - units alpha)
  rw [← hc] at hB
  have hD : oneUnits = 2 ^ 52 * 2 ^ 1022 := by rw [oneUnits_eq]; decide +kernel
  obtain ⟨f1, f2, hm⟩ := magBits_onePole_le (prev := prev) (raw := raw) (alpha := alpha) (e := 1022)
    (r := 0x10000000000000) (by decide) (by decide) (by decide) (by decide) (by omega)
  have p0 := (val_nonneg f1).1 (fmul_unit_unit hp ⟨fle_of_flt h0, fle_of_flt h1⟩).1.1
  have q0 := (val_nonneg f2).1 (fmul_unit_unit hr hb).1.1
  exact ⟨le_fadd f1 f2 (by decide) (by rw [val_c0]; linarith),
    (within_of_magBits (hi := c1) (by decide) (by decide) (hm.trans (by decide))).2⟩

/-- R233, but for its last two units: where PREV is at most 25 + 2^-47 in magnitude and raw at most 25, the smoothed
value is at most 25 + 2^-47 (log 16). With u = 2^-48, the spacing above 16, the first product is at most
(25 + 2u)alpha + u/2, the second at most 25(1 - alpha) + 2u(1 - alpha), so the sum is at most 25 + 2.5u, a tie that
rounds to the even 25 + 2u. -/
theorem onePole_lfo {alpha prev raw : F64} (h0 : flt c0 alpha = true) (h1 : flt alpha c1 = true)
    (hp : Within 0xC039000000000002#64 0x4039000000000002#64 prev)
    (hr : Within 0xC039000000000000#64 0x4039000000000000#64 raw) :
    Within 0xC039000000000002#64 0x4039000000000002#64 (onePole alpha prev raw) := by
  have hn : 0xC039000000000002#64 = fneg 0x4039000000000002#64 := by decide
  have hfp : isFinite prev = true := hp.finite (by decide) (by decide)
  have hfr : isFinite raw = true := hr.finite (by decide) (by decide)
  obtain ⟨hb, hlt, hc⟩ := complement_spec h0 h1
  have hf : isFinite alpha = true := isFinite_of_between (by decide) (by decide) (fle_of_flt h0) (fle_of_flt h1)
  have hD : oneUnits = 2 ^ 48 * 2 ^ 1026 := by rw [oneUnits_eq]; decide +kernel
  have hpu : units prev ≤ (25 * 2 ^ 48 + 2) * 2 ^ 1026 :=
    (units_le_of_within (by decide) (by decide) (hn ▸ hp)).trans (by decide +kernel)
  have hru : units raw ≤ 25 * oneUnits :=
    (units_le_of_within (hi := 0x4039000000000000#64) (by decide) (by decide) hr).trans (by decide +kernel)
  have hu : 0 < 2 ^ 1026 := Nat.two_pow_pos _
  -- the first product, rounded at the spacing u
  have m1 : 2 ^ 49 * units (fmul prev alpha) ≤ 2 * (25 * 2 ^ 48 + 2) * units alpha + 2 ^ 48 * 2 ^ 1026 := by
    have hpa : units prev * units alpha ≤ (25 * 2 ^ 48 + 2) * 2 ^ 1026 * units alpha := Nat.mul_le_mul_right _ hpu
    have hlim : units prev * units alpha < 2 ^ (53 + 1026) * oneUnits :=
      Nat.mul_lt_mul_of_le_of_lt (hpu.trans (by rw [Nat.pow_add]; omega)) hlt (Nat.two_pow_pos _)
    have h := magUnits_roundBits_le oneUnits_pos hlim
    rw [← units_fmul hfp hf] at h
    have hd := h.trans (Nat.add_le_add_right (Nat.mul_le_mul_left 2 hpa) _)
    rw [hD] at hd
    refine Nat.le_of_mul_le_mul_right ?_ hu
    calc 2 ^ 49 * units (fmul prev alpha) * 2 ^ 1026 = 2 * (units (fmul prev alpha) * (2 ^ 48 * 2 ^ 1026)) := by ring
      _ ≤ _ := hd
      _ = _ := by ring
  -- the second product, rounded twice
  have m2 : 2 ^ 49 * units (fmul raw (fsub c1 alpha)) ≤ 2 * (25 * 2 ^ 48 + 2) * (oneUnits - units alpha) := by
    have hB := magUnits_roundBits_rel (oneUnits - units alpha)
    have hM := magUnits_roundBits_rel (25 * units (fsub c1 alpha))
    rw [← hc] at hB
    have hmono : units (fmul raw (fsub c1 alpha)) ≤ magUnits (roundBits (25 * units (fsub c1 alpha)) 1) := by
      rw [units_fmul hfr hb.unit.1, magUnits_le_iff]
      refine roundBits_mono oneUnits_pos Nat.one_pos ?_
      rw [Nat.mul_one, Nat.mul_right_comm]
      exact Nat.mul_le_mul_right _ hru
    omega
  have hsum : 2 * (units (fmul prev alpha) + units (fmul raw (fsub c1 alpha))) ≤
      2 * (0x19000000000002 * 2 ^ 1026) + 2 ^ 1026 := by omega
  obtain ⟨-, -, hm⟩ := magBits_onePole_le (e := 1026) (r := 0x19000000000002) (by decide) (by decide)
    (by decide) (by decide) hsum
  rw [hn]
  exact within_of_magBits (by decide) (by decide) (hm.trans (by decide))

/-! ### Unison tracks (R147-R151) -/

theorem val_c50 : val c50 = 50 := by simpa using val_eq_of_units (x := c50) (k := 50) (by decide +kernel)
theorem val_c1200 : val c1200 = 1200 := by simpa using val_eq_of_units (x := c1200) (k := 1200) (by decide +kernel)
theorem val_cNeg50 : val 0xC049000000000000#64 = -50 := by
  simpa using val_eq_of_units (x := 0xC049000000000000#64) (k := -50) (by decide +kernel)
theorem val_c16 : val 0x4030000000000000#64 = 16 := by
  simpa using val_eq_of_units (x := 0x4030000000000000#64) (k := 16) (by decide +kernel)

theorem mul_signed_bounds {a b top : ℚ} (a0 : 0 ≤ a) (a1 : a ≤ top) (b0 : -1 ≤ b) (b1 : b ≤ 1) :
    -top ≤ a * b ∧ a * b ≤ top := by
  constructor <;> nlinarith

theorem Within.trans_le {lo lo' hi hi' x : F64} (h : Within lo hi x) (h1 : fle lo' lo = true) (h2 : fle hi hi' = true) :
    Within lo' hi' x := ⟨fle_trans h1 h.1, fle_trans h.2 h2⟩

theorem ffloat_small {n : Nat} (h : n ≤ 65536) : isFinite (ffloat n) = true ∧ val (ffloat n) = n :=
  ⟨ffloat_finite (by omega), val_ffloat (by omega)⟩

/-- The offset of a track lies in [-50, 50] cents (R147). -/
theorem trackCents_within {det : F64} {count k : Nat} (hd : Within c0 c1 det) (h1 : 2 ≤ count) (h2 : count ≤ 16)
    (hk : k < count) : Within 0xC049000000000000#64 c50 (trackCents det count k) := by
  obtain ⟨df, d0, d1⟩ := hd.unit
  obtain ⟨kf, kv⟩ := ffloat_small (n := k) (by omega)
  obtain ⟨cf, cv⟩ := ffloat_small (n := count - 1) (by omega)
  have hk' : (k : ℚ) ≤ ((count - 1 : Nat) : ℚ) := by exact_mod_cast (by omega : k ≤ count - 1)
  have hc0 : (0 : ℚ) < ((count - 1 : Nat) : ℚ) := by exact_mod_cast (by omega : 0 < count - 1)
  have hk0 : (0 : ℚ) ≤ (k : ℚ) := by positivity
  have s0 : fle c0 (fmul det c50) = true := le_fmul df (by decide) (by decide) (by rw [val_c0, val_c50]; linarith)
  have s1 : fle (fmul det c50) c50 = true := fmul_le df (by decide) (by decide) (by rw [val_c50]; linarith)
  have sf : isFinite (fmul det c50) = true := isFinite_of_between (by decide) (by decide) s0 s1
  have sv0 := (val_nonneg sf).1 s0
  have sv1 := (fle_iff_val sf (by decide)).1 s1
  have hm : Within c0 c32 (fmul c2 (ffloat k)) := by
    have : (k : ℚ) ≤ 15 := by exact_mod_cast (by omega : k ≤ 15)
    exact ⟨le_fmul (by decide) kf (by decide) (by rw [val_c0, val_c2, kv]; linarith),
      fmul_le (by decide) kf (by decide) (by rw [val_c2, val_c32, kv]; linarith)⟩
  have mf : isFinite (fmul c2 (ffloat k)) = true := hm.finite (by decide) (by decide)
  have mv0 := (val_nonneg mf).1 hm.1
  have mv1 : val (fmul c2 (ffloat k)) ≤ 2 * ((count - 1 : Nat) : ℚ) := by
    obtain ⟨ef, ev⟩ := ffloat_small (n := 2 * (count - 1)) (by omega)
    have := (fle_iff_val mf ef).1 (fmul_le (by decide) kf ef (by rw [val_c2, kv, ev]; push_cast; linarith))
    rw [ev] at this
    exact_mod_cast this
  have cz : isZero (ffloat (count - 1)) = false := isZero_false_of_val_pos (by rw [cv]; exact hc0)
  have q0 : fle c0 (fdiv (fmul c2 (ffloat k)) (ffloat (count - 1))) = true :=
    le_fdiv mf cf (by decide) cz (by rw [val_c0, cv]; exact div_nonneg mv0 hc0.le)
  have q1 : fle (fdiv (fmul c2 (ffloat k)) (ffloat (count - 1))) c2 = true :=
    fdiv_le mf cf (by decide) cz (by rw [val_c2, cv, div_le_iff₀ hc0]; exact mv1)
  have qf : isFinite (fdiv (fmul c2 (ffloat k)) (ffloat (count - 1))) = true :=
    isFinite_of_between (by decide) (by decide) q0 q1
  have qv0 := (val_nonneg qf).1 q0
  have qv1 := (fle_iff_val qf (by decide)).1 q1
  rw [val_c2] at qv1
  have hx : Within cNeg1 c1 (fsub (fdiv (fmul c2 (ffloat k)) (ffloat (count - 1))) c1) :=
    ⟨le_fsub qf (by decide) (by decide) (by rw [val_cNeg1, val_c1]; linarith),
      fsub_le qf (by decide) (by decide) (by rw [val_c1]; linarith)⟩
  obtain ⟨xf, x0, x1⟩ := hx.signed
  rw [val_c50] at sv1
  have hb := mul_signed_bounds sv0 sv1 x0 x1
  exact ⟨le_fmul sf xf (by decide) (by rw [val_cNeg50]; exact hb.1), fmul_le sf xf (by decide) (by rw [val_c50]; exact hb.2)⟩

theorem fmul_not_nan {a b : F64} (ha : isFinite a = true) (hb : isFinite b = true) : isNaN (fmul a b) = false := by
  rw [fmul_finite ha hb]
  exact roundTo_not_nan _ _ _

/-- R148: every track frequency lies in [20, 19845]. -/
theorem trackFrequency_within {f det : F64} {count k : Nat} (hf : Within c0 NYQ f) (hd : Within c0 c1 det)
    (h1 : 2 ≤ count) (h2 : count ≤ 16) (hk : k < count) :
    Within UNI_FMIN UNI_FMAX (trackFrequency f det count k) := by
  have hff : isFinite f = true := hf.finite (by decide) (by decide)
  have hc := trackCents_within hd h1 h2 hk
  have hcf : isFinite (trackCents det count k) = true := hc.finite (by decide) (by decide)
  have hcv := hc.val_le (by decide) (by decide)
  rw [val_cNeg50, val_c50] at hcv
  have hz : isZero c1200 = false := by decide
  have hx : Within cNeg1 c1 (fdiv (trackCents det count k) c1200) :=
    ⟨le_fdiv hcf (by decide) (by decide) hz (by rw [val_cNeg1, val_c1200]; linarith),
      fdiv_le hcf (by decide) (by decide) hz (by rw [val_c1, val_c1200]; linarith)⟩
  obtain ⟨xf, x0, x1⟩ := hx.signed
  have ha : fle (fabs (fdiv (trackCents det count k) c1200)) c1 = true := by
    rw [fle_iff_val (by rw [isFinite_fabs]; exact xf) (by decide), val_fabs, val_c1]
    exact abs_le.2 ⟨x0, x1⟩
  exact fclamp_within (fmul_not_nan hff (fnExp2_pos ha).1) (by decide)

/-- The increment of a track lies in [0, PI]. -/
theorem trackIncrement_within {f det : F64} {count k : Nat} (hf : Within c0 NYQ f) (hd : Within c0 c1 det)
    (h1 : 2 ≤ count) (h2 : count ≤ 16) (hk : k < count) : Within c0 PI (trackIncrement f det count k) :=
  phaseIncrement_le_PI ((trackFrequency_within hf hd h1 h2 hk).trans_le (by decide) (by decide))

/-- The seed phase of a track is a phase (R149). -/
theorem trackSeed_isPhase {k : Nat} (h : k < 16) : IsPhase (trackSeed k) := by
  obtain ⟨kf, kv⟩ := ffloat_small (n := k) (by omega)
  have hp : val c1 ≤ val PHI ∧ val PHI ≤ val c2 :=
    ⟨(fle_iff_val (by decide) (by decide)).1 (by decide), (fle_iff_val (by decide) (by decide)).1 (by decide)⟩
  rw [val_c1, val_c2] at hp
  have hk0 : (0 : ℚ) ≤ (k : ℚ) := by positivity
  have hk1 : (k : ℚ) ≤ 15 := by exact_mod_cast (by omega : k ≤ 15)
  have m0 : fle c0 (fmul (ffloat k) PHI) = true := le_fmul kf (by decide) (by decide) (by rw [val_c0, kv]; nlinarith)
  have m1 : fle (fmul (ffloat k) PHI) c32 = true := fmul_le kf (by decide) (by decide) (by rw [val_c32, kv]; nlinarith)
  exact ffmod_isPhase (isFinite_of_between (by decide) (by decide) m0 m1) m0

/-- R149: the phase of a track is a phase. -/
theorem trackPhase_isPhase {f det : F64} {count k : Nat} (index : U64) (hf : Within c0 NYQ f) (hd : Within c0 c1 det)
    (h1 : 2 ≤ count) (h2 : count ≤ 16) (hk : k < count) : IsPhase (trackPhase f det count k index) := by
  have hi := trackIncrement_within hf hd h1 h2 hk
  obtain ⟨jf, j0, j1⟩ := hi.pos (by decide) (by decide) val_c0.ge
  obtain ⟨sf, s0, s1⟩ := (trackSeed_isPhase (k := k) (by omega)).bounds
  have nf : isFinite (ffloat index.toNat) = true := ffloat_finite index.isLt
  have n0 : 0 ≤ val (ffloat index.toNat) := (val_nonneg nf).1 (le_ffloat (by decide) (by rw [val_c0]; positivity))
  have big : val 0x43F0000000000000#64 = 18446744073709551616 := by
    simpa using val_eq_of_units (x := 0x43F0000000000000#64) (k := 18446744073709551616) (by decide +kernel)
  have n1 : val (ffloat index.toNat) ≤ 18446744073709551616 := by
    rw [← big, ← fle_iff_val nf (by decide)]
    refine ffloat_le (by decide) ?_
    rw [big]
    exact_mod_cast index.isLt.le
  have hpi : val PI ≤ 10 := by
    have : val c10 = 10 := by simpa using val_eq_of_units (x := c10) (k := 10) (by decide +kernel)
    rw [← this, ← fle_iff_val (by decide) (by decide)]
    decide
  have huge : val 0x4490000000000000#64 = 18889465931478580854784 := by
    simpa using val_eq_of_units (x := 0x4490000000000000#64) (k := 18889465931478580854784) (by decide +kernel)
  have huge2 : val 0x44A0000000000000#64 = 37778931862957161709568 := by
    simpa using val_eq_of_units (x := 0x44A0000000000000#64) (k := 37778931862957161709568) (by decide +kernel)
  have m0 : fle c0 (fmul (trackIncrement f det count k) (ffloat index.toNat)) = true :=
    le_fmul jf nf (by decide) (by rw [val_c0]; exact mul_nonneg j0 n0)
  have m1 : fle (fmul (trackIncrement f det count k) (ffloat index.toNat)) 0x4490000000000000#64 = true :=
    fmul_le jf nf (by decide) (by
      rw [huge]
      refine (mul_le_mul (j1.trans hpi) n1 n0 (by norm_num)).trans (by norm_num))
  have mf : isFinite (fmul (trackIncrement f det count k) (ffloat index.toNat)) = true :=
    isFinite_of_between (by decide) (by decide) m0 m1
  have mv0 := (val_nonneg mf).1 m0
  have mv1 := (fle_iff_val mf (by decide)).1 m1
  rw [huge] at mv1
  rw [val_TWO_PI] at s1
  have a0 : fle c0 (fadd (trackSeed k) (fmul (trackIncrement f det count k) (ffloat index.toNat))) = true :=
    le_fadd sf mf (by decide) (by rw [val_c0]; linarith)
  have a1 : fle (fadd (trackSeed k) (fmul (trackIncrement f det count k) (ffloat index.toNat))) 0x44A0000000000000#64 =
      true := fadd_le sf mf (by decide) (by rw [huge2]; linarith)
  exact ffmod_isPhase (isFinite_of_between (by decide) (by decide) a0 a1) a0

/-- A sum of m values of [-1, 1], rounded at each step, is finite and at most m in magnitude. -/
theorem foldl_fadd_within (g : Nat → F64) (hg : ∀ k, Within cNeg1 c1 (g k)) : ∀ m : Nat, m ≤ 65536 →
    isFinite ((List.range m).foldl (fun acc k => fadd acc (g k)) c0) = true ∧
      |val ((List.range m).foldl (fun acc k => fadd acc (g k)) c0)| ≤ m := by
  intro m
  induction m with
  | zero =>
    intro _
    simp only [List.range_zero, List.foldl_nil, val_c0, abs_zero, Nat.cast_zero, le_refl, and_true]
    decide
  | succ m ih =>
    intro hm
    obtain ⟨hf, hv⟩ := ih (by omega)
    obtain ⟨xf, x0, x1⟩ := (hg m).signed
    obtain ⟨ef, ev⟩ := ffloat_small (n := m + 1) hm
    rw [List.range_succ, List.foldl_append, List.foldl_cons, List.foldl_nil]
    set acc := (List.range m).foldl (fun acc k => fadd acc (g k)) c0 with hacc
    obtain ⟨l0, l1⟩ := abs_le.1 hv
    have u : fle (fadd acc (g m)) (ffloat (m + 1)) = true :=
      fadd_le hf xf ef (by rw [ev]; push_cast; linarith)
    have nf : isFinite (fneg (ffloat (m + 1))) = true := by rw [isFinite_fneg]; exact ef
    have l : fle (fneg (ffloat (m + 1))) (fadd acc (g m)) = true :=
      le_fadd hf xf nf (by rw [val_fneg, ev]; push_cast; linarith)
    have sf := isFinite_of_between nf ef l u
    refine ⟨sf, abs_le.2 ⟨?_, ?_⟩⟩
    · have := (fle_iff_val nf sf).1 l
      rwa [val_fneg, ev] at this
    · have := (fle_iff_val sf ef).1 u
      rwa [ev] at this

/-- R146: the mean of the clipped tracks lies in [-1, 1]. -/
theorem unisonMean_within (w : Waveform) (drive f det : F64) {count : Nat} (index : U64) (h1 : 1 ≤ count)
    (h2 : count ≤ 16) : Within cNeg1 c1 (fdiv (unisonSum w drive f det count index) (ffloat count)) := by
  obtain ⟨sf, sv⟩ := foldl_fadd_within (trackValue w drive f det count · index) (fun _ => fnTanh_within _) count
    (by omega)
  obtain ⟨cf, cv⟩ := ffloat_small (n := count) (by omega)
  have hc : (0 : ℚ) < (count : ℚ) := by exact_mod_cast h1
  have cz : isZero (ffloat count) = false := isZero_false_of_val_pos (by rw [cv]; exact hc)
  obtain ⟨l0, l1⟩ := abs_le.1 sv
  unfold unisonSum
  exact ⟨le_fdiv sf cf (by decide) cz (by rw [val_cNeg1, cv, le_div_iff₀ hc]; linarith),
    fdiv_le sf cf (by decide) cz (by rw [val_c1, cv, div_le_iff₀ hc]; linarith)⟩

/-- R150, R151: one word with a unison count above 1 keeps the base phase a phase, and lies in [-1, 1]. -/
theorem unisonWord_spec {base : BasePhase} {w : Waveform} {drive f det vol inc phase : F64} {count : Nat} (s0 : U64)
    (n : Nat) (old : F64) (h1 : 1 ≤ count) (h2 : count ≤ 16) (hv : Within c0 c1 vol) (hi : Within c0 PI inc)
    (hp : IsPhase phase) :
    IsPhase (unisonWord base w drive f det vol inc count s0 n phase old).1 ∧
      Within cNeg1 c1 (unisonWord base w drive f det vol inc count s0 n phase old).2 := by
  refine ⟨?_, fmul_unit_signed hv (unisonMean_within w drive f det _ h1 h2)⟩
  cases base
  · exact wrapAcc_isPhase hp hi
  · exact hp

/-- One word of OSC_RENDER keeps the phase a phase, and lies in [-1, 1] (R143, R146). -/
theorem renderWord_spec (p : Params) (w : Waveform) {frequency volume phase : F64} (fb : Byte) (s0 : U64) (det : F64)
    (n : Nat) (old : F64) (hf : isFinite frequency = true) (hv : isFinite volume = true) (hp : IsPhase phase) :
    IsPhase (renderWord p w (clampFrequency frequency) (clampUnit volume) (unisonCount fb) s0 det n phase old).1 ∧
      Within cNeg1 c1
        (renderWord p w (clampFrequency frequency) (clampUnit volume) (unisonCount fb) s0 det n phase old).2 := by
  have hi := phaseIncrement_le_PI (clampFrequency_within hf)
  have hc := unisonCount_range fb
  unfold renderWord
  split
  · exact singleWord_spec n old (clampUnit_within hv) hi hp
  · exact unisonWord_spec s0 n old hc.1 hc.2 (clampUnit_within hv) hi hp

end Sys2Proof.Machine
end

