-- ==== Sys2Proof/Laws/Units.lean ====
section
/-!
SUPPORT. What one command keeps of a unit's ranges: the envelope (R43, R46, R47, R177), the filter (R53, R209) and the
LFO (R57, R233, log 16).
-/

namespace Sys2Proof.Machine

set_option Elab.async false

/-! ### Envelope (R170-R182) -/

theorem ffloor_le {x : F64} {m : Nat} (h0 : 0 ≤ val x) (h : val x ≤ m) : ffloor x ≤ m := by
  have h1 := oneUnits_posQ
  unfold ffloor
  apply Nat.div_le_of_le_mul
  have : (units x : ℚ) ≤ val x * oneUnits := by
    unfold val
    rw [div_mul_cancel₀ _ h1.ne']
    have h0' : 0 ≤ signedUnits x := by
      by_contra hneg
      have : (signedUnits x : ℚ) < 0 := by exact_mod_cast not_le.1 hneg
      have := div_neg_of_neg_of_pos this h1
      exact absurd h0 (not_le.2 this)
    have : (units x : Int) ≤ signedUnits x := by
      have := signedUnits_natAbs x
      omega
    exact_mod_cast this
  have h2 : val x * oneUnits ≤ m * oneUnits := mul_le_mul_of_nonneg_right h h1.le
  have h3 : (units x : ℚ) ≤ (oneUnits * m : Nat) := by
    push_cast
    linarith
  exact_mod_cast h3

/-- R46: a sample count of a finite operand lies in 1 .. 44100000. -/
theorem sampleCount_isCount {ms : F64} (h : isFinite ms = true) : IsCount (sampleCount ms) := by
  have hc : Within c0 MS_MAX (fclamp ms c0 MS_MAX) := fclamp_within (isNaN_of_isFinite h) (by decide)
  obtain ⟨cf, cv0, cv1⟩ := hc.pos (by decide) (by decide) val_c0.ge
  rw [val_MS_MAX] at cv1
  have big : val 0x4224892132000000#64 = 44100000000 := by
    simpa using val_eq_of_units (x := 0x4224892132000000#64) (k := 44100000000) (by decide +kernel)
  have m0 : fle c0 (fmul (fclamp ms c0 MS_MAX) SR) = true :=
    le_fmul cf (by decide) (by decide) (by rw [val_c0, val_SR]; linarith)
  have m1 : fle (fmul (fclamp ms c0 MS_MAX) SR) 0x4224892132000000#64 = true :=
    fmul_le cf (by decide) (by decide) (by rw [big, val_SR]; linarith)
  have mf : isFinite (fmul (fclamp ms c0 MS_MAX) SR) = true := isFinite_of_between (by decide) (by decide) m0 m1
  have mv0 := (val_nonneg mf).1 m0
  have mv1 := (fle_iff_val mf (by decide)).1 m1
  rw [big] at mv1
  have hz : isZero c1000 = false := by decide
  obtain ⟨tf, tv⟩ : isFinite (ffloat 44100000) = true ∧ val (ffloat 44100000) = (44100000 : Nat) :=
    ⟨ffloat_finite (by omega), val_ffloat (by omega)⟩
  have d0 : fle c0 (fdiv (fmul (fclamp ms c0 MS_MAX) SR) c1000) = true :=
    le_fdiv mf (by decide) (by decide) hz (by rw [val_c0, val_c1000]; linarith)
  have d1 : fle (fdiv (fmul (fclamp ms c0 MS_MAX) SR) c1000) (ffloat 44100000) = true :=
    fdiv_le mf (by decide) tf hz (by rw [tv, val_c1000]; push_cast; linarith)
  have df : isFinite (fdiv (fmul (fclamp ms c0 MS_MAX) SR) c1000) = true := isFinite_of_between (by decide) tf d0 d1
  have dv1 := (fle_iff_val df tf).1 d1
  rw [tv] at dv1
  have hfl := ffloor_le (m := 44100000) ((val_nonneg df).1 d0) dv1
  unfold IsCount sampleCount
  rw [BitVec.toNat_ofNat, Nat.mod_eq_of_lt (by omega)]
  omega

/-- R170: ENV_INIT leaves an envelope in its ranges. -/
theorem startEnvelope_good {attackMs decayMs sustainLevel releaseMs sustainMs : F64}
    (h : allFinite [attackMs, decayMs, sustainLevel, releaseMs, sustainMs] = true) :
    (startEnvelope attackMs decayMs sustainLevel releaseMs sustainMs).Good := by
  simp only [allFinite, List.all_cons, List.all_nil, Bool.and_true, Bool.and_eq_true] at h
  obtain ⟨ha, hd, hs, hr, hsu⟩ := h
  exact
    { envAtRelease := (by decide : Within c0 c1 c0)
      prev := (by decide : Within c0 c1 c0)
      sustainLevel := clampUnit_within hs
      attackSamples := sampleCount_isCount ha
      decaySamples := sampleCount_isCount hd
      sustainSamples := sampleCount_isCount hsu
      releaseSamples := sampleCount_isCount hr
      finished := by simp [startEnvelope] }

/-- R180: ENV_NOTE_OFF keeps the ranges of an envelope. -/
theorem noteOff_good {e : Env} (h : e.Good) : (noteOff e).Good := by
  unfold noteOff
  split
  · exact h
  · exact { h with envAtRelease := h.prev, finished := fun _ => rfl }

/-- R181: ENV_NOTE_OFF is idempotent. -/
theorem noteOff_noteOff (e : Env) : noteOff (noteOff e) = noteOff e := by
  by_cases h : e.stage = .release <;> simp [noteOff, h]

/-- A quotient of two counts, the first the smaller, lies in [0, 1]. -/
theorem ffloat_ratio {i d : Nat} (hi : i < 2 ^ 64) (hd : d ≤ 44100000) (h : i < d) :
    Within c0 c1 (fdiv (ffloat i) (ffloat d)) := by
  obtain ⟨jf, jv⟩ : isFinite (ffloat i) = true ∧ val (ffloat i) = i := ⟨ffloat_finite hi, val_ffloat (by omega)⟩
  obtain ⟨df, dv⟩ : isFinite (ffloat d) = true ∧ val (ffloat d) = d := ⟨ffloat_finite (by omega), val_ffloat (by omega)⟩
  have hd0 : (0 : ℚ) < (d : ℚ) := by exact_mod_cast (by omega : 0 < d)
  have hi0 : (0 : ℚ) ≤ (i : ℚ) := by positivity
  have hid : (i : ℚ) ≤ (d : ℚ) := by exact_mod_cast h.le
  have hz : isZero (ffloat d) = false := isZero_false_of_val_pos (by rw [dv]; exact hd0)
  exact ⟨le_fdiv jf df (by decide) hz (by rw [val_c0, jv, dv]; positivity),
    fdiv_le jf df (by decide) hz (by rw [val_c1, jv, dv, div_le_one hd0]; exact hid)⟩

theorem fsub_one_within {x : F64} (h : Within c0 c1 x) : Within c0 c1 (fsub c1 x) := by
  obtain ⟨xf, x0, x1⟩ := h.unit
  exact ⟨le_fsub (by decide) xf (by decide) (by rw [val_c0, val_c1]; linarith),
    fsub_le (by decide) xf (by decide) (by rw [val_c1]; linarith)⟩

theorem sustainSample_raw {e : Env} (h : e.Good) : Within c0 c1 (sustainSample e).raw := h.sustainLevel

theorem decaySample_raw {e : Env} (h : e.Good) : Within c0 c1 (decaySample e).raw := by
  unfold decaySample
  dsimp only
  split
  · exact sustainSample_raw h
  · rename_i hj
    rw [BitVec.le_def] at hj
    have hr := ffloat_ratio (i := (e.sampleIndex - e.attackSamples).toNat) (BitVec.isLt _) h.decaySamples.2 (by omega)
    exact fsub_one_within (fmul_unit_unit (fsub_one_within h.sustainLevel) hr).1

theorem attackSample_raw {e : Env} (h : e.Good) : Within c0 c1 (attackSample e).raw := by
  unfold attackSample
  split
  · exact decaySample_raw h
  · rename_i hj
    rw [BitVec.le_def] at hj
    exact ffloat_ratio (BitVec.isLt _) h.attackSamples.2 (by omega)

theorem val_cNeg5 : val cNeg5 = -5 := by simpa using val_eq_of_units (x := cNeg5) (k := -5) (by decide +kernel)

theorem releaseSample_raw {e : Env} (h : e.Good) : Within c0 c1 (releaseSample e).raw := by
  unfold releaseSample
  dsimp only
  split
  · exact (by decide : Within c0 c1 c0)
  · rename_i hj
    rw [BitVec.le_def] at hj
    have hr := ffloat_ratio (i := (e.sampleIndex - e.releaseStart).toNat) (BitVec.isLt _) h.releaseSamples.2 (by omega)
    obtain ⟨rf, r0, r1⟩ := hr.unit
    have hx : fle (fmul cNeg5 (fdiv (ffloat (e.sampleIndex - e.releaseStart).toNat) (ffloat e.releaseSamples.toNat)))
        c0 = true := fmul_le (by decide) rf (by decide) (by rw [val_c0, val_cNeg5]; linarith)
    exact (fmul_unit_unit h.envAtRelease (fnExp_within hx)).1

/-- R177: the raw value of a sample lies in [0, 1]. -/
theorem rawSample_raw {e : Env} (h : e.Good) : Within c0 c1 (rawSample e).raw := by
  unfold rawSample
  split
  · exact attackSample_raw h
  · exact decaySample_raw h
  · exact sustainSample_raw h
  · exact releaseSample_raw h

/-- The stage after a sample: RELEASE exactly from RELEASE, and never back (R41, R172). -/
theorem rawSample_stage (e : Env) : (rawSample e).stage = .release ↔ e.stage = .release := by
  unfold rawSample
  cases h : e.stage <;> simp only [attackSample, decaySample, sustainSample, releaseSample] <;> (repeat' split) <;>
    simp_all

/-- FINISHED after a sample: set only in RELEASE, cleared by none (R43, R175). -/
theorem rawSample_finished (e : Env) :
    (rawSample e).finished = (e.finished || (decide (e.stage = .release) && decide (e.releaseSamples ≤ e.sampleIndex - e.releaseStart))) := by
  unfold rawSample
  cases h : e.stage <;> simp only [attackSample, decaySample, sustainSample, releaseSample] <;> (repeat' split) <;>
    simp_all

/-- R177: a sample keeps the ranges of an envelope, and its gain lies in [0, 1]. -/
theorem envSample_good {alpha : F64} {e : Env} (h0 : flt c0 alpha = true) (h1 : flt alpha c1 = true) (h : e.Good) :
    (envSample alpha e).1.Good ∧ Within c0 c1 (envSample alpha e).2 := by
  have hg := onePole_unit h0 h1 h.prev (rawSample_raw h)
  refine ⟨{ h with prev := hg, finished := ?_ }, hg⟩
  intro hf
  change (rawSample e).finished = true at hf
  change (rawSample e).stage = .release
  rw [rawSample_stage]
  rw [rawSample_finished] at hf
  simp only [Bool.or_eq_true, Bool.and_eq_true, decide_eq_true_eq] at hf
  rcases hf with hf | hf
  · exact h.finished hf
  · exact hf.1

/-- R175, R178 (e): while the elapsed count of a release has reached RELEASE_SAMPLES, the raw value is 0.0, the gain is
PREV * ENV_ALPHA and does not rise (log 31 on the count that has wrapped). -/
theorem envSample_finished {alpha : F64} {e : Env} (h0 : flt c0 alpha = true) (h1 : flt alpha c1 = true)
    (hp : Within c0 c1 e.prev) (hs : e.stage = .release) (hr : e.releaseSamples ≤ e.sampleIndex - e.releaseStart) :
    (rawSample e).raw = c0 ∧ feq (envSample alpha e).2 (fmul e.prev alpha) = true ∧
      fle (envSample alpha e).2 e.prev = true := by
  have hraw : (rawSample e).raw = c0 := by simp [rawSample, hs, releaseSample, hr]
  refine ⟨hraw, ?_⟩
  obtain ⟨hb, -⟩ := complement_spec h0 h1
  have hm := fmul_unit_unit hp ⟨fle_of_flt h0, fle_of_flt h1⟩
  obtain ⟨⟨hz0, -⟩, hz⟩ := fmul_unit_unit (v := c0) (by decide) hb
  have hzf := (fmul_unit_unit (v := c0) (by decide) hb).1.unit.1
  have v0 := (val_nonneg hzf).1 hz0
  have v2 := (fle_iff_val hzf (by decide)).1 hz
  rw [val_c0] at v2
  have hle : fle (envSample alpha e).2 (fmul e.prev alpha) = true := by
    change fle (onePole alpha e.prev (rawSample e).raw) _ = true
    rw [hraw]
    exact fadd_le hm.1.unit.1 hzf hm.1.unit.1 (by linarith)
  have hge : fle (fmul e.prev alpha) (envSample alpha e).2 = true := by
    change fle _ (onePole alpha e.prev (rawSample e).raw) = true
    rw [hraw]
    exact le_fadd hm.1.unit.1 hzf hm.1.unit.1 (by linarith)
  exact ⟨feq_of_fle hle hge, fle_trans hle hm.2⟩

/-- R83: a finite word scaled by a gain is finite. -/
theorem fmul_gain_finite {x g : F64} (hx : isFinite x = true) (hg : Within c0 c1 g) : isFinite (fmul x g) = true := by
  obtain ⟨gf, -, -⟩ := hg.unit
  have hu : units g ≤ oneUnits := by
    rw [← units_one]
    exact units_le_of_within (by decide) (by decide) ⟨fle_trans (by decide) hg.1, hg.2⟩
  rw [fmul_finite hx gf, isFinite_iff, roundTo, magBits_pack (roundBits_le_infBits _ _)]
  have : roundBits (units x * units g) oneUnits ≤ magBits x :=
    roundBits_le oneUnits_pos (Nat.mul_le_mul_left _ hu)
  rw [isFinite_iff] at hx
  omega

/-! ### Filter (R200-R210) -/

theorem identity_stable : Coeffs.identity.stable = true := by decide

/-- R53: FILT_UPDATE keeps the target stable. -/
theorem updateFilter_good {f : Filt} (t : FiltType) (cutoff qIn : F64) (h : f.Good) :
    (updateFilter f t cutoff qIn).Good := by
  refine { tgt := ?_, z1 := h.z1, z2 := h.z2 }
  unfold updateFilter
  dsimp only
  split
  · assumption
  · exact identity_stable

theorem resetFilter_good {f : Filt} (h : f.Good) : (resetFilter f).Good :=
  { tgt := h.tgt, z1 := (by decide : isFinite c0 = true), z2 := (by decide : isFinite c0 = true) }

/-- R209: whatever the coefficients and the state, a sample step answers a value of [-1, 1], leaves finite taps, and
the target as it was. -/
theorem filtSample_spec (k : F64) (f : Filt) (x : F64) :
    Within cNeg1 c1 (filtSample k f x).2 ∧ isFinite (filtSample k f x).1.z1 = true ∧
      isFinite (filtSample k f x).1.z2 = true ∧ (filtSample k f x).1.tgt = f.tgt := by
  unfold filtSample
  dsimp only
  split
  · rename_i h
    simp only [allFinite, List.all_cons, List.all_nil, Bool.and_true, Bool.and_eq_true] at h
    exact ⟨fclamp_within (isNaN_of_isFinite h.1) (by decide), h.2.1, h.2.2, rfl⟩
  · exact ⟨(by decide : Within cNeg1 c1 c0), (by decide : isFinite c0 = true), (by decide : isFinite c0 = true), rfl⟩

theorem filtSample_good {f : Filt} (k x : F64) (h : f.Good) : (filtSample k f x).1.Good := by
  obtain ⟨-, z1, z2, ht⟩ := filtSample_spec k f x
  exact { tgt := by rw [ht]; exact h.tgt, z1 := z1, z2 := z2 }

/-! ### LFO (R230-R233) -/

theorem val_c10 : val c10 = 10 := by simpa using val_eq_of_units (x := c10) (k := 10) (by decide +kernel)
theorem val_c100 : val c100 = 100 := by simpa using val_eq_of_units (x := c100) (k := 100) (by decide +kernel)
theorem val_cNeg100 : val 0xC059000000000000#64 = -100 := by
  simpa using val_eq_of_units (x := 0xC059000000000000#64) (k := -100) (by decide +kernel)
theorem val_c25 : val 0x4039000000000000#64 = 25 := by
  simpa using val_eq_of_units (x := 0x4039000000000000#64) (k := 25) (by decide +kernel)
theorem val_cNeg25 : val 0xC039000000000000#64 = -25 := by
  simpa using val_eq_of_units (x := 0xC039000000000000#64) (k := -25) (by decide +kernel)
theorem val_c0p25 : val c0p25 = 1 / 4 := by
  have h : 4 * signedUnits c0p25 = oneUnits := by decide +kernel
  have h1 := oneUnits_posQ
  have h2 : (4 : ℚ) * (signedUnits c0p25 : ℚ) = (oneUnits : ℚ) := by exact_mod_cast h
  unfold val
  rw [div_eq_div_iff h1.ne' (by norm_num)]
  linarith

/-- R233: the raw value of the LFO lies in [-25, 25]. -/
theorem lfoRaw_within (phase : F64) {depth : F64} (hd : isFinite depth = true) :
    Within 0xC039000000000000#64 0x4039000000000000#64 (fmul (fmul (fnSin phase) (clampDepth depth)) c0p25) := by
  obtain ⟨sf, s0, s1⟩ := (fnSin_within phase).signed
  have hdep : Within c0 c100 (clampDepth depth) := fclamp_within (isNaN_of_isFinite hd) (by decide)
  obtain ⟨df, d0, d1⟩ := hdep.pos (by decide) (by decide) val_c0.ge
  rw [val_c100] at d1
  have hb := mul_signed_bounds d0 d1 s0 s1
  rw [mul_comm] at hb
  have p0 : fle 0xC059000000000000#64 (fmul (fnSin phase) (clampDepth depth)) = true :=
    le_fmul sf df (by decide) (by rw [val_cNeg100]; exact hb.1)
  have p1 : fle (fmul (fnSin phase) (clampDepth depth)) c100 = true :=
    fmul_le sf df (by decide) (by rw [val_c100]; exact hb.2)
  have pf : isFinite (fmul (fnSin phase) (clampDepth depth)) = true :=
    isFinite_of_between (by decide) (by decide) p0 p1
  have pv0 := (fle_iff_val (by decide) pf).1 p0
  have pv1 := (fle_iff_val pf (by decide)).1 p1
  rw [val_cNeg100] at pv0
  rw [val_c100] at pv1
  exact ⟨le_fmul pf (by decide) (by decide) (by rw [val_cNeg25, val_c0p25]; linarith),
    fmul_le pf (by decide) (by decide) (by rw [val_c25, val_c0p25]; linarith)⟩

theorem clampRate_within {rate : F64} (h : isFinite rate = true) : Within c0 c10 (clampRate rate) :=
  fclamp_within (isNaN_of_isFinite h) (by decide)

/-- R57, R233: a step keeps the ranges of the LFO, and answers a value of [-25 - 2^-47, 25 + 2^-47] (log 16). -/
theorem lfoSample_good {alpha rate depth : F64} {l : Lfo} (h0 : flt c0 alpha = true) (h1 : flt alpha c1 = true)
    (hr : isFinite rate = true) (hd : isFinite depth = true) (h : l.Good) :
    (lfoSample alpha l rate depth).1.Good ∧ Within 0xC039000000000002#64 0x4039000000000002#64 (lfoSample alpha l rate depth).2 := by
  unfold lfoSample
  split
  · have hv := onePole_lfo h0 h1 h.prev (lfoRaw_within l.phase hd)
    have hi := phaseIncrement_le_PI ((clampRate_within hr).trans_le (lo' := c0) (hi' := NYQ) (by decide) (by decide))
    exact ⟨{ phase := wrapAcc_isPhase h.phase hi, prev := hv }, hv⟩
  · exact ⟨h, (by decide : Within 0xC039000000000002#64 0x4039000000000002#64 c0)⟩

theorem enableLfo_good {l : Lfo} (en : Bool) (h : l.Good) : (enableLfo l en).Good := by
  unfold enableLfo
  split
  · exact h
  · exact { phase := c0_isPhase, prev := (by decide : Within 0xC039000000000002#64 0x4039000000000002#64 c0) }

end Sys2Proof.Machine
end

