-- ==== Sys2Proof/Tests/Slice0.lean ====
section
/-!
SUPPORT. The model's own tests: the expected values are the spec's, worked by hand from its encodings (30_encoding.md)
or taken from its vectors (95_test_vectors.md), in the test configuration of that file. No test needs a value of an FN
function, which the model leaves open (log 3). Then, for each statement with hypotheses, a witness that meets them.
-/

namespace Sys2Proof.Tests

open Sys2Proof.Machine

set_option Elab.async false

/-! ### The test configuration (95_test_vectors.md section 0) -/

def testParams : Params where
  n := 8
  numVoices := 2
  numBuf := 4
  envAlpha := c0p5
  filtSmoothK := c0p5
  lfoAlpha := c0p5
  softclipDrive := c1
  unisonBasePhase := .advance

def t0 : State := State.powerOn testParams

/-- A few steps; none of them stops. -/
def steps : Nat → State → State
  | 0, s => s
  | k + 1, s =>
    match step s with
    | .next t => steps k t
    | .fault _ => s
    | .refused _ => s

/-- The block after a stream of at most three packets. -/
def after (s : State) (ws : List Word) : State := steps 3 { s with cmdPort := ws }

/-- The words the block sends in answer to them. -/
def reply (s : State) (ws : List Word) : List Word := (after s ws).respPort.drop s.respPort.length

/-- A buffer's words. -/
def words (s : State) (b : Nat) : List F64 := (List.range s.params.n).map (s.memRead b)

/-- A state whose envelope 0 is the one of V-ENV-1 (A = D = R = 2, S = 0.5), with the given stage and counters. -/
def envState (stage : Stage) (si rs : U64) (prev atRelease : F64) : State :=
  t0.setEnv 0
    { stage := stage, finished := false, sampleIndex := si, releaseStart := rs, envAtRelease := atRelease, prev := prev,
      attackSamples := 2, decaySamples := 2, sustainSamples := 1, releaseSamples := 2, sustainLevel := c0p5 }

/-! ### Constants against their decimal spellings (R5, R8, R9, R13) -/

theorem test_constants :
    c0p1 = fdecimal false 1 1 ∧ c0p25 = fdecimal false 25 2 ∧ c0p5 = fdecimal false 5 1 ∧ c1 = fdecimal false 1 0 ∧
    cNeg1 = fdecimal true 1 0 ∧ c2 = fdecimal false 2 0 ∧ cNeg2 = fdecimal true 2 0 ∧ cNeg5 = fdecimal true 5 0 ∧
    c10 = fdecimal false 10 0 ∧ c20 = fdecimal false 20 0 ∧ c32 = fdecimal false 32 0 ∧
    c50 = fdecimal false 50 0 ∧ c100 = fdecimal false 100 0 ∧ c1000 = fdecimal false 1000 0 ∧
    c1200 = fdecimal false 1200 0 ∧ c20000 = fdecimal false 20000 0 := by decide +kernel

theorem test_named_constants :
    SR = fdecimal false 44100 0 ∧ NYQ = fdecimal false 22050 0 ∧ UNI_FMIN = fdecimal false 20 0 ∧
    UNI_FMAX = fdecimal false 19845 0 ∧ UNI_FMAX = fmul (fdecimal false 9 1) NYQ ∧
    PI = fdecimal false 3141592653589793 15 ∧ TWO_PI = fdecimal false 6283185307179586 15 ∧
    PHI = fdecimal false 1618033988749895 15 ∧ MS_MAX = fdecimal false 1000000 0 := by decide +kernel

/-- R9: TWO_PI is 2.0 * PI; V-OSC-1: TWO_PI * 11025.0 / 44100.0 is 1.5707963267948966. -/
theorem test_arithmetic :
    fmul c2 PI = TWO_PI ∧ phaseIncrement (fdecimal false 11025 0) = fdecimal false 15707963267948966 16 ∧
    fsub c1 c1 = c0 ∧ fmul cNeg1 c0 = 0x8000000000000000 := by decide +kernel

/-! ### The smoke test of WellFormed: for each check an ill-formed command (R115, R117) -/

theorem test_wellFormed_refuses :
    (Instr.coreReset 1 0 0).wellFormed = false ∧ (Instr.coreReset 0 1 0).wellFormed = false ∧
    (Instr.coreReset 0 0 1).wellFormed = false ∧ (Instr.regRead 0 0 11).wellFormed = false ∧
    (Instr.regRead 0 1 3).wellFormed = false ∧ (Instr.regRead 0 2 11).wellFormed = false ∧
    (Instr.regRead 0 3 16).wellFormed = false ∧ (Instr.regRead 0 4 3).wellFormed = false ∧
    (Instr.regRead 0 5 0).wellFormed = false ∧ (Instr.errClear 1 0 0).wellFormed = false ∧
    (Instr.errClear 0 1 0).wellFormed = false ∧ (Instr.errClear 0 0 1).wellFormed = false ∧
    (Instr.bufWrite 1 0 0 0 0).wellFormed = false ∧ (Instr.bufWrite 0 0 1 0 0).wellFormed = false ∧
    (Instr.bufRead 1 0 0 0).wellFormed = false ∧ (Instr.bufRead 0 0 1 0).wellFormed = false ∧
    (Instr.bufClear 1 0 0).wellFormed = false ∧ (Instr.bufClear 0 0 1).wellFormed = false := by decide

theorem test_wellFormed_refuses_units :
    (Instr.oscInit 0 4 0).wellFormed = false ∧ (Instr.oscInit 0 0 1).wellFormed = false ∧
    (Instr.envInit 0 1 0 0 0 0 0 0).wellFormed = false ∧ (Instr.envInit 0 0 1 0 0 0 0 0).wellFormed = false ∧
    (Instr.envStep 0 1 0).wellFormed = false ∧ (Instr.envStep 0 0 1).wellFormed = false ∧
    (Instr.envApply 0 0 1).wellFormed = false ∧ (Instr.envNoteOff 0 1 0).wellFormed = false ∧
    (Instr.envNoteOff 0 0 1).wellFormed = false ∧ (Instr.filtUpdate 0 3 0 0 0).wellFormed = false ∧
    (Instr.filtUpdate 0 0 1 0 0).wellFormed = false ∧ (Instr.filtReset 0 1 0).wellFormed = false ∧
    (Instr.filtReset 0 0 1).wellFormed = false ∧ (Instr.filtProcess 0 1 0 0).wellFormed = false ∧
    (Instr.filtProcess 0 0 1 0).wellFormed = false ∧ (Instr.filtApply 0 0 1).wellFormed = false ∧
    (Instr.lfoEnable 0 2 0).wellFormed = false ∧ (Instr.lfoEnable 0 0 1).wellFormed = false ∧
    (Instr.lfoStep 0 1 0 0 0).wellFormed = false ∧ (Instr.lfoStep 0 0 1 0 0).wellFormed = false := by decide

/-- The highest values each check admits. -/
theorem test_wellFormed_accepts :
    (Instr.nop 255 255 255).wellFormed = true ∧ (Instr.regRead 0 3 15).wellFormed = true ∧
    (Instr.oscInit 255 3 0).wellFormed = true ∧ (Instr.oscRender 255 255 255 0 0 0 0).wellFormed = true ∧
    (Instr.filtUpdate 255 2 0 0 0).wellFormed = true ∧ (Instr.lfoEnable 255 1 0).wellFormed = true ∧
    (Instr.bufClear 0 255 0).wellFormed = true := by decide

/-! ### Decoding: words written out from Table E1, OPC INST FA FB and then each operand's low and high word -/

theorem test_decode_control :
    decode [0b00000000_00010010_00110100_01010110#32] = .command (.nop 0x12 0x34 0x56) [] ∧
    decode [0b00000001_00000000_00000000_00000000#32] = .command (.coreReset 0 0 0) [] ∧
    decode [0b00000010_00000001_00000011_00000100#32] = .command (.regRead 1 3 4) [] ∧
    decode [0b00000011_00000000_00000000_00000000#32] = .command (.errClear 0 0 0) [] := by decide

theorem test_decode_buffer :
    decode [0b00001000_00000000_00000010_00000000#32, 3, 0, 0, 0x3FE00000] =
      .command (.bufWrite 0 2 0 3 0x3FE0000000000000) [] ∧
    decode [0b00001001_00000000_00000010_00000000#32, 0xFFFFFFFF, 0x12345678] =
      .command (.bufRead 0 2 0 0x12345678FFFFFFFF) [] ∧
    decode [0b00001010_00000000_00000001_00000000#32] = .command (.bufClear 0 1 0) [] := by decide

theorem test_decode_oscillator :
    decode [0b00010000_00000001_00000010_00000000#32] = .command (.oscInit 1 2 0) [] ∧
    decode [0b00010001_00000011_00000101_00001000#32, 1, 2, 3, 4, 5, 6, 7, 8] =
      .command (.oscRender 3 5 8 0x0000000200000001 0x0000000400000003 0x0000000600000005 0x0000000800000007) [] := by
  decide

theorem test_decode_envelope :
    decode [0b00100000_00000001_00000000_00000000#32, 1, 2, 3, 4, 5, 6, 7, 8, 9, 10] =
      .command (.envInit 1 0 0 0x0000000200000001 0x0000000400000003 0x0000000600000005 0x0000000800000007
        0x0000000A00000009) [] ∧
    decode [0b00100001_00000001_00000000_00000000#32] = .command (.envStep 1 0 0) [] ∧
    decode [0b00100010_00000001_11111111_00000001#32] = .command (.envApply 1 255 1) [] ∧
    decode [0b00100011_00000001_00000000_00000000#32, 9] = .command (.envNoteOff 1 0 0) [9] := by decide

theorem test_decode_filter :
    decode [0b00110000_00000001_00000010_00000000#32, 0, 0x408F4000, 0x2DE00D1B, 0x3FE6A090] =
      .command (.filtUpdate 1 2 0 0x408F400000000000 0x3FE6A0902DE00D1B) [] ∧
    decode [0b00110001_00000001_00000000_00000000#32] = .command (.filtReset 1 0 0) [] ∧
    decode [0b00110010_00000001_00000000_00000000#32, 0, 0x40140000] =
      .command (.filtProcess 1 0 0 0x4014000000000000) [] ∧
    decode [0b00110011_00000001_00000011_00000000#32] = .command (.filtApply 1 3 0) [] := by decide

theorem test_decode_lfo :
    decode [0b01000000_00000000_00000001_00000000#32] = .command (.lfoEnable 0 1 0) [] ∧
    decode [0b01000001_00000000_00000000_00000000#32, 0, 0x40240000, 0, 0x40590000] =
      .command (.lfoStep 0 0 0 0x4024000000000000 0x4059000000000000) [] := by decide

/-- The same numbering of bits as spec/opcode_table.json, and a fetched packet run by the first step after reset. -/
theorem test_table_word :
    decodeTableWord 32 0x10010200 = some (.oscInit 1 2 0) ∧
    decodeTableWord 96 0x123456780000000309000200 = some (.bufRead 0 2 0 0x1234567800000003) ∧
    decodeTableWord 32 0x05000000 = none ∧
    (after (t0.withFetchWord 32 0x00123456) (t0.withFetchWord 32 0x00123456).cmdPort).respPort = [0] := by decide

/-- R122: the worked example; R121: the expansions; Table E2: names. -/
theorem test_assemble :
    assemble ["filt.set filt1, lp, 1000.0, 0.7071 ; P2"] =
      some [0x30010000, 0, 0x408F4000, 0x2DE00D1B, 0x3FE6A090, 0x31010000] ∧
    assemble ["lfo.restart"] = some [0x40000000, 0x40000100] ∧
    assemble ["reg.read filt1, Z1", "reg.read core0, 11", "err.clear"] =
      some [0x0201030E, 0x0200000B, 0x03000000] := by decide +kernel

/-- Table E2: P1's envelope line, a lone hint, a u64 in hexadecimal; a line that is none. -/
theorem test_assemble_literals :
    assemble ["env.init env0, 0.05, 0.05, 0.5, 0.05, 0.0"] =
      some [0x20000000, 0x9999999A, 0x3FA99999, 0x9999999A, 0x3FA99999, 0, 0x3FE00000, 0x9999999A, 0x3FA99999, 0, 0] ∧
    assemble ["nop 0x123456"] = some [0x00123456] ∧
    assemble ["buf.read b0, 0xFFFFFFFFFFFFFFFF"] = some [0x09000000, 0xFFFFFFFF, 0xFFFFFFFF] ∧
    assemble ["buf.read b0"] = none := by decide +kernel

/-! ### One command each -/

/-- V-ENC-4, V-ENC-5, V-CTL-1: an illegal header is one packet; NOP ignores its fields. -/
theorem test_nop : reply t0 [0x05000000, 0x00000000] = [0x00000501, 0] ∧ after t0 [0x00123456] =
    { t0 with respPort := [0], position := 1 } := by decide

/-- V-ENC-5: CORE_RESET with FA = 1 resets nothing; V-CTL-2: it resets a written word and the error registers. -/
theorem test_coreReset : reply t0 [0x01000100] = [0x00000102] ∧
    after { t0 with mem := [(3, c1)], err := { code := .badField, valid := true, overflow := true, cmd := 1 } }
      [0x01000000] = { t0 with respPort := [0x00000100], position := 1 } := by decide

/-- V-CTL-3 -/
theorem test_regRead_core :
    reply t0 [0x02000000] = [0x200, 1, 0x53594E54] ∧ reply t0 [0x02000001] = [0x200, 8, 0] ∧
    reply t0 [0x02000002] = [0x200, 2, 0] ∧ reply t0 [0x02000003] = [0x200, 4, 0] ∧
    reply t0 [0x02000006] = [0x200, 1, 0] ∧ reply t0 [0x02000007] = [0x200, 0, 0x3FE00000] := by decide

/-- V-CTL-3 -/
theorem test_regRead_units :
    reply t0 [0x02010200] = [0x200, 3, 0] ∧ reply t0 [0x02010304] = [0x200, 0, 0x3FF00000] ∧
    reply t0 [0x02040101] = [0x203] ∧ reply t0 [0x02000403] = [0x202] ∧ reply t0 [0x02010000] = [0x203] ∧
    reply t0 [0x02000500] = [0x202] := by decide

/-- V-ERR-1: the first error is kept, the second sets OVERFLOW, ERR_CLEAR clears. -/
theorem test_errClear :
    reply t0 [0x0200000B, 0x10FF0000, 0x03000000] = [0x202, 0x1003, 0x300] ∧
    (after t0 [0x0200000B]).err.errWord = 0x102 ∧ (after t0 [0x0200000B, 0x10FF0000]).err.errWord = 0x302 ∧
    (after t0 [0x0200000B, 0x10FF0000]).err.cmdWord = 0x0200000B ∧
    (after t0 [0x0200000B, 0x10FF0000, 0x03000000]).err = ErrorRegs.reset := by decide

/-- V-ERR-2: the order of the checks. -/
theorem test_check_order :
    reply t0 [0x2201FF01] = [0x2202] ∧ reply t0 [0x2201FF00] = [0x2204] ∧ reply t0 [0x2209FF00] = [0x2203] := by decide

/-- V-CTL-4: a word written and read back, -0.0 too. -/
theorem test_bufWrite :
    reply t0 [0x08000200, 3, 0, 0, 0x3FE00000, 0x09000200, 3, 0] = [0x800, 0x900, 0, 0x3FE00000] ∧
    reply t0 [0x08000000, 0, 0, 0, 0x80000000, 0x09000000, 0, 0] = [0x800, 0x900, 0, 0x80000000] := by decide

/-- V-CTL-4: refusals, in their order. -/
theorem test_bufWrite_refused :
    reply t0 [0x08000100, 8, 0, 0, 0x3FE00000] = [0x806] ∧ reply t0 [0x08000400, 0, 0, 0, 0x3FE00000] = [0x804] ∧
    reply t0 [0x08000400, 8, 0, 0, 0x7FF80000] = [0x804] ∧ reply t0 [0x08000000, 8, 0, 0, 0x7FF80000] = [0x805] := by
  decide

/-- V-CTL-4 -/
theorem test_bufRead : reply t0 [0x09000000, 0xFFFFFFFF, 0xFFFFFFFF] = [0x906] := by decide

/-- V-CTL-4; R258: only the named buffer is cleared (buffer 1 is the words 8..15). -/
theorem test_bufClear :
    reply t0 [0x0A000100] = [0xA00] ∧
    (after { t0 with mem := [(7, c1), (8, c1), (15, c2), (16, c2)] } [0x0A000100]).mem = [(7, c1), (16, c2)] := by
  decide +kernel

/-- V-OSC-11 -/
theorem test_oscInit :
    reply t0 [0x10000400] = [0x1002] ∧ reply t0 [0x10040000] = [0x1003] ∧
    (after t0 [0x10030200]).oscAt 3 = { waveform := .saw, phase := c0, frequency := c0 } := by decide

/-- V-OSC-3: one period of the saw is four words; V-OSC-1: PHASE ends at 0.0. -/
theorem test_oscRender_saw :
    let s := after t0 [0x10000200, 0x11000001, 0, 0x40C58880, 0, 0x3FF00000, 0, 0, 0, 0]
    words s 0 = [cNeg1, fneg c0p5, c0, c0p5, cNeg1, fneg c0p5, c0, c0p5] ∧
    s.oscAt 0 = { waveform := .saw, phase := c0, frequency := fdecimal false 11025 0 } := by decide +kernel

/-- V-OSC-4; V-OSC-11: a NaN frequency is refused. -/
theorem test_oscRender_triangle :
    words (after t0 [0x10000300, 0x11000001, 0, 0x40C58880, 0, 0x3FF00000, 0, 0, 0, 0]) 0 =
      [c1, c0, cNeg1, c0, c1, c0, cNeg1, c0] ∧
    reply t0 [0x11000001, 0, 0x7FF80000, 0, 0x3FF00000, 0, 0, 0, 0] = [0x1105] := by decide +kernel

/-- V-ENV-1: A = D = R = 2, SUSTAIN_SAMPLES 1, S 0.5. -/
theorem test_envInit :
    (after t0 [0x20000000, 0x9999999A, 0x3FA99999, 0x9999999A, 0x3FA99999, 0, 0x3FE00000, 0x9999999A, 0x3FA99999, 0,
      0]).envAt 0 = (envState .attack 0 0 c0 c0).envAt 0 := by decide +kernel

/-- V-ENV-5 -/
theorem test_sampleCount :
    [fdecimal true 5 0, c0, fdecimal false 2 2, fdecimal false 227 4, fdecimal false 5 2, c1, c1000,
      fdecimal false 2000000 0].map sampleCount = [1, 1, 1, 1, 2, 44, 44100, 44100000] := by decide +kernel

/-- V-ENV-1, steps 1 to 3. -/
theorem test_envStep :
    reply (envState .attack 0 0 c0 c0) [0x21000000, 0x21000000, 0x21000000] =
      [0x2100, 0, 0, 0x2100, 0, 0x3FD00000, 0x2100, 0, 0x3FE40000] := by decide +kernel

/-- V-ENV-1, step 5: DECAY to SUSTAIN; V-ENV-2: el = R sets FINISHED. -/
theorem test_envStep_transitions :
    (after (envState .decay 4 0 (fdecimal false 6875 4) c0) [0x21000000]).envAt 0 =
      (envState .sustain 5 0 (fdecimal false 59375 5) c0).envAt 0 ∧
    ((after (envState .release 7 5 c1 c1) [0x21000000]).envAt 0).finished = true := by decide +kernel

/-- V-ENV-6 on the words of two buffers' worth of ones: b0 is scaled, b1 is not. -/
theorem test_envApply :
    let s := after { envState .attack 0 0 c0 c0 with mem := (List.range 16).map fun a => (a, c1) } [0x22000000]
    words s 0 = [0, 0x3FD0000000000000, 0x3FE4000000000000, 0x3FE6000000000000, 0x3FE3000000000000,
      0x3FE1800000000000, 0x3FE0C00000000000, 0x3FE0600000000000] ∧
    words s 1 = List.replicate 8 c1 ∧ (s.envAt 0).sampleIndex = 8 ∧ (s.envAt 0).stage = .sustain := by decide +kernel

/-- V-ENV-2: note-off from SUSTAIN; V-ENV-4: a second one changes nothing. -/
theorem test_envNoteOff :
    (after (envState .sustain 5 0 (fdecimal false 59375 5) c0) [0x23000000]).envAt 0 =
      (envState .release 5 5 (fdecimal false 59375 5) (fdecimal false 59375 5)).envAt 0 ∧
    (after (envState .release 12 10 c0p25 c0p5) [0x23000000]).envAt 0 = (envState .release 12 10 c0p25 c0p5).envAt 0 := by
  decide +kernel

/-- V-FILT-2, V-ERR-3: the clamps of CUTOFF and Q; a NaN operand is refused and changes nothing but the error. -/
theorem test_filtUpdate :
    clampCutoff (fdecimal false 5 0) = c20 ∧ clampQ c0 = c0p1 ∧ clampCutoff (fdecimal false 30000 0) = c20000 ∧
    clampQ c50 = c10 ∧
    (let s := after t0 [0x30000000, 0, 0x7FF80000, 0, 0x3FF00000]
     s.respPort = [0x3005] ∧ s.filt = t0.filt) := by decide +kernel

/-- R205: CUR becomes TGT, the taps +0.0, NONFINITE 0; FALLBACK stays. -/
theorem test_filtReset :
    (after (t0.setFilt 1 { Filt.reset with tgt := ⟨c1, c2, c0p5, c0p1, c0⟩, z1 := c1, z2 := c2, nonfinite := true, fallback := true })
      [0x31010000]).filtAt 1 =
      { Filt.reset with tgt := ⟨c1, c2, c0p5, c0p1, c0⟩, cur := ⟨c1, c2, c0p5, c0p1, c0⟩, fallback := true } := by decide

/-- V-FILT-6: the reset filter passes 0.3 and clamps 5.0. -/
theorem test_filtProcess :
    reply t0 [0x32000000, 0x33333333, 0x3FD33333, 0x32000000, 0, 0x40140000] =
      [0x3200, 0x33333333, 0x3FD33333, 0x3200, 0, 0x3FF00000] := by decide +kernel

/-- A filter that delays by one word: A1 = 1.0, all else 0.0, in transposed direct form II (R207). -/
def delayFilter : Filt := { Filt.reset with tgt := ⟨c0, c1, c0, c0, c0⟩, cur := ⟨c0, c1, c0, c0, c0⟩ }

theorem test_filtApply :
    words (after { t0.setFilt 0 delayFilter with mem := [(0, c0p5), (2, cNeg1)] } [0x33000000]) 0 =
      [c0, c0p5, c0, cNeg1, c0, c0, c0, c0] := by decide +kernel

/-- V-LFO-6; R230: only a change of ENABLED resets. -/
theorem test_lfoEnable :
    reply t0 [0x40010100] = [0x4003] ∧ reply t0 [0x40000200] = [0x4002] ∧
    (after { t0 with lfo := { enabled := true, phase := c1, prev := c2 } } [0x40000100]).lfo =
      { enabled := true, phase := c1, prev := c2 } ∧
    (after { t0 with lfo := { enabled := true, phase := c1, prev := c2 } } [0x40000000]).lfo = Lfo.reset := by decide

/-- V-LFO-1, V-LFO-6: disabled it answers 0.0; a NaN operand is refused even so. -/
theorem test_lfoStep :
    reply t0 [0x41000000, 0, 0x40240000, 0, 0x40590000] = [0x4100, 0, 0] ∧
    reply t0 [0x41000000, 0, 0x7FF80000, 0, 0x3FF00000] = [0x4105] := by decide

/-- V-SCN-6: the PCM conversion of the reference host, the clamp and the bytes. -/
theorem test_pcm :
    hostPcm (referenceHostParams 0) (fdecimal false 59375 5) = 19455 ∧
    hostPcm (referenceHostParams 0) 0x8000000000000000 = 0 ∧
    hostPcm (referenceHostParams 0) c1 + hostPcm (referenceHostParams 0) c1 = 65534 ∧
    pcmBytes (clampPcm 65534) = [0xFF, 0x7F] ∧ pcmBytes (clampPcm (-65534)) = [0x00, 0x80] := by decide +kernel

def osc0 : OscControls where
  waveform := .saw
  volume := c1
  detune := c0
  octave := 0
  unison := 1

def snapshot0 : Snapshot where
  osc1 := osc0
  osc2 := osc0
  masterVolume := c1
  attackMs := c0
  decayMs := c0
  releaseMs := c0
  sustainMs := c0
  sustain := c100
  filterEnabled := false
  filterType := .lowpass
  cutoff := c50
  resonance := c50
  lfoEnabled := false
  lfoRate := c0
  lfoDepth := c0
  lfoTarget := .pitch

def a440 : F64 := fdecimal false 440 0

def link0 : Link := { block := t0, known := testParams, failed := false, budget := none }

def idle : Bank := Bank.empty testParams

/-- noteOn(440.0), in an empty bank. -/
def oneNote : Link × Bank := noteOn (referenceHostParams 0) 0 snapshot0 a440 link0 idle

/-- noteOn(440.0) again. -/
def twoNotes : Link × Bank := noteOn (referenceHostParams 0) 1 snapshot0 a440 oneNote.1 oneNote.2

/-- V-SCN-5: slot 1 is the one reachable, slot 0 keeps sounding. -/
theorem test_noteOn_twice :
    oneNote.2.lookup a440 = some 0 ∧ twoNotes.2.lookup a440 = some 1 ∧ twoNotes.2.slots.map Option.isSome = [true, true] ∧
    (twoNotes.1.block.envAt 0).stage = .attack ∧ twoNotes.1.failed = false := by decide +kernel

/-- V-SCN-5: the note-off releases env1 and removes the entry. -/
theorem test_noteOff :
    let r := noteOffAt a440 twoNotes.1 twoNotes.2
    r.2.lookup a440 = none ∧ (r.1.block.envAt 0).stage = .attack ∧ (r.1.block.envAt 1).stage = .release := by
  decide +kernel

/-- R343: what bring-up learns, with HOLD to tell CFG_FLAGS apart. -/
theorem test_bringUp :
    ((bringUp (State.powerOn { testParams with unisonBasePhase := .hold })).map fun k => (k.1, k.2.known)) =
      some (0x53594E5400000001, { testParams with unisonBasePhase := .hold }) := by decide +kernel

/-- R294: the ends of two ranges and the first values beyond. -/
theorem test_snapshot_ranges :
    snapshot0.inRange = true ∧ { snapshot0 with lfoRate := c20 }.inRange = true ∧
    { snapshot0 with lfoRate := c50 }.inRange = false ∧
    { snapshot0 with osc1 := { osc0 with octave := -3 } }.inRange = false ∧
    { snapshot0 with osc2 := { osc0 with unison := 17 } }.inRange = false ∧
    { snapshot0 with sustain := c1000 }.inRange = false := by decide +kernel

/-- D47: the reference maps at the ends of their controls that need no FN value. -/
theorem test_referenceQ : referenceQ c0 = c0p1 ∧ referenceQ c100 = c10 := by decide +kernel

def synth0 : Synth where
  link := link0
  id := CORE_ID
  bank := idle
  events := []
  lfoSent := false
  mixer := .idle
  running := false
  deadline := 0
  sink := none
  visualizer := []
  failures := []

/-- The synthesizer just started at the time 0. -/
def started : Synth :=
  { synth0 with mixer := .running, running := true, deadline := 8, sink := some { format := pcmFormat, isOpen := true, written := [] } }

/-- R299: the input thread only queues; the next turn of the loop takes the event and sends its commands. -/
theorem test_post :
    let y := (started.post (.on a440)).turn (referenceHostParams 0) 0 none snapshot0
    (started.post (.on a440)).link = started.link ∧ y.events = [] ∧ y.bank.lookup a440 = some 0 ∧
    y.deadline = 16 ∧ y.visualizer.length = 1 ∧ y.failures = [] := by decide +kernel

/-- R297: the host fails at once, the event stays queued, the buffer is silence; and an `err.clear` clears ERR. -/
theorem test_failed_turn :
    let y := (started.post (.on a440)).turn (referenceHostParams 0) 3 (some 0) snapshot0
    y.visualizer = [List.replicate 16 0] ∧ y.failures = [3] ∧ y.events = [.on a440] ∧ y.link = link0 ∧
    ({ synth0 with link := { link0 with block := { t0 with err := { code := .badField, valid := true, overflow := false, cmd := 1 } } } } : Synth).clearErrors.link.block.err = ErrorRegs.reset := by
  decide +kernel

/-! ### Witnesses: a state and operands that meet the hypotheses of each statement that has some -/

theorem t0_sized : t0.Sized := ⟨rfl, rfl, rfl⟩

theorem t0_legal : LegalParams t0.params := by constructor <;> decide +kernel

theorem t0_good : t0.Good := by
  refine ⟨⟨t0_legal, t0_sized, by decide, by decide⟩, ?_, ?_, ?_, ?_, ?_, by decide⟩
  · constructor <;> decide
  · intro o ho
    obtain ⟨-, rfl⟩ := List.mem_replicate.1 ho
    constructor <;> decide +kernel
  · intro e he
    obtain ⟨-, rfl⟩ := List.mem_replicate.1 he
    constructor <;> decide +kernel
  · intro f hf
    obtain ⟨-, rfl⟩ := List.mem_replicate.1 hf
    constructor <;> decide +kernel
  · constructor <;> decide +kernel

theorem witness_EncodeDecode : decode [0x00123456, 7] = .command (.nop 0x12 0x34 0x56) [7] := by decide

theorem witness_PacketLengthFromOpcode :
    decode [0x20000000, 0, 0, 0, 0, 0, 0, 0, 0, 0, 0] = .command (.envInit 0 0 0 0 0 0 0 0) [] ∧
    decode [0x05000000] = .illegal 0x05000000 [] ∧
    decode [0x20000000, 0, 0, 0, 0, 0, 0, 0, 0, 0] = .incomplete := by decide

/-- Both ends of each range of R118. -/
theorem witness_IllegalOpcodes :
    ([0x04000000, 0x07000000, 0x0B000000, 0x0F000000, 0x12000000, 0x1F000000, 0x24000000, 0x2F000000, 0x34000000,
      0x3F000000, 0x42000000, 0xFF000000].map fun h => decode [h, 7]) =
    [0x04000000, 0x07000000, 0x0B000000, 0x0F000000, 0x12000000, 0x1F000000, 0x24000000, 0x2F000000, 0x34000000,
      0x3F000000, 0x42000000, 0xFF000000].map fun h => .illegal h [7] := by decide

theorem witness_PacketWords :
    (Instr.envInit 0 0 0 1 2 3 4 5).operands[0]? = some 1 ∧ (Instr.envInit 0 0 0 1 2 3 4 5).operands[4]? = some 5 := by
  decide

def withWords (s : State) (ws : List Word) : State := { s with cmdPort := ws }

theorem witness_StepRunsDecodedCommand :
    decode (withWords t0 [0x02000000, 9]).cmdPort = .command (.regRead 0 0 0) [9] := by decide

theorem witness_StepWaits :
    decode t0.cmdPort = .incomplete ∧ decode (withWords t0 [0x09000000, 1]).cmdPort = .incomplete := by decide

theorem witness_LaterWordsDoNotMatter :
    decode (withWords t0 [0x05000000]).cmdPort ≠ .incomplete ∧ ∃ t, step (withWords t0 [0x05000000]) = .next t :=
  ⟨by decide, _, rfl⟩

theorem witness_OneResponsePerCommand :
    (Instr.bufRead 0 3 0 7).failure t0.params = none ∧ (Instr.bufRead 0 3 0 8).failure t0.params ≠ none ∧
    decode (withWords t0 [0xFF000000]).cmdPort = .illegal 0xFF000000 [] := by decide

/-- Every status a command can fail with. -/
theorem witness_FailingCommand :
    (Instr.oscInit 0 4 0).failure t0.params = some .badField ∧
    (Instr.oscInit 4 0 0).failure t0.params = some .badInstance ∧
    (Instr.bufClear 0 4 0).failure t0.params = some .badBuffer ∧
    (Instr.filtProcess 0 0 0 0x7FF0000000000000).failure t0.params = some .nonfiniteOperand ∧
    (Instr.bufRead 0 0 0 8).failure t0.params = some .badIndex ∧
    decode (withWords t0 [0x04000000]).cmdPort = .illegal 0x04000000 [] := by decide

/-- One command for each status of R312, at the first value its check refuses, and one that passes all checks. -/
theorem witness_CheckOrder :
    (Instr.bufWrite 0 0 1 0 0).wellFormed = false ∧
    ((Instr.oscInit 4 3 0).wellFormed = true ∧ (Instr.oscInit 4 3 0).instanceCount t0.params = some 4) ∧
    ((Instr.envApply 1 4 0).instanceCount t0.params = some 2 ∧ (Instr.envApply 1 4 0).bufferField = some 4 ∧
      t0.params.numBuf = 4) ∧
    (0x7FF0000000000000 ∈ (Instr.bufWrite 0 3 0 8 0x7FF0000000000000).realOperands ∧
      isInf 0x7FF0000000000000 = true) ∧
    ((Instr.bufWrite 0 3 0 8 0).indexOperand = some 8 ∧ t0.params.n = 8) ∧
    (Instr.bufWrite 0 3 0 7 0x7FEFFFFFFFFFFFFF).failure t0.params = none := by decide

theorem witness_WhatNoCommandChanges : t0.Sized ∧ ∃ t, exec (.coreReset 0 0 0) t0 = .next t := ⟨t0_sized, _, rfl⟩

/-- The last register of each class, of its last unit. -/
theorem witness_RegReadValues :
    ([c0, c1, c1][2]? = some c1 ∧ (4 : Byte).toNat = 4) ∧
    ([0x53594E5400000001, BitVec.ofNat 64 t0.params.n, BitVec.ofNat 64 t0.params.numVoices,
      BitVec.ofNat 64 t0.params.numBuf, 0, 0, 1, t0.params.envAlpha, t0.params.filtSmoothK, t0.params.lfoAlpha,
      t0.params.softclipDrive][(10 : Byte).toNat]? = some c1 ∧ (0 : Byte).toNat < 1) ∧
    ([0, (t0.oscAt 3).phase, (t0.oscAt 3).frequency][(2 : Byte).toNat]? = some c0 ∧
      (3 : Byte).toNat < 2 * t0.params.numVoices) ∧
    ([3, 1, (t0.envAt 1).sampleIndex, 0, 0, 0, 1, 1, 1, 1, (t0.envAt 1).sustainLevel][(10 : Byte).toNat]? = some c0 ∧
      (1 : Byte).toNat < t0.params.numVoices) ∧
    ([if t0.lfo.enabled then 1 else 0, t0.lfo.phase, t0.lfo.prev][(2 : Byte).toNat]? = some c0) := by decide

theorem witness_BufWriteStores :
    Memory.wf t0.mem ∧ (3 : Byte).toNat < t0.params.numBuf ∧ isFinite cNeg1 = true ∧ (7 : U64).toNat < t0.params.n := by
  decide

theorem witness_BufReadAnswers : (3 : Byte).toNat < t0.params.numBuf ∧ (7 : U64).toNat < t0.params.n := by decide

theorem witness_BufClearFills : Memory.wf t0.mem ∧ (3 : Byte).toNat < t0.params.numBuf := by decide

/-- Each clause: a command of no buffer, and one of a buffer. -/
theorem witness_BufferAccess :
    Memory.wf t0.mem ∧ (∃ t, exec (.filtReset 1 0 0) t0 = .next t) ∧ (Instr.filtReset 1 0 0).bufferField = none ∧
    (Instr.filtReset 1 0 0).opc ≠ 0x01 ∧ (∃ t, exec (.bufClear 0 3 0) t0 = .next t) ∧
    (Instr.bufClear 0 3 0).bufferField = some 3 :=
  ⟨by decide, ⟨_, rfl⟩, rfl, by decide, ⟨_, rfl⟩, rfl⟩

/-- The last oscillator; the four waveforms are the four cases of FA. -/
theorem witness_OscInitStarts : (3 : Byte).toNat < t0.params.numOsc := by decide

/-- The counts 0 and 1, operands at both ends of the finite range. -/
theorem witness_OscRenderSingle :
    Memory.wf t0.mem ∧ (3 : Byte).toNat < t0.params.numOsc ∧ (3 : Byte).toNat < t0.params.numBuf ∧
    (0 : Byte).toNat ≤ 1 ∧ (1 : Byte).toNat ≤ 1 ∧ isFinite 0x7FEFFFFFFFFFFFFF = true ∧
    isFinite 0xFFEFFFFFFFFFFFFF = true := by decide

/-- The counts 2 and 255. -/
theorem witness_OscRenderUnison :
    Memory.wf t0.mem ∧ (3 : Byte).toNat < t0.params.numOsc ∧ (3 : Byte).toNat < t0.params.numBuf ∧
    1 < (2 : Byte).toNat ∧ 1 < (255 : Byte).toNat ∧ isFinite 0x7FEFFFFFFFFFFFFF = true ∧
    isFinite 0xFFEFFFFFFFFFFFFF = true := by decide

theorem witness_RenderedWordsInRange :
    t0.Good ∧ (Instr.oscRender 3 3 255 c20000 c2 0 c1).failure t0.params = none ∧
    ∃ t, exec (.oscRender 3 3 255 c20000 c2 0 c1) t0 = .next t :=
  ⟨t0_good, by decide, _, rfl⟩

/-- A single render (the second s0 free) and a unison render (the second s0 is the first plus N). -/
theorem witness_PhaseIsContinuous :
    t0.Sized ∧ Memory.wf t0.mem ∧ Memory.wf [(20, c1)] ∧ (3 : Byte).toNat < t0.params.numOsc ∧
    (0 : Byte).toNat < t0.params.numBuf ∧ (3 : Byte).toNat < t0.params.numBuf ∧ isFinite c1000 = true ∧
    isFinite c1 = true ∧ isFinite c0p5 = true ∧ ¬(1 < (1 : Byte).toNat) ∧ 1 < (3 : Byte).toNat ∧
    (8 : U64) = 0 + BitVec.ofNat 64 t0.params.n := ⟨t0_sized, by decide⟩

/-- Both ends of every range. -/
theorem witness_TrackFrequencies :
    Within c0 NYQ c0 ∧ Within c0 NYQ NYQ ∧ Within c0 c1 c0 ∧ Within c0 c1 c1 ∧ feq 0x8000000000000000 c0 = true ∧
    Within c0 NYQ 0x8000000000000000 := by decide +kernel

theorem witness_EnvInitStarts :
    (1 : Byte).toNat < t0.params.numEnv ∧ isFinite c0 = true ∧ isFinite 0x7FEFFFFFFFFFFFFF = true ∧
    isFinite 0xFFEFFFFFFFFFFFFF = true ∧ isFinite c1 = true := by decide

/-- Each stage clause at its boundary: attack and decay at their last and first samples, release at its last and at R. -/
theorem witness_EnvStepSamples :
    (1 : Byte).toNat < t0.params.numEnv ∧
    (let e := (envState .attack 1 0 c0 c0).envAt 0
     e.stage = .attack ∧ e.sampleIndex.toNat < e.attackSamples.toNat) ∧
    (let e := (envState .attack 2 0 c0 c0).envAt 0
     e.stage = .attack ∧ e.attackSamples.toNat ≤ e.sampleIndex.toNat ∧
      (e.sampleIndex - e.attackSamples).toNat < e.decaySamples.toNat) ∧
    (let e := (envState .decay 4 0 c0 c0).envAt 0
     e.stage = .decay ∧ e.decaySamples.toNat ≤ (e.sampleIndex - e.attackSamples).toNat) ∧
    (let e := (envState .release 6 5 c0 c0).envAt 0
     e.stage = .release ∧ (e.sampleIndex - e.releaseStart).toNat < e.releaseSamples.toNat) ∧
    (let e := (envState .release 7 5 c0 c0).envAt 0
     e.stage = .release ∧ e.releaseSamples.toNat ≤ (e.sampleIndex - e.releaseStart).toNat) := by decide

theorem witness_EnvApplyIsSteps :
    Memory.wf t0.mem ∧ (1 : Byte).toNat < t0.params.numEnv ∧ (3 : Byte).toNat < t0.params.numBuf ∧
    t0.params = t0.params := by decide

theorem witness_EnvNoteOffReleases :
    t0.Sized ∧ (1 : Byte).toNat < t0.params.numEnv ∧ ((envState .attack 0 0 c0 c0).envAt 0).stage ≠ .release ∧
    (t0.envAt 1).stage = .release := ⟨t0_sized, by decide, by decide, by decide⟩

/-- A note-off, then one idle step, then words from the host. -/
theorem witness_SecondNoteOffChangesNothing :
    t0.Sized ∧ (1 : Byte).toNat < t0.params.numEnv ∧
    ∃ t, exec (.envNoteOff 1 0 0) t0 = .next t ∧
      (step t = .next t ∧
        ∀ i rest, decode t.cmdPort = .command i rest → ¬(i.opc = 0x20 ∧ i.inst = 1 ∧ i.failure t.params = none)) ∧
      ∃ ws, withWords t [0x21010000] = { t with cmdPort := t.cmdPort ++ ws } := by
  refine ⟨t0_sized, by decide, _, rfl, ⟨rfl, ?_⟩, [0x21010000], rfl⟩
  intro i rest h
  have hd : decode [] = .incomplete := rfl
  exact absurd (hd.symm.trans h) (by simp)

theorem witness_IdleEnvelopeAnswersZero :
    LegalParams t0.params ∧ (1 : Byte).toNat < t0.params.numEnv ∧ (t0.envAt 1).stage = .release ∧
    (t0.envAt 1).finished = true ∧ (t0.envAt 1).envAtRelease = c0 ∧ (t0.envAt 1).prev = c0 ∧
    (let s := envState .release 7 5 c0p5 c0p5
     LegalParams s.params ∧ (0 : Byte).toNat < s.params.numEnv ∧ (s.envAt 0).stage = .release ∧
       (s.envAt 0).releaseSamples.toNat ≤ ((s.envAt 0).sampleIndex - (s.envAt 0).releaseStart).toNat ∧
       Within c0 c1 (s.envAt 0).prev) :=
  ⟨t0_legal, by decide, rfl, rfl, rfl, rfl, t0_legal, by decide, rfl, by decide, by decide⟩

/-- A step of no command, the note-off that enters RELEASE, a refused ENV_INIT, and a CORE_RESET. -/
theorem witness_StageOnlyAdvances :
    step t0 = .next t0 ∧ (∀ i rest, decode t0.cmdPort ≠ .command i rest) ∧
    (∃ t, step (withWords (envState .attack 0 0 c0 c0) [0x23000000]) = .next t ∧ (t.envAt 0).stage = .release) ∧
    decode [0x23000000] = .command (.envNoteOff 0 0 0) [] ∧ (Instr.envNoteOff 0 0 0).opc ≠ 0x20 ∧
    (Instr.envInit 0 1 0 0 0 0 0 0).failure t0.params ≠ none ∧
    (∃ t, step (withWords (envState .attack 0 0 c0 c0) [0x01000000]) = .next t ∧ (t.envAt 0).stage = .release) := by
  refine ⟨rfl, ?_, ⟨_, rfl, by decide⟩, by decide, by decide, by decide, ⟨_, rfl, by decide⟩⟩
  intro i rest h
  simp [t0, State.powerOn, decode] at h

/-- ENV_INIT clears FINISHED; the first release sample with elapsed = RELEASE_SAMPLES sets it, in ENV_STEP and as word 1 of
ENV_APPLY. -/
theorem witness_FinishedFlag :
    (∃ t, exec (.envInit 1 0 0 c0 c0 c1 c0 c0) t0 = .next t ∧ (t0.envAt 1).finished = true ∧
      (t.envAt 1).finished = false) ∧
    (∃ t, exec (.envStep 0 0 0) (envState .release 7 5 c0 c0) = .next t ∧
      ((envState .release 7 5 c0 c0).envAt 0).finished = false ∧ (t.envAt 0).finished = true) ∧
    ∃ t, exec (.envApply 0 0 0) (envState .release 6 5 c0 c0) = .next t ∧
      ((envState .release 6 5 c0 c0).envAt 0).finished = false ∧ (t.envAt 0).finished = true :=
  ⟨⟨_, rfl, by decide, by decide⟩, ⟨_, rfl, by decide, by decide +kernel⟩, _, rfl, by decide, by decide +kernel⟩

theorem witness_GainsInRange : t0.Good ∧ (1 : Byte).toNat < t0.params.numEnv := ⟨t0_good, by decide⟩

theorem witness_FiltUpdateDesigns :
    (1 : Byte).toNat < t0.params.numFilt ∧ isFinite 0x7FEFFFFFFFFFFFFF = true ∧ isFinite 0xFFEFFFFFFFFFFFFF = true := by
  decide

theorem witness_FiltResetSnaps : (1 : Byte).toNat < t0.params.numFilt := by decide

/-- A filter whose A0 and B1 are 2^1023: its first tap overflows on the largest input. -/
def loudFilter : Filt :=
  { Filt.reset with cur := ⟨0x7FE0000000000000, c0, c0, c0, c0⟩, tgt := ⟨0x7FE0000000000000, c0, c0, c0, c0⟩ }

/-- The two clauses: at the reset filter every value is finite for the largest input, at a loud one y is infinite. -/
theorem witness_FiltProcessSamples :
    (1 : Byte).toNat < t0.params.numFilt ∧ isFinite 0x7FEFFFFFFFFFFFFF = true ∧
    (let f := Filt.reset
     let c := nudgeCoeffs c0p5 f.cur f.tgt
     let y := filtOutput c f.z1 0x7FEFFFFFFFFFFFFF
     isFinite y = true ∧ isFinite (filtTap1 c f.z2 0x7FEFFFFFFFFFFFFF y) = true ∧
      isFinite (filtTap2 c 0x7FEFFFFFFFFFFFFF y) = true) ∧
    (let f := loudFilter
     isFinite (filtOutput (nudgeCoeffs c0p5 f.cur f.tgt) f.z1 0x7FEFFFFFFFFFFFFF) = false) := by decide +kernel

theorem witness_FiltApplyIsSteps :
    Memory.wf t0.mem ∧ Memory.finite t0.mem ∧ (1 : Byte).toNat < t0.params.numFilt ∧ (3 : Byte).toNat < t0.params.numBuf ∧
    (7 < t0.params.n ∧ t0.params = t0.params) := by decide

theorem witness_FilteredSamplesInRange :
    (1 : Byte).toNat < t0.params.numFilt ∧ isFinite 0x7FEFFFFFFFFFFFFF = true := by decide

/-- The filter at reset, and with the taps -0.0 that a sample can leave. -/
theorem witness_ResetFilterPasses :
    LegalParams t0.params ∧ (1 : Byte).toNat < t0.params.numFilt ∧ isFinite 0x7FEFFFFFFFFFFFFF = true ∧
    (t0.filtAt 1).cur = Coeffs.identity ∧ (t0.filtAt 1).tgt = Coeffs.identity ∧ feq (t0.filtAt 1).z1 c0 = true ∧
    feq (t0.filtAt 1).z2 c0 = true ∧ feq 0x8000000000000000 c0 = true :=
  ⟨t0_legal, by decide, by decide, rfl, rfl, by decide, by decide, by decide⟩

/-- Both clauses for both values of FA. -/
theorem witness_LfoEnableSets :
    t0.lfo.enabled ≠ true ∧ t0.lfo.enabled = false ∧
    (let l : Lfo := { enabled := true, phase := c1, prev := c1 }
     l.enabled ≠ false ∧ l.enabled = true) := by decide

theorem witness_LfoStepSamples :
    isFinite 0x7FEFFFFFFFFFFFFF = true ∧ isFinite 0xFFEFFFFFFFFFFFFF = true ∧ t0.lfo.enabled = false ∧
    { t0 with lfo := { t0.lfo with enabled := true } }.lfo.enabled = true := by decide

/-- The hypotheses are met where the bound of R233 is passed by one rounding (log 16). -/
theorem witness_SmoothingStaysWithin25 :
    flt c0 0x3FD27BF3BAEB42B5 = true ∧ flt 0x3FD27BF3BAEB42B5 c1 = true ∧
    Within 0xC039000000000000 0x4039000000000000 0x4039000000000000 := by decide +kernel

/-- A run that is more than the power-on state: words from the host, then a step. -/
theorem witness_BufferWordsStayFinite :
    LegalParams testParams ∧ Run (State.powerOn testParams) (steps 1 (withWords t0 [0x0A000300])) ∧
    3 < testParams.numBuf ∧ 7 < testParams.n :=
  ⟨t0_legal, .step (.send (.refl t0) [0x0A000300]) rfl, by decide, by decide⟩

theorem witness_StepKeepsGood : t0.Good ∧ step t0 = .next t0 := ⟨t0_good, rfl⟩

/-- The least and the greatest legal counts. -/
theorem witness_PowerOnIsGood :
    LegalParams { testParams with n := 1, numVoices := 1, numBuf := 1, filtSmoothK := c1 } ∧
    LegalParams { testParams with n := 65536, numVoices := 128, numBuf := 256, lfoAlpha := 0x3FEFFFFFFFFFFFFF } := by
  constructor <;> constructor <;> decide +kernel

/-- A command of each unit class, and what its class nibble and INST say. -/
theorem witness_UnitsAreNotWrittenByOthers :
    (∃ t, exec (.filtReset 1 0 0) t0 = .next t) ∧ (Instr.filtReset 1 0 0).opc ≠ 0x01 ∧
    ¬((Instr.filtReset 1 0 0).opc.toNat / 16 = 3 ∧ (Instr.filtReset 1 0 0).inst.toNat = 0) ∧
    ¬((Instr.filtReset 1 0 0).opc.toNat / 16 = 1) ∧ ¬((Instr.filtReset 1 0 0).opc.toNat / 16 = 2) ∧
    ¬((Instr.filtReset 1 0 0).opc.toNat / 16 = 4) := ⟨⟨_, rfl⟩, by decide, by decide, by decide, by decide, by decide⟩

/-- Two states that differ in every unit but the filter the command names. -/
theorem witness_UnitsAreNotReadByOthers :
    let s := t0
    let s' := { t0.setOsc 1 { waveform := .saw, phase := c1, frequency := c1 } with
      lfo := { enabled := true, phase := c1, prev := c1 } }
    1 ≤ (Instr.filtProcess 1 0 0 c1).opc.toNat / 16 ∧ s.Sized ∧ s'.Sized ∧ s.params = s'.params ∧ s.mem = s'.mem ∧
    s.filtAt 1 = s'.filtAt 1 ∧ (∃ t, exec (.filtProcess 1 0 0 c1) s = .next t) ∧
    (∃ t, exec (.filtProcess 1 0 0 c1) s' = .next t) ∧ s ≠ s' :=
  ⟨by decide, t0_sized, ⟨rfl, rfl, rfl⟩, rfl, rfl, rfl, ⟨_, rfl⟩, ⟨_, rfl⟩, by decide⟩

theorem witness_RepeatedCommands :
    Memory.wf t0.mem ∧ (Instr.envNoteOff 1 0 0).failure t0.params = none ∧
    (Instr.envNoteOff 1 0 0).opc ∈ [0x00, 0x01, 0x02, 0x03, 0x08, 0x09, 0x0A, 0x10, 0x20, 0x23, 0x30, 0x31, 0x40#8] ∧
    ∃ t, exec (.envNoteOff 1 0 0) t0 = .next t ∧ ∃ u, exec (.envNoteOff 1 0 0) t = .next u :=
  ⟨by decide, by decide, by decide, _, rfl, _, rfl⟩

/-- Both ends of the range, and the first sums beyond. -/
theorem witness_PcmClampsNeverWraps :
    clampPcm 32767 = 32767 ∧ clampPcm 32768 = 32767 ∧ clampPcm (-32768) = -32768 ∧ clampPcm (-32769) = -32768 := by
  decide

theorem witness_NoteOnLeavesOneVoice :
    isFinite a440 = true ∧ (idle.untrack a440).takeSlot .stealOldest = some 0 ∧
    (twoNotes.2.untrack a440).takeSlot .stealOldest = some 0 := by decide +kernel

theorem witness_EveryStepContinues :
    decode t0.cmdPort = .incomplete ∧ decode (withWords t0 [0x05000000]).cmdPort ≠ .incomplete := by decide

theorem witness_BringUpLearnsTheBlock : LegalParams t0.params := t0_legal

/-- Each clause: a Mixer in each state, a device with and without the format, an open sink, and both ways to fail. -/
theorem witness_MixerLifecycle :
    synth0.mixer = .idle ∧ synth0.act (referenceHostParams 0) (.start 0 [pcmFormat]) = started ∧
    pcmFormat ∉ [{ pcmFormat with sampleRate := 48000 }] ∧ started.mixer = .running ∧
    started.sink = some { format := pcmFormat, isOpen := true, written := [] } ∧
    started.stop.drain.mixer = .stopped ∧ some 0 ≠ (none : Option Nat) ∧ isFinite 0x7FF0000000000000 = false := by
  decide

end Sys2Proof.Tests
end

section
/-!
The units of the block do not interfere (R2): a command writes no unit but the one it names, and reads none but that one.
A command is its refusal, which touches no unit, or its `effect` with a response. Each relation between states below has
one rule for each operation that an effect is made of, and one lemma that every effect keeps it.
-/

namespace Sys2Proof

/-- The class of units a command works on, the high nibble of its OPC (R115): 1 the oscillators, 2 the envelopes, 3 the
filters, 4 the LFO, and 0 none of these. -/
def Instr.unitClass : Instr → Nat
  | .nop _ _ _ | .coreReset _ _ _ | .regRead _ _ _ | .errClear _ _ _ | .bufWrite _ _ _ _ _ | .bufRead _ _ _ _
  | .bufClear _ _ _ => 0
  | .oscInit _ _ _ | .oscRender _ _ _ _ _ _ _ => 1
  | .envInit _ _ _ _ _ _ _ _ | .envStep _ _ _ | .envApply _ _ _ | .envNoteOff _ _ _ => 2
  | .filtUpdate _ _ _ _ _ | .filtReset _ _ _ | .filtProcess _ _ _ _ | .filtApply _ _ _ => 3
  | .lfoEnable _ _ _ | .lfoStep _ _ _ _ _ => 4

theorem Instr.opc_div_eq_unitClass (i : Instr) : i.opc.toNat / 16 = i.unitClass := by
  cases i <;> simp [Instr.opc, Instr.unitClass]

end Sys2Proof

namespace Sys2Proof.Machine

/-! ### One unit written, another read (R18) -/

theorem oscAt_setOsc_of_ne {i k : Nat} (h : i ≠ k) (s : State) (o : Osc) : (s.setOsc i o).oscAt k = s.oscAt k := by
  simp [State.oscAt, List.getD_eq_getElem?_getD, List.getElem?_set_ne h]

theorem envAt_setEnv_of_ne {i k : Nat} (h : i ≠ k) (s : State) (e : Env) : (s.setEnv i e).envAt k = s.envAt k := by
  simp [State.envAt, List.getD_eq_getElem?_getD, List.getElem?_set_ne h]

theorem filtAt_setFilt_of_ne {i k : Nat} (h : i ≠ k) (s : State) (f : Filt) :
    (s.setFilt i f).filtAt k = s.filtAt k := by
  simp [State.filtAt, List.getD_eq_getElem?_getD, List.getElem?_set_ne h]

/-- Also past the end of both lists, where neither write acts. -/
theorem getD_set_self_congr {α : Type} {l l' : List α} (h : l.length = l'.length) (i : Nat) (a d : α) :
    (l.set i a).getD i d = (l'.set i a).getD i d := by
  simp [List.getD_eq_getElem?_getD, List.getElem?_set, h]

/-! ### What a command can do -/

theorem eq_refuse_of_exec {i : Instr} {s t : State} {st : Status} (hf : i.failure s.params = some st)
    (h : exec i s = .next t) : t = s.refuse st i.header :=
  Host.Outcome.next.inj (h.symm.trans (exec_refused hf))

theorem eq_respond_of_exec {i : Instr} {s t : State} (hf : i.failure s.params = none) (h : exec i s = .next t) :
    t = (effect i s).respond i.opc (result i s) :=
  Host.Outcome.next.inj (h.symm.trans (exec_performed hf))

theorem effect_respPort (i : Instr) (s : State) : (effect i s).respPort = s.respPort := by cases i <;> rfl

/-! ### No other unit is written -/

/-- Every unit that the command i does not name is in t as in s: OPC's high nibble names the class, INST the instance
(R115, R116). -/
structure KeepsOtherUnits (i : Instr) (s t : State) : Prop where
  osc : ∀ k, ¬(i.unitClass = 1 ∧ i.inst.toNat = k) → t.oscAt k = s.oscAt k
  env : ∀ k, ¬(i.unitClass = 2 ∧ i.inst.toNat = k) → t.envAt k = s.envAt k
  filt : ∀ k, ¬(i.unitClass = 3 ∧ i.inst.toNat = k) → t.filtAt k = s.filtAt k
  lfo : ¬(i.unitClass = 4 ∧ i.inst.toNat = 0) → t.lfo = s.lfo

namespace KeepsOtherUnits

theorem refl (i : Instr) (s : State) : KeepsOtherUnits i s s :=
  ⟨fun _ _ => rfl, fun _ _ => rfl, fun _ _ => rfl, fun _ => rfl⟩

theorem withErr {i : Instr} {s t : State} (h : KeepsOtherUnits i s t) (e : ErrorRegs) :
    KeepsOtherUnits i s { t with err := e } := ⟨h.osc, h.env, h.filt, h.lfo⟩

theorem withMem {i : Instr} {s t : State} (h : KeepsOtherUnits i s t) (m : Memory) :
    KeepsOtherUnits i s { t with mem := m } := ⟨h.osc, h.env, h.filt, h.lfo⟩

theorem respond {i : Instr} {s t : State} (h : KeepsOtherUnits i s t) (opc : Byte) (r : Option U64) :
    KeepsOtherUnits i s (t.respond opc r) := ⟨h.osc, h.env, h.filt, h.lfo⟩

theorem refuse (i : Instr) (s : State) (st : Status) (hdr : Word) : KeepsOtherUnits i s (s.refuse st hdr) :=
  ⟨fun _ _ => rfl, fun _ _ => rfl, fun _ _ => rfl, fun _ => rfl⟩

theorem setOsc {i : Instr} (hc : i.unitClass = 1) (s : State) (o : Osc) :
    KeepsOtherUnits i s (s.setOsc i.inst.toNat o) :=
  { refl i s with osc := fun _ hk => oscAt_setOsc_of_ne (fun hi => hk ⟨hc, hi⟩) s o }

theorem setEnv {i : Instr} (hc : i.unitClass = 2) (s : State) (e : Env) :
    KeepsOtherUnits i s (s.setEnv i.inst.toNat e) :=
  { refl i s with env := fun _ hk => envAt_setEnv_of_ne (fun hi => hk ⟨hc, hi⟩) s e }

theorem setFilt {i : Instr} (hc : i.unitClass = 3) (s : State) (f : Filt) :
    KeepsOtherUnits i s (s.setFilt i.inst.toNat f) :=
  { refl i s with filt := fun _ hk => filtAt_setFilt_of_ne (fun hi => hk ⟨hc, hi⟩) s f }

/-- The only LFO has the index 0: a command with another INST fails its check (R116). -/
theorem setLfo {i : Instr} (hc : i.unitClass = 4) (hi : i.inst.toNat < 1) (s : State) (l : Lfo) :
    KeepsOtherUnits i s { s with lfo := l } :=
  { refl i s with lfo := fun hk => absurd ⟨hc, Nat.lt_one_iff.1 hi⟩ hk }

end KeepsOtherUnits

/-- A command that is performed keeps every unit it does not name, CORE_RESET apart (R2, R251). -/
theorem effect_keepsOtherUnits {i : Instr} {s : State} (hop : i.opc ≠ 0x01) (hf : i.failure s.params = none) :
    KeepsOtherUnits i s (effect i s) := by
  obtain ⟨-, hinst, -⟩ := failure_none_iff.1 hf
  have same := KeepsOtherUnits.refl i s
  cases i with
  | coreReset => exact absurd rfl hop
  | nop | regRead | bufRead => exact same
  | errClear => exact same.withErr _
  | bufWrite | bufClear => exact same.withMem _
  | oscInit => exact .setOsc rfl s _
  | oscRender => exact (KeepsOtherUnits.setOsc rfl s _).withMem _
  | envInit | envStep | envNoteOff => exact .setEnv rfl s _
  | envApply => exact (KeepsOtherUnits.setEnv rfl s _).withMem _
  | filtUpdate | filtReset | filtProcess => exact .setFilt rfl s _
  | filtApply => exact (KeepsOtherUnits.setFilt rfl s _).withMem _
  | lfoEnable | lfoStep => exact .setLfo rfl (hinst 1 rfl) s _

/-- Settles O53: a refusal writes no unit, and a performed command keeps the others (`effect_keepsOtherUnits`). -/
theorem unitsAreNotWrittenByOthers : Obligations.UnitsAreNotWrittenByOthers := by
  intro i s t k h hop
  have kept : KeepsOtherUnits i s t := by
    cases hf : i.failure s.params with
    | some st =>
      rw [eq_refuse_of_exec hf h]
      exact .refuse i s st _
    | none =>
      rw [eq_respond_of_exec hf h]
      exact (effect_keepsOtherUnits hop hf).respond _ _
  simp only [Instr.opc_div_eq_unitClass]
  exact ⟨kept.osc k, kept.env k, kept.filt k, kept.lfo⟩

/-! ### No other unit is read -/

/-- s and s' agree on all that the unit command i may read: the parameters, the buffer memory and the unit it names. -/
structure AgreesFor (i : Instr) (s s' : State) : Prop where
  params : s.params = s'.params
  mem : s.mem = s'.mem
  osc : i.unitClass = 1 → s.oscAt i.inst.toNat = s'.oscAt i.inst.toNat
  env : i.unitClass = 2 → s.envAt i.inst.toNat = s'.envAt i.inst.toNat
  filt : i.unitClass = 3 → s.filtAt i.inst.toNat = s'.filtAt i.inst.toNat
  lfo : i.unitClass = 4 → s.lfo = s'.lfo

namespace AgreesFor

variable {i : Instr} {s s' : State}

theorem withMem (h : AgreesFor i s s') {m m' : Memory} (hm : m = m') :
    AgreesFor i { s with mem := m } { s' with mem := m' } := { h with mem := hm }

theorem setOsc (h : AgreesFor i s s') (hlen : s.osc.length = s'.osc.length) {o o' : Osc} (ho : o = o') :
    AgreesFor i (s.setOsc i.inst.toNat o) (s'.setOsc i.inst.toNat o') :=
  { h with osc := fun _ => ho ▸ getD_set_self_congr hlen _ o _ }

theorem setEnv (h : AgreesFor i s s') (hlen : s.env.length = s'.env.length) {e e' : Env} (he : e = e') :
    AgreesFor i (s.setEnv i.inst.toNat e) (s'.setEnv i.inst.toNat e') :=
  { h with env := fun _ => he ▸ getD_set_self_congr hlen _ e _ }

theorem setFilt (h : AgreesFor i s s') (hlen : s.filt.length = s'.filt.length) {f f' : Filt} (hf : f = f') :
    AgreesFor i (s.setFilt i.inst.toNat f) (s'.setFilt i.inst.toNat f') :=
  { h with filt := fun _ => hf ▸ getD_set_self_congr hlen _ f _ }

theorem setLfo (h : AgreesFor i s s') {l l' : Lfo} (hl : l = l') :
    AgreesFor i { s with lfo := l } { s' with lfo := l' } := { h with lfo := fun _ => hl }

/-- What a unit command answers depends on nothing else. -/
theorem result_eq (h : AgreesFor i s s') (hc : 1 ≤ i.unitClass) : result i s = result i s' := by
  cases i with
  | nop | coreReset | regRead | errClear | bufWrite | bufRead | bufClear => exact absurd hc (Nat.not_lt_zero 0)
  | oscInit | oscRender | envInit | envApply | envNoteOff | filtUpdate | filtReset | filtApply | lfoEnable => rfl
  | envStep inst =>
    have he : s.envAt inst.toNat = s'.envAt inst.toNat := h.env rfl
    simp only [result, h.params, he]
  | filtProcess inst =>
    have hf : s.filtAt inst.toNat = s'.filtAt inst.toNat := h.filt rfl
    simp only [result, h.params, hf]
  | lfoStep => simp only [result, h.params, h.lfo rfl]

/-- What a unit command writes depends on nothing else: it keeps the agreement. -/
theorem effect_agreesFor (h : AgreesFor i s s') (hc : 1 ≤ i.unitClass) (hs : s.Sized) (hs' : s'.Sized) :
    AgreesFor i (effect i s) (effect i s') := by
  have hosc : s.osc.length = s'.osc.length := by rw [hs.osc, hs'.osc, h.params]
  have henv : s.env.length = s'.env.length := by rw [hs.env, hs'.env, h.params]
  have hfilt : s.filt.length = s'.filt.length := by rw [hs.filt, hs'.filt, h.params]
  cases i with
  | nop | coreReset | regRead | errClear | bufWrite | bufRead | bufClear => exact absurd hc (Nat.not_lt_zero 0)
  | oscInit => exact h.setOsc hosc rfl
  | oscRender inst fa fb =>
    have ho : s.oscAt inst.toNat = s'.oscAt inst.toNat := h.osc rfl
    refine (h.setOsc hosc ?_).withMem ?_ <;> simp only [h.params, h.mem, ho]
  | envInit => exact h.setEnv henv rfl
  | envStep inst =>
    have he : s.envAt inst.toNat = s'.envAt inst.toNat := h.env rfl
    exact h.setEnv henv (by rw [h.params, he])
  | envApply inst =>
    have he : s.envAt inst.toNat = s'.envAt inst.toNat := h.env rfl
    refine (h.setEnv henv ?_).withMem ?_ <;> simp only [h.params, h.mem, he]
  | envNoteOff => exact h.setEnv henv (congrArg noteOff (h.env rfl))
  | filtUpdate _ fa _ cutoff qIn =>
    exact h.setFilt hfilt (congrArg (updateFilter · (filtTypeOf fa) cutoff qIn) (h.filt rfl))
  | filtReset => exact h.setFilt hfilt (congrArg resetFilter (h.filt rfl))
  | filtProcess inst =>
    have hf : s.filtAt inst.toNat = s'.filtAt inst.toNat := h.filt rfl
    exact h.setFilt hfilt (by rw [h.params, hf])
  | filtApply inst =>
    have hf : s.filtAt inst.toNat = s'.filtAt inst.toNat := h.filt rfl
    refine (h.setFilt hfilt ?_).withMem ?_ <;> simp only [h.params, h.mem, hf]
  | lfoEnable _ fa => exact h.setLfo (congrArg (enableLfo · (decide (fa = 1))) (h.lfo rfl))
  | lfoStep => exact h.setLfo (by rw [h.params, h.lfo rfl])

end AgreesFor

/-- Settles O54: both states fail the same check, or the command's effect keeps the agreement
(`AgreesFor.effect_agreesFor`) and its result is the same (`AgreesFor.result_eq`). -/
theorem unitsAreNotReadByOthers : Obligations.UnitsAreNotReadByOthers := by
  intro i s s' t t'
  simp only [Instr.opc_div_eq_unitClass]
  intro hc hs hs' hp hm ho he hf hl h h'
  have agree : AgreesFor i s s' := ⟨hp, hm, ho, he, hf, hl⟩
  cases hfail : i.failure s.params with
  | some st =>
    rw [eq_refuse_of_exec hfail h, eq_refuse_of_exec (hp ▸ hfail) h']
    exact ⟨hm, by simp, ho, he, hf, hl⟩
  | none =>
    rw [eq_respond_of_exec hfail h, eq_respond_of_exec (hp ▸ hfail) h']
    have after := agree.effect_agreesFor hc hs hs'
    exact ⟨after.mem, by simp [effect_respPort, agree.result_eq hc], after.osc, after.env, after.filt, after.lfo⟩

end Sys2Proof.Machine
end

section
/-!
What a step can do, and what no command changes (R31, R90, R312, R313). A step is read off what the port's words decode
to, one equation per outcome; a packet's words are told from its OPC alone (R112). Nothing here looks into a unit.
-/

namespace Sys2Proof

/-! ### The words a packet takes (R110, R112) -/

/-- The words behind the packet at the front of a stream, where it is whole. -/
def Decoded.rest : Decoded → Option (List Word)
  | .command _ rest | .illegal _ rest => some rest
  | .incomplete => none

@[simp] theorem Decoded.rest_command (i : Instr) (rest : List Word) : (Decoded.command i rest).rest = some rest := rfl
@[simp] theorem Decoded.rest_illegal (h : Word) (rest : List Word) : (Decoded.illegal h rest).rest = some rest := rfl

theorem Decoded.rest_eq_none {d : Decoded} : d.rest = none ↔ d = .incomplete := by
  cases d <;> simp [Decoded.rest]

/-- The words left when 2 * k of them are taken, where there are as many. -/
def afterOperands (k : Nat) (ws : List Word) : Option (List Word) :=
  if 2 * k ≤ ws.length then some (ws.drop (2 * k)) else none

@[simp] theorem afterOperands_zero (ws : List Word) : afterOperands 0 ws = some ws := by simp [afterOperands]

theorem rest_takeOperands1 (mk : U64 → Instr) (ws : List Word) : (takeOperands1 mk ws).rest = afterOperands 1 ws := by
  match ws with
  | [] | [_] => rfl
  | _ :: _ :: rest => simp [takeOperands1, Decoded.rest, afterOperands]

theorem rest_takeOperands2 (mk : U64 → U64 → Instr) (ws : List Word) :
    (takeOperands2 mk ws).rest = afterOperands 2 ws := by
  match ws with
  | [] | [_] | [_, _] | [_, _, _] => rfl
  | _ :: _ :: _ :: _ :: rest => simp [takeOperands2, Decoded.rest, afterOperands]

theorem rest_takeOperands4 (mk : U64 → U64 → U64 → U64 → Instr) (ws : List Word) :
    (takeOperands4 mk ws).rest = afterOperands 4 ws := by
  match ws with
  | [] | [_] | [_, _] | [_, _, _] | [_, _, _, _] | [_, _, _, _, _] | [_, _, _, _, _, _] | [_, _, _, _, _, _, _] => rfl
  | _ :: _ :: _ :: _ :: _ :: _ :: _ :: _ :: rest => simp [takeOperands4, Decoded.rest, afterOperands]

theorem rest_takeOperands5 (mk : U64 → U64 → U64 → U64 → U64 → Instr) (ws : List Word) :
    (takeOperands5 mk ws).rest = afterOperands 5 ws := by
  match ws with
  | [] | [_] | [_, _] | [_, _, _] | [_, _, _, _] | [_, _, _, _, _] | [_, _, _, _, _, _] | [_, _, _, _, _, _, _]
  | [_, _, _, _, _, _, _, _] | [_, _, _, _, _, _, _, _, _] => rfl
  | _ :: _ :: _ :: _ :: _ :: _ :: _ :: _ :: _ :: _ :: rest => simp [takeOperands5, Decoded.rest, afterOperands]

/-- R112: OPC alone tells how many words a packet takes, of an unassigned opcode too. -/
theorem rest_decodeHeader (h : Word) (ws : List Word) :
    (decodeHeader h ws).rest = afterOperands (operandCount (opcOf h)) ws := by
  unfold decodeHeader operandCount
  dsimp only
  split
  all_goals simp only [*, rest_takeOperands1, rest_takeOperands2, rest_takeOperands4, rest_takeOperands5,
    afterOperands_zero, Decoded.rest_command, Decoded.rest_illegal]

/-- A whole packet is a header and its operands' words, packetLength of them, and the words behind it are left. -/
theorem packet_of_rest {ws rest : List Word} (hd : (decode ws).rest = some rest) :
    ∃ h packet, ws = h :: packet ++ rest ∧ (h :: packet).length = packetLength (opcOf h) := by
  cases ws with
  | nil => exact absurd hd (by simp [decode, Decoded.rest])
  | cons h ws =>
    rw [decode, rest_decodeHeader, afterOperands] at hd
    obtain ⟨hlen, hrest⟩ := Option.ite_none_right_eq_some.1 hd
    obtain rfl := Option.some.inj hrest
    refine ⟨h, ws.take (2 * operandCount (opcOf h)), by simp, ?_⟩
    simp [packetLength, hlen, Nat.add_comm]

end Sys2Proof

namespace Sys2Proof.Machine

/-! ### What a step can do -/

theorem step_of_command {s : State} {i : Instr} {rest : List Word} (h : decode s.cmdPort = .command i rest) :
    step s = exec i (s.accept rest) := by
  rw [step, h]

theorem step_of_illegal {s : State} {hdr : Word} {rest : List Word} (h : decode s.cmdPort = .illegal hdr rest) :
    step s = .next ((s.accept rest).refuse .illegalOpcode hdr) := by
  rw [step, h]
  exact command_refused ..

theorem step_of_incomplete {s : State} (h : decode s.cmdPort = .incomplete) : step s = .next s := by
  rw [step, h]

theorem exists_exec (i : Instr) (s : State) : ∃ t, exec i s = .next t := by
  cases hf : i.failure s.params with
  | some st => exact ⟨_, exec_refused hf⟩
  | none => exact ⟨_, exec_performed hf⟩

/-! ### What no command changes (R2, R7, R31, R251) -/

theorem effect_params (i : Instr) (s : State) : (effect i s).params = s.params := by cases i <;> rfl
theorem effect_cmdPort (i : Instr) (s : State) : (effect i s).cmdPort = s.cmdPort := by cases i <;> rfl
theorem effect_position (i : Instr) (s : State) : (effect i s).position = s.position := by cases i <;> rfl

theorem exec_frame {i : Instr} {s t : State} (h : exec i s = .next t) :
    t.params = s.params ∧ t.cmdPort = s.cmdPort ∧ t.position = s.position := by
  cases hf : i.failure s.params with
  | some st =>
    rw [eq_refuse_of_exec hf h]
    exact ⟨rfl, rfl, rfl⟩
  | none =>
    rw [eq_respond_of_exec hf h]
    exact ⟨effect_params i s, effect_cmdPort i s, effect_position i s⟩

theorem State.Sized.setOsc {s : State} (h : s.Sized) (i : Nat) (o : Osc) : (s.setOsc i o).Sized :=
  { h with osc := (length_setOsc s i o).trans h.osc }

theorem State.Sized.setEnv {s : State} (h : s.Sized) (i : Nat) (e : Env) : (s.setEnv i e).Sized :=
  { h with env := (length_setEnv s i e).trans h.env }

theorem State.Sized.setFilt {s : State} (h : s.Sized) (i : Nat) (f : Filt) : (s.setFilt i f).Sized :=
  { h with filt := (length_setFilt s i f).trans h.filt }

theorem State.Sized.withMem {s : State} (h : s.Sized) (m : Memory) : State.Sized { s with mem := m } :=
  ⟨h.osc, h.env, h.filt⟩

theorem resetAll_sized (s : State) : s.resetAll.Sized :=
  ⟨List.length_replicate, List.length_replicate, List.length_replicate⟩

/-- An effect replaces units one for one, and CORE_RESET sets up as many as the parameters say. -/
theorem effect_sized {s : State} (h : s.Sized) (i : Instr) : (effect i s).Sized := by
  cases i with
  | nop | regRead | bufRead => exact h
  | coreReset => exact resetAll_sized s
  | errClear | lfoEnable | lfoStep => exact ⟨h.osc, h.env, h.filt⟩
  | bufWrite | bufClear => exact h.withMem _
  | oscInit => exact h.setOsc _ _
  | oscRender => exact (h.setOsc _ _).withMem _
  | envInit | envStep | envNoteOff => exact h.setEnv _ _
  | envApply => exact (h.setEnv _ _).withMem _
  | filtUpdate | filtReset | filtProcess => exact h.setFilt _ _
  | filtApply => exact (h.setFilt _ _).withMem _

theorem exec_sized {i : Instr} {s t : State} (hs : s.Sized) (h : exec i s = .next t) : t.Sized := by
  cases hf : i.failure s.params with
  | some st =>
    rw [eq_refuse_of_exec hf h]
    exact ⟨hs.osc, hs.env, hs.filt⟩
  | none =>
    rw [eq_respond_of_exec hf h]
    have after := effect_sized hs i
    exact ⟨after.osc, after.env, after.filt⟩

/-- A step over a whole packet leaves the words behind it and moves one packet on, performed or refused (R31, R313). -/
theorem step_takes_packet {s : State} {rest : List Word} (h : (decode s.cmdPort).rest = some rest) :
    ∃ t, step s = .next t ∧ t.cmdPort = rest ∧ t.position = s.position + 1 := by
  cases hd : decode s.cmdPort with
  | command i ws =>
    obtain rfl : ws = rest := by simpa [hd] using h
    obtain ⟨t, ht⟩ := exists_exec i (s.accept ws)
    obtain ⟨-, hport, hpos⟩ := exec_frame ht
    exact ⟨t, (step_of_command hd).trans ht, hport, hpos⟩
  | illegal hdr ws =>
    obtain rfl : ws = rest := by simpa [hd] using h
    exact ⟨_, step_of_illegal hd, rfl, rfl⟩
  | incomplete => exact absurd (h.symm.trans (Decoded.rest_eq_none.2 hd)) (by simp)

/-- Settles O9: the accepted state is the one the statement writes out (`step_of_command`). -/
theorem stepRunsDecodedCommand : Obligations.StepRunsDecodedCommand :=
  fun _ _ _ h => step_of_command h

/-- Settles O11: a step waits, or takes the whole packet (`step_takes_packet`), whose words OPC tells
(`packet_of_rest`). -/
theorem everyStepContinues : Obligations.EveryStepContinues := by
  intro s
  cases hrest : (decode s.cmdPort).rest with
  | none =>
    have hd := Decoded.rest_eq_none.1 hrest
    exact ⟨s, step_of_incomplete hd, .inl ⟨hd, rfl⟩⟩
  | some rest =>
    obtain ⟨t, ht, rfl, hpos⟩ := step_takes_packet hrest
    refine ⟨t, ht, .inr ⟨fun hd => ?_, hpos, packet_of_rest hrest⟩⟩
    exact absurd (hrest.symm.trans (Decoded.rest_eq_none.2 hd)) (by simp)

/-- Settles O16: a refusal and a response write none of these (`exec_frame`), and no effect changes the number of units
of a sized state (`effect_sized`). -/
theorem whatNoCommandChanges : Obligations.WhatNoCommandChanges := by
  intro i s t hs h
  obtain ⟨hparams, hport, hpos⟩ := exec_frame h
  exact ⟨hparams, exec_sized hs h, hport, hpos⟩

end Sys2Proof.Machine
end

section
/-!
What a command can do to one envelope (R40-R43, R170-R182): nothing, or one of the five ways of `EnvChange`. A sample
step, one of ENV_STEP and N of ENV_APPLY, is followed through its number of samples (`Sampled`).
-/

namespace Sys2Proof.Machine

/-! ### The order of the stages (R40, R41) -/

theorem Stage.number_le_release (g : Stage) : g.number.toNat ≤ Stage.release.number.toNat := by cases g <;> decide

/-- R41: a sample falls through to later stages only. -/
theorem le_rawSample_stage (e : Env) : e.stage.number.toNat ≤ (rawSample e).stage.number.toNat := by
  cases h : e.stage with
  | attack => exact Nat.zero_le _
  | decay =>
    simp only [rawSample, h, decaySample]
    split
    · exact Nat.le_succ 1
    · exact le_rfl
  | sustain => simp only [rawSample, h, sustainSample, le_refl]
  | release => rw [(rawSample_stage e).2 h]

theorem noteOff_stage (e : Env) : (noteOff e).stage = .release := by
  unfold noteOff
  split <;> trivial

theorem noteOff_finished (e : Env) : (noteOff e).finished = e.finished := by
  unfold noteOff
  split <;> rfl

/-! ### A number of samples -/

/-- The n-th sample from e on is one of a release whose elapsed count has reached RELEASE_SAMPLES (R172, R175). -/
def Env.ReleaseOver (e : Env) (n : Nat) : Prop :=
  e.stage = .release ∧ e.releaseSamples.toNat ≤ (e.sampleIndex + BitVec.ofNat 64 n - e.releaseStart).toNat

theorem envSample_finished_iff (alpha : F64) (e : Env) :
    (envSample alpha e).1.finished = true ↔ e.finished = true ∨ e.ReleaseOver 0 := by
  change (rawSample e).finished = true ↔ _
  simp [rawSample_finished, Env.ReleaseOver, BitVec.le_def]

/-- What n samples make of the stage, the counts and FINISHED of the envelope e (R41, R43, R172). -/
structure Sampled (e : Env) (n : Nat) (e' : Env) : Prop where
  stage_le : e.stage.number.toNat ≤ e'.stage.number.toNat
  release : e'.stage = .release ↔ e.stage = .release
  sampleIndex : e'.sampleIndex = e.sampleIndex + BitVec.ofNat 64 n
  releaseStart : e'.releaseStart = e.releaseStart
  releaseSamples : e'.releaseSamples = e.releaseSamples
  finished : e'.finished = true ↔ e.finished = true ∨ ∃ m, m < n ∧ e.ReleaseOver m

namespace Sampled

theorem zero (e : Env) : Sampled e 0 e := ⟨le_rfl, .rfl, by simp, rfl, rfl, by simp⟩

theorem releaseOver {e e' : Env} {n : Nat} (h : Sampled e n e') : e'.ReleaseOver 0 ↔ e.ReleaseOver n := by
  simp [Env.ReleaseOver, h.release, h.sampleIndex, h.releaseStart, h.releaseSamples]

theorem succ {e e' : Env} {n : Nat} (h : Sampled e n e') (alpha : F64) : Sampled e (n + 1) (envSample alpha e').1 where
  stage_le := h.stage_le.trans (le_rawSample_stage e')
  release := (rawSample_stage e').trans h.release
  sampleIndex := by
    change e'.sampleIndex + 1 = _
    rw [h.sampleIndex, BitVec.ofNat_add, BitVec.add_assoc]
    rfl
  releaseStart := h.releaseStart
  releaseSamples := h.releaseSamples
  finished := by
    rw [envSample_finished_iff, h.finished, h.releaseOver, or_assoc, Nat.exists_lt_succ_right]

theorem one (alpha : F64) (e : Env) : Sampled e 1 (envSample alpha e).1 := (zero e).succ alpha

theorem releaseOver_of_set {e e' : Env} {n : Nat} (h : Sampled e n e') (hclear : e.finished = false)
    (hset : e'.finished = true) : ∃ m, m < n ∧ e.ReleaseOver m :=
  (h.finished.1 hset).resolve_left (by simp [hclear])

theorem not_cleared {e e' : Env} {n : Nat} (h : Sampled e n e') (hset : e.finished = true) : e'.finished ≠ false := by
  simp [h.finished.2 (.inl hset)]

end Sampled

/-- A property of the unit that each sample step carries to the next word holds of it behind the last word. -/
theorem sweep_unit {σ : Type} {f : Nat → σ → F64 → σ × F64} {P : Nat → σ → Prop}
    (hf : ∀ n u x, P n u → P (n + 1) (f n u x).1) (base count : Nat) :
    ∀ (n : Nat) (u : σ) (m : Memory), P n u → P (n + count) (sweep f base count n u m).1 := by
  induction count with
  | zero => exact fun _ _ _ h => h
  | succ count ih =>
    intro n u m h
    unfold sweep
    rw [Nat.add_comm count, ← Nat.add_assoc]
    exact ih (n + 1) _ _ (hf n u _ h)

theorem sampled_sweepBuffer (s : State) (b : Nat) (alpha : F64) (e : Env) :
    Sampled e s.params.n (s.sweepBuffer b (envWord alpha) e).1 := by
  have h := sweep_unit (f := envWord alpha) (P := fun n => Sampled e n) (fun _ _ _ hn => hn.succ alpha)
    (wordAddr s.params.n b 0) s.params.n 0 e s.mem (.zero e)
  rwa [Nat.zero_add] at h

/-! ### One command -/

/-- What the command i can make of the envelope e with the index k: each way it can be written, and by which command. -/
inductive EnvChange (p : Params) (k : Nat) (e : Env) : Instr → Env → Prop where
  | kept (i : Instr) : EnvChange p k e i e
  | reset (inst fa fb : Byte) : EnvChange p k e (.coreReset inst fa fb) .reset
  | started {inst fa fb : Byte} {attackMs decayMs sustainLevel releaseMs sustainMs : F64} (hk : inst.toNat = k)
    (hf : (Instr.envInit inst fa fb attackMs decayMs sustainLevel releaseMs sustainMs).failure p = none) :
    EnvChange p k e (.envInit inst fa fb attackMs decayMs sustainLevel releaseMs sustainMs)
      (startEnvelope attackMs decayMs sustainLevel releaseMs sustainMs)
  | stepped {inst : Byte} (fa fb : Byte) (hk : inst.toNat = k) {e' : Env} (h : Sampled e 1 e') :
    EnvChange p k e (.envStep inst fa fb) e'
  | applied {inst : Byte} (fa fb : Byte) (hk : inst.toNat = k) {e' : Env} (h : Sampled e p.n e') :
    EnvChange p k e (.envApply inst fa fb) e'
  | released {inst : Byte} (fa fb : Byte) (hk : inst.toNat = k) : EnvChange p k e (.envNoteOff inst fa fb) (noteOff e)

/-- Also past the end of the list, where a write does nothing. -/
theorem envAt_setEnv (s : State) (i k : Nat) (e : Env) :
    (s.setEnv i e).envAt k = s.envAt k ∨ i = k ∧ (s.setEnv i e).envAt k = e := by
  by_cases hi : i = k
  · subst hi
    by_cases hlen : i < s.env.length
    · exact .inr ⟨rfl, by simp [State.envAt, hlen]⟩
    · exact .inl (by simp [State.envAt, Nat.not_lt.1 hlen])
  · exact .inl (envAt_setEnv_of_ne hi s e)

theorem envAt_resetAll (s : State) (k : Nat) : s.resetAll.envAt k = .reset := by
  simp [State.envAt]

theorem EnvChange.setEnv {p : Params} {i : Instr} {inst k : Nat} {s : State} {e : Env}
    (h : inst = k → EnvChange p k (s.envAt k) i e) : EnvChange p k (s.envAt k) i ((s.setEnv inst e).envAt k) := by
  rcases envAt_setEnv s inst k e with heq | ⟨hi, heq⟩
  · exact heq ▸ .kept i
  · exact heq.symm ▸ h hi

theorem effect_envChange {i : Instr} {s : State} (hf : i.failure s.params = none) (k : Nat) :
    EnvChange s.params k (s.envAt k) i ((effect i s).envAt k) := by
  cases i with
  | nop | regRead | errClear | bufWrite | bufRead | bufClear | oscInit | oscRender | filtUpdate | filtReset
  | filtProcess | filtApply | lfoEnable | lfoStep => exact .kept _
  | coreReset inst fa fb => exact (envAt_resetAll s k).symm ▸ .reset inst fa fb
  | envInit => exact .setEnv fun hk => .started hk hf
  | envStep inst fa fb => exact .setEnv fun hk => .stepped fa fb hk (hk ▸ .one _ _)
  | envApply inst fa fb =>
    exact EnvChange.setEnv (s := s) fun hk => .applied fa fb hk (hk ▸ sampled_sweepBuffer s _ _ _)
  | envNoteOff inst fa fb => exact .setEnv fun hk => hk ▸ .released fa fb rfl

theorem exec_envChange {i : Instr} {s t : State} (h : exec i s = .next t) (k : Nat) :
    EnvChange s.params k (s.envAt k) i (t.envAt k) := by
  cases hf : i.failure s.params with
  | some st =>
    rw [eq_refuse_of_exec hf h]
    exact .kept i
  | none =>
    rw [eq_respond_of_exec hf h]
    exact effect_envChange hf k

/-- A step writes an envelope only by the command it decodes. -/
theorem step_envChange {s t : State} (h : step s = .next t) (k : Nat) :
    t.envAt k = s.envAt k ∨
      ∃ i rest, decode s.cmdPort = .command i rest ∧ EnvChange s.params k (s.envAt k) i (t.envAt k) := by
  cases hd : decode s.cmdPort with
  | command i rest => exact .inr ⟨i, rest, rfl, exec_envChange ((step_of_command hd).symm.trans h) k⟩
  | illegal hdr rest =>
    obtain rfl := Host.Outcome.next.inj ((step_of_illegal hd).symm.trans h)
    exact .inl rfl
  | incomplete =>
    obtain rfl := Host.Outcome.next.inj ((step_of_incomplete hd).symm.trans h)
    exact .inl rfl

/-- Settles O37, over the ways a command can write the envelope (`EnvChange`): samples only advance the stage and enter
RELEASE from RELEASE alone (`Sampled`), a note-off and a CORE_RESET put it at the last stage. -/
theorem stageOnlyAdvances : Obligations.StageOnlyAdvances := by
  intro s t k h hinit
  rcases step_envChange h k with heq | ⟨i, rest, hd, change⟩
  · rw [heq]
    exact ⟨le_rfl, id, fun _ hne hrel => absurd hrel hne⟩
  generalize s.envAt k = e, t.envAt k = e' at change ⊢
  cases change with
  | kept => exact ⟨le_rfl, id, fun _ hne hrel => absurd hrel hne⟩
  | reset inst fa fb => exact ⟨e.stage.number_le_release, fun _ => rfl, fun hno => absurd hd (hno inst fa fb rest)⟩
  | started hk hf => exact absurd ⟨rfl, hk, hf⟩ (hinit _ rest hd)
  | stepped _ _ _ h | applied _ _ _ h =>
    exact ⟨h.stage_le, h.release.2, fun _ hne hrel => absurd (h.release.1 hrel) hne⟩
  | released fa fb hk =>
    rw [noteOff_stage]
    exact ⟨e.stage.number_le_release, fun _ => rfl, fun _ _ _ => ⟨_, fa, fb, rest, hd, hk⟩⟩

/-- Settles O38, over the ways a command can write the envelope (`EnvChange`): samples keep a FINISHED that is 1 and set
it only in a sample of a release that is over (`Sampled`), a note-off keeps it, and a CORE_RESET sets it. -/
theorem finishedFlag : Obligations.FinishedFlag := by
  intro i s t k h
  have change := exec_envChange h k
  generalize s.envAt k = e, t.envAt k = e' at change ⊢
  dsimp only
  cases change with
  | kept => simp +contextual
  | reset => exact ⟨fun _ hc => absurd hc (by decide), fun _ _ => .inl rfl⟩
  | started hk => exact ⟨fun _ _ => ⟨rfl, hk⟩, fun _ hset => absurd hset Bool.false_ne_true⟩
  | stepped _ _ hk h =>
    refine ⟨fun hset hclear => absurd hclear (h.not_cleared hset), fun hclear hset => .inr ?_⟩
    obtain ⟨m, hm, hstage, hover⟩ := h.releaseOver_of_set hclear hset
    obtain rfl := Nat.lt_one_iff.1 hm
    exact ⟨hk, hstage, .inl ⟨rfl, hover⟩⟩
  | applied _ _ hk h =>
    refine ⟨fun hset hclear => absurd hclear (h.not_cleared hset), fun hclear hset => .inr ?_⟩
    obtain ⟨n, hn, hstage, hover⟩ := h.releaseOver_of_set hclear hset
    exact ⟨hk, hstage, .inr ⟨rfl, n, hn, hover⟩⟩
  | released => simp +contextual [noteOff_finished]

end Sys2Proof.Machine
end

section
/-!
The byte transport of the ports (R84): a word as its four bytes, and back.
-/

namespace Sys2Proof

/-- Four bytes, least significant first, are the word they come from: they are the fields of a header, FB first. -/
theorem wordsOfBytes_bytesOfWord_append (w : Word) (bs : List Byte) :
    wordsOfBytes (bytesOfWord w ++ bs) = w :: wordsOfBytes bs :=
  congrArg (· :: wordsOfBytes bs) (mkHeader_fields w)

theorem wordsOfBytes_bytesOfWords (ws : List Word) : wordsOfBytes (bytesOfWords ws) = ws := by
  induction ws with
  | nil => rfl
  | cons w ws ih =>
    change wordsOfBytes (bytesOfWord w ++ bytesOfWords ws) = w :: ws
    rw [wordsOfBytes_bytesOfWord_append, ih]

/-- Settles O6: the bytes give the words back (`wordsOfBytes_bytesOfWords`), and byte k is bits 8k+7..8k of its word. -/
theorem byteTransport : Obligations.ByteTransport := by
  refine ⟨wordsOfBytes_bytesOfWords, fun w => ⟨_, _, _, _, rfl, ?_⟩⟩
  simp only [BitVec.extractLsb'_toNat, Nat.shiftRight_eq_div_pow]
  omega

end Sys2Proof
end

section
/-!
What a command does not look at. The effect and the result of a command do not depend on the ports, and, but for the
commands of Table M1 (R82) and CORE_RESET (R251), not on the buffer memory; so words behind a packet wait there
unchanged (R90), a command outside the table neither reads nor writes the memory, and a command that is repeated finds
the state its first performance left (R86).
-/

namespace Sys2Proof

/-! ### Words behind a packet (R90, R112) -/

/-- What is decoded, with more words behind the packet. -/
def Decoded.followedBy (later : List Word) : Decoded → Decoded
  | .command i rest => .command i (rest ++ later)
  | .illegal h rest => .illegal h (rest ++ later)
  | .incomplete => .incomplete

theorem takeOperands1_append {mk : U64 → Instr} {ws : List Word} (h : takeOperands1 mk ws ≠ .incomplete)
    (later : List Word) : takeOperands1 mk (ws ++ later) = (takeOperands1 mk ws).followedBy later := by
  unfold takeOperands1 at h ⊢
  split at h
  · rfl
  · exact absurd rfl h

theorem takeOperands2_append {mk : U64 → U64 → Instr} {ws : List Word} (h : takeOperands2 mk ws ≠ .incomplete)
    (later : List Word) : takeOperands2 mk (ws ++ later) = (takeOperands2 mk ws).followedBy later := by
  unfold takeOperands2 at h ⊢
  split at h
  · rfl
  · exact absurd rfl h

theorem takeOperands4_append {mk : U64 → U64 → U64 → U64 → Instr} {ws : List Word}
    (h : takeOperands4 mk ws ≠ .incomplete) (later : List Word) :
    takeOperands4 mk (ws ++ later) = (takeOperands4 mk ws).followedBy later := by
  unfold takeOperands4 at h ⊢
  split at h
  · rfl
  · exact absurd rfl h

theorem takeOperands5_append {mk : U64 → U64 → U64 → U64 → U64 → Instr} {ws : List Word}
    (h : takeOperands5 mk ws ≠ .incomplete) (later : List Word) :
    takeOperands5 mk (ws ++ later) = (takeOperands5 mk ws).followedBy later := by
  unfold takeOperands5 at h ⊢
  split at h
  · rfl
  · exact absurd rfl h

theorem decodeHeader_append {hdr : Word} {ws : List Word} (h : decodeHeader hdr ws ≠ .incomplete)
    (later : List Word) : decodeHeader hdr (ws ++ later) = (decodeHeader hdr ws).followedBy later := by
  unfold decodeHeader at h ⊢
  dsimp only at h ⊢
  split at h
  case h_6 | h_16 => exact takeOperands1_append h later
  case h_5 | h_14 | h_19 => exact takeOperands2_append h later
  case h_9 => exact takeOperands4_append h later
  case h_10 => exact takeOperands5_append h later
  all_goals rfl

theorem decode_append {ws : List Word} (h : decode ws ≠ .incomplete) (later : List Word) :
    decode (ws ++ later) = (decode ws).followedBy later := by
  cases ws with
  | nil => exact absurd rfl h
  | cons hdr ws => exact decodeHeader_append h later

end Sys2Proof

namespace Sys2Proof.Machine

/-! ### What a command does not look at -/

/-- An update φ of a part of the state that a command does not look at may as well come before the command as after
it. -/
theorem exec_map {φ : State → State} (hparams : ∀ s, (φ s).params = s.params)
    (hrefuse : ∀ s st hdr, (φ s).refuse st hdr = φ (s.refuse st hdr))
    (hrespond : ∀ s opc r, (φ s).respond opc r = φ (s.respond opc r)) {i : Instr} {s t : State}
    (heffect : effect i (φ s) = φ (effect i s)) (hresult : result i (φ s) = result i s) (h : exec i s = .next t) :
    exec i (φ s) = .next (φ t) := by
  cases hf : i.failure s.params with
  | some st => rw [eq_refuse_of_exec hf h, exec_refused (by rw [hparams, hf]), hrefuse]
  | none => rw [eq_respond_of_exec hf h, exec_performed (by rw [hparams, hf]), heffect, hresult, hrespond]

/-! ### The command port (R90, R342) -/

theorem effect_withCmdPort (i : Instr) (s : State) (ws : List Word) :
    effect i { s with cmdPort := ws } = { effect i s with cmdPort := ws } := by
  cases i <;> rfl

theorem result_withCmdPort (i : Instr) (s : State) (ws : List Word) :
    result i { s with cmdPort := ws } = result i s := by
  cases i <;> rfl

/-- A command does not look at the words that wait on the command port. -/
theorem exec_withCmdPort {i : Instr} {s t : State} (h : exec i s = .next t) (ws : List Word) :
    exec i { s with cmdPort := ws } = .next { t with cmdPort := ws } :=
  exec_map (φ := fun s => { s with cmdPort := ws }) (fun _ => rfl) (fun _ _ _ => rfl) (fun _ _ _ => rfl)
    (effect_withCmdPort i s ws) (result_withCmdPort i s ws) h

/-- Settles O12: the same packet is decoded (`decode_append`), and what it does does not depend on the words behind it
(`exec_withCmdPort`). -/
theorem laterWordsDoNotMatter : Obligations.LaterWordsDoNotMatter := by
  intro s t later hwhole h
  have happ := decode_append hwhole later
  cases hd : decode s.cmdPort with
  | command i rest =>
    rw [hd] at happ
    have hx := (step_of_command hd).symm.trans h
    obtain ⟨-, hport, -⟩ := exec_frame hx
    rw [step_of_command (s := { s with cmdPort := s.cmdPort ++ later }) happ, hport]
    exact exec_withCmdPort hx (rest ++ later)
  | illegal hdr rest =>
    rw [hd] at happ
    obtain rfl := Host.Outcome.next.inj ((step_of_illegal hd).symm.trans h)
    exact step_of_illegal (s := { s with cmdPort := s.cmdPort ++ later }) happ
  | incomplete => exact absurd hd hwhole

/-! ### The buffer memory (Table M1, R82, R251) -/

theorem effect_withMem {i : Instr} (hb : i.bufferField = none) (hop : i.opc ≠ 0x01) (s : State) (m : Memory) :
    effect i { s with mem := m } = { effect i s with mem := m } := by
  cases i with
  | coreReset => exact absurd rfl hop
  | bufWrite | bufRead | bufClear | oscRender | envApply | filtApply => exact absurd hb (Option.some_ne_none _)
  | nop | regRead | errClear | oscInit | envInit | envStep | envNoteOff | filtUpdate | filtReset | filtProcess
  | lfoEnable | lfoStep => rfl

theorem result_withMem {i : Instr} (hb : i.bufferField = none) (s : State) (m : Memory) :
    result i { s with mem := m } = result i s := by
  cases i with
  | bufRead => exact absurd hb (Option.some_ne_none _)
  | nop | coreReset | regRead | errClear | bufWrite | bufClear | oscInit | oscRender | envInit | envStep | envApply
  | envNoteOff | filtUpdate | filtReset | filtProcess | filtApply | lfoEnable | lfoStep => rfl

/-- A command outside Table M1, CORE_RESET apart, does not look at the buffer memory. -/
theorem exec_withMem {i : Instr} (hb : i.bufferField = none) (hop : i.opc ≠ 0x01) {s t : State}
    (h : exec i s = .next t) (m : Memory) : exec i { s with mem := m } = .next { t with mem := m } :=
  exec_map (φ := fun s => { s with mem := m }) (fun _ => rfl) (fun _ _ _ => rfl) (fun _ _ _ => rfl)
    (effect_withMem hb hop s m) (result_withMem hb s m) h

/-- It leaves the memory: the run on the state's own memory is the run itself. -/
theorem exec_mem_of_no_buffer {i : Instr} (hb : i.bufferField = none) (hop : i.opc ≠ 0x01) {s t : State}
    (h : exec i s = .next t) : t.mem = s.mem := by
  have same : t = { t with mem := s.mem } := Host.Outcome.next.inj (h.symm.trans (exec_withMem hb hop h s.mem))
  rw [same]

/-- The address a is outside buffer b (R80). -/
def Outside (p : Params) (b a : Nat) : Prop := ∀ n, n < p.n → a ≠ wordAddr p.n b n

theorem readWord_sweepBuffer_of_outside {σ : Type} {s : State} (hwf : Memory.wf s.mem) {b a : Nat}
    (ha : Outside s.params b a) (f : Nat → σ → F64 → σ × F64) (u : σ) :
    readWord (s.sweepBuffer b f u).2 a = readWord s.mem a := by
  obtain ⟨-, -, houtside⟩ := sweepBuffer_spec hwf b f u
  exact houtside a ha

/-- A command of Table M1 leaves every word outside the buffer it names. -/
theorem effect_mem_outside {i : Instr} {s : State} (hwf : Memory.wf s.mem) (hf : i.failure s.params = none) {b : Byte}
    (hb : i.bufferField = some b) {a : Nat} (ha : Outside s.params b.toNat a) :
    readWord (effect i s).mem a = readWord s.mem a := by
  obtain ⟨-, -, -, -, hindex⟩ := failure_none_iff.1 hf
  cases i with
  | nop | coreReset | regRead | errClear | oscInit | envInit | envStep | envNoteOff | filtUpdate | filtReset
  | filtProcess | lfoEnable | lfoStep => exact absurd hb.symm (Option.some_ne_none b)
  | bufRead => rfl
  | bufWrite _ fa _ n value =>
    obtain rfl := Option.some.inj hb
    exact (readWord_writeWord hwf _ a value).trans (if_neg (ha _ (hindex n rfl)))
  | bufClear | oscRender | envApply | filtApply =>
    obtain rfl := Option.some.inj hb
    exact readWord_sweepBuffer_of_outside hwf ha _ _

/-- Settles O24: outside the table a command runs alike on every memory and leaves it (`exec_withMem`,
`exec_mem_of_no_buffer`); in the table a refusal leaves the memory, and a performed command every word outside the
buffer (`effect_mem_outside`). -/
theorem bufferAccess : Obligations.BufferAccess := by
  intro i s t hwf h
  refine ⟨fun hb hop => ⟨exec_mem_of_no_buffer hb hop h, exec_withMem hb hop h⟩, fun b hb a ha => ?_⟩
  cases hf : i.failure s.params with
  | some st => rw [eq_refuse_of_exec hf h, State.refuse_mem]
  | none => rw [eq_respond_of_exec hf h, State.respond_mem, effect_mem_outside hwf hf hb ha]

/-! ### A command repeated (R86) -/

theorem effect_withRespPort (i : Instr) (s : State) (ws : List Word) :
    effect i { s with respPort := ws } = { effect i s with respPort := ws } := by
  cases i <;> rfl

/-- An idempotent change of one element is idempotent on the list, also past its end. -/
theorem set_getD_set {α : Type} {g : α → α} (hg : ∀ a, g (g a) = g a) (l : List α) (i : Nat) (d : α) :
    (l.set i (g (l.getD i d))).set i (g ((l.set i (g (l.getD i d))).getD i d)) = l.set i (g (l.getD i d)) := by
  by_cases h : i < l.length
  · simp [h, hg]
  · simp [Nat.not_lt.1 h]

theorem setEnv_envAt_twice {g : Env → Env} (hg : ∀ e, g (g e) = g e) (s : State) (i : Nat) :
    (s.setEnv i (g (s.envAt i))).setEnv i (g ((s.setEnv i (g (s.envAt i))).envAt i)) = s.setEnv i (g (s.envAt i)) :=
  congrArg (fun l => { s with env := l }) (set_getD_set hg s.env i .reset)

theorem setFilt_filtAt_twice {g : Filt → Filt} (hg : ∀ f, g (g f) = g f) (s : State) (i : Nat) :
    (s.setFilt i (g (s.filtAt i))).setFilt i (g ((s.setFilt i (g (s.filtAt i))).filtAt i)) =
      s.setFilt i (g (s.filtAt i)) :=
  congrArg (fun l => { s with filt := l }) (set_getD_set hg s.filt i .reset)

theorem enableLfo_enableLfo (l : Lfo) (en : Bool) : enableLfo (enableLfo l en) en = enableLfo l en := by
  by_cases h : en = l.enabled <;> simp [enableLfo, h]

theorem writeWord_writeWord {m : Memory} (h : Memory.wf m) (a : Nat) (v : F64) :
    writeWord (writeWord m a v) a v = writeWord m a v := by
  have hw := wf_writeWord h a v
  refine wf_ext (wf_writeWord hw a v) hw fun x => ?_
  rw [readWord_writeWord hw]
  split
  · rename_i hx
    rw [readWord_writeWord h, if_pos hx]
  · rfl

theorem updateFilter_updateFilter (f : Filt) (t : FiltType) (cutoff qIn : F64) :
    updateFilter (updateFilter f t cutoff qIn) t cutoff qIn = updateFilter f t cutoff qIn := rfl

theorem resetFilter_resetFilter (f : Filt) : resetFilter (resetFilter f) = resetFilter f := rfl

/-- The state BUF_CLEAR leaves (R258). -/
def clearBuffer (s : State) (b : Nat) : State := { s with mem := (s.sweepBuffer b clearWord ()).2 }

theorem readWord_clearBuffer {s : State} (h : Memory.wf s.mem) {b n : Nat} (hn : n < s.params.n) :
    readWord (clearBuffer s b).mem (wordAddr s.params.n b n) = c0 := by
  obtain ⟨-, hwords, -⟩ := sweepBuffer_spec h b clearWord ()
  exact hwords n hn

/-- A second BUF_CLEAR finds every word of the buffer +0.0. -/
theorem clearBuffer_clearBuffer {s : State} (h : Memory.wf s.mem) (b : Nat) :
    clearBuffer (clearBuffer s b) b = clearBuffer s b := by
  have hw : Memory.wf (clearBuffer s b).mem := wf_sweep _ _ _ _ _ h
  refine congrArg (fun m => { s with mem := m }) (wf_ext (wf_sweep _ _ _ _ _ hw) hw fun a => ?_)
  by_cases ha : Outside s.params b a
  · exact readWord_sweepBuffer_of_outside hw ha _ _
  · obtain ⟨n, hn, rfl⟩ : ∃ n, n < s.params.n ∧ a = wordAddr s.params.n b n := by simpa [Outside] using ha
    exact (readWord_clearBuffer hw hn).trans (readWord_clearBuffer h hn).symm

/-- What the commands of R86's list make of the state, they make of it once. -/
theorem effect_effect {i : Instr} {s : State} (hwf : Memory.wf s.mem)
    (hop : i.opc ∈ ([0x00, 0x01, 0x02, 0x03, 0x08, 0x09, 0x0A, 0x10, 0x20, 0x23, 0x30, 0x31, 0x40] : List Byte)) :
    effect i (effect i s) = effect i s := by
  cases i with
  | nop | coreReset | regRead | errClear | bufRead => rfl
  | bufWrite => exact congrArg (fun m => { s with mem := m }) (writeWord_writeWord hwf _ _)
  | bufClear => exact clearBuffer_clearBuffer hwf _
  | oscInit => exact congrArg (fun l => { s with osc := l }) (List.set_set ..)
  | envInit => exact congrArg (fun l => { s with env := l }) (List.set_set ..)
  | envNoteOff => exact setEnv_envAt_twice noteOff_noteOff s _
  | filtUpdate _ fa _ cutoff qIn =>
    exact setFilt_filtAt_twice (g := (updateFilter · (filtTypeOf fa) cutoff qIn))
      (updateFilter_updateFilter · (filtTypeOf fa) cutoff qIn) s _
  | filtReset => exact setFilt_filtAt_twice resetFilter_resetFilter s _
  | lfoEnable => exact congrArg (fun l => { s with lfo := l }) (enableLfo_enableLfo _ _)
  | oscRender | envStep | envApply | filtProcess | filtApply | lfoStep => exact absurd hop (by simp [Instr.opc])

/-- Settles O55: the second command is performed as well, for its checks read only the header, the operands and the
parameters; its effect finds the state as the first left it (`effect_effect`), whatever the response port holds
(`effect_withRespPort`). -/
theorem repeatedCommands : Obligations.RepeatedCommands := by
  intro i s t u hwf hf hop ht hu
  have hf' : i.failure t.params = none := by rw [(exec_frame ht).1, hf]
  have hsame : effect i t = t := by
    rw [eq_respond_of_exec hf ht]
    exact (effect_withRespPort i (effect i s) _).trans (by rw [effect_effect hwf hop]; rfl)
  rw [eq_respond_of_exec hf' hu, hsame]
  rfl

end Sys2Proof.Machine
end

section
/-!
Every step keeps a good state good (R35, R38, R43, R46, R53, R57, R83, R177, R209), and so every buffer word is finite
in every run from power-on. `State.Good` has one rule for each operation that an effect is made of; what a command makes
of a unit keeps the unit's ranges by Laws/Units.lean and Laws/Samples.lean, and a sweep keeps the buffer memory.
-/

namespace Sys2Proof.Machine

/-! ### The buffer memory (R58, R83, R88, log 4) -/

/-- What a good state says of its buffer memory: canonical, inside the address map, every word finite. -/
structure Memory.Good (p : Params) (m : Memory) : Prop where
  wf : Memory.wf m
  mapped : Memory.mapped p m
  finite : Memory.finite m

theorem Memory.Good.nil (p : Params) : Memory.Good p [] :=
  ⟨⟨.nil, List.forall_mem_nil _⟩, List.forall_mem_nil _, List.forall_mem_nil _⟩

theorem Memory.Good.writeWord {p : Params} {m : Memory} (h : Memory.Good p m) {b n : Nat} (hb : b < p.numBuf)
    (hn : n < p.n) {v : F64} (hv : isFinite v = true) : Memory.Good p (writeWord m (wordAddr p.n b n) v) :=
  ⟨wf_writeWord h.wf _ _, mapped_writeWord h.mapped (wordAddr_lt hb hn) v, finite_writeWord h.finite _ hv⟩

/-- A buffer command keeps the memory good, and a property of the unit beside it, if its sample step keeps the property
and makes a finite word of a finite word. -/
theorem Memory.Good.sweepBuffer {s : State} (h : Memory.Good s.params s.mem) {b : Nat} (hb : b < s.params.numBuf)
    {σ : Type} {f : Nat → σ → F64 → σ × F64} {P : σ → Prop} {u : σ} (hu : P u)
    (hf : ∀ n u x, P u → isFinite x = true → P (f n u x).1 ∧ isFinite (f n u x).2 = true) :
    P (s.sweepBuffer b f u).1 ∧ Memory.Good s.params (s.sweepBuffer b f u).2 := by
  refine sweepBuffer_induct (M := Memory.Good s.params) hu h fun n u m hn hu hm => ?_
  obtain ⟨hunit, hword⟩ := hf n u _ hu (finite_readWord hm.finite _)
  exact ⟨hunit, hm.writeWord hb hn hword⟩

/-! ### Reset values (R340) -/

theorem ErrorRegs.reset_good : ErrorRegs.reset.Good := ⟨by decide, by decide, by decide⟩
theorem c0_finite : isFinite c0 = true := by decide
theorem c0_within_frequencies : Within c0 NYQ c0 := by decide
theorem Osc.reset_good : Osc.reset.Good := ⟨c0_isPhase, c0_within_frequencies⟩
theorem Env.reset_good : Env.reset.Good :=
  ⟨by decide, by decide, by decide, by decide, by decide, by decide, by decide, fun _ => rfl⟩
theorem Filt.reset_good : Filt.reset.Good := ⟨identity_stable, by decide, by decide⟩
theorem Lfo.reset_good : Lfo.reset.Good := ⟨c0_isPhase, by decide⟩

/-- R35, R313: a recorded error is one, whether it is the first or sets OVERFLOW. -/
theorem recordError_good {e : ErrorRegs} (h : e.Good) {st : Status} (hst : st ≠ .ok) (hdr : Word) :
    (recordError e st hdr).Good := by
  unfold recordError
  split
  · rename_i hvalid
    exact { h with overflow := fun _ => hvalid }
  · exact ⟨by simp [hst], by simp, by simp⟩

/-! ### One rule for each operation -/

theorem forall_getD {α : Type} {p : α → Prop} {l : List α} {d : α} (hl : ∀ x ∈ l, p x) (hd : p d) (i : Nat) :
    p (l.getD i d) := by
  rw [List.getD_eq_getElem?_getD]
  cases h : l[i]? with
  | none => exact hd
  | some x => exact hl x (List.mem_of_getElem? h)

/-- The shape is of the parameters, the lists of units and the memory alone. -/
theorem State.Shape.withRest {s : State} (h : s.Shape) (e : ErrorRegs) (l : Lfo) (cmd resp : List Word) (pos : Nat) :
    State.Shape { s with err := e, lfo := l, cmdPort := cmd, respPort := resp, position := pos } :=
  { h with sized := ⟨h.sized.osc, h.sized.env, h.sized.filt⟩ }

namespace State.Good

variable {s : State}

theorem memory (h : s.Good) : Memory.Good s.params s.mem := ⟨h.shape.wf, h.shape.mapped, h.words⟩

theorem oscAt (h : s.Good) (i : Nat) : (s.oscAt i).Good := forall_getD h.osc Osc.reset_good i
theorem envAt (h : s.Good) (i : Nat) : (s.envAt i).Good := forall_getD h.env Env.reset_good i
theorem filtAt (h : s.Good) (i : Nat) : (s.filtAt i).Good := forall_getD h.filt Filt.reset_good i

/-- Being good does not depend on the ports and the position. -/
theorem withPorts (h : s.Good) (cmd resp : List Word) (pos : Nat) :
    State.Good { s with cmdPort := cmd, respPort := resp, position := pos } :=
  { h with shape := h.shape.withRest s.err s.lfo cmd resp pos }

theorem withErr (h : s.Good) {e : ErrorRegs} (he : e.Good) : State.Good { s with err := e } :=
  { h with shape := h.shape.withRest e s.lfo s.cmdPort s.respPort s.position, err := he }

theorem withLfo (h : s.Good) {l : Lfo} (hl : l.Good) : State.Good { s with lfo := l } :=
  { h with shape := h.shape.withRest s.err l s.cmdPort s.respPort s.position, lfo := hl }

theorem withMem (h : s.Good) {m : Memory} (hm : Memory.Good s.params m) : State.Good { s with mem := m } :=
  { h with shape := ⟨h.shape.params, h.shape.sized.withMem m, hm.wf, hm.mapped⟩, words := hm.finite }

theorem setOsc (h : s.Good) (i : Nat) {o : Osc} (ho : o.Good) : (s.setOsc i o).Good :=
  { h with shape := { h.shape with sized := h.shape.sized.setOsc i o }, osc := forall_mem_set h.osc ho }

theorem setEnv (h : s.Good) (i : Nat) {e : Env} (he : e.Good) : (s.setEnv i e).Good :=
  { h with shape := { h.shape with sized := h.shape.sized.setEnv i e }, env := forall_mem_set h.env he }

theorem setFilt (h : s.Good) (i : Nat) {f : Filt} (hf : f.Good) : (s.setFilt i f).Good :=
  { h with shape := { h.shape with sized := h.shape.sized.setFilt i f }, filt := forall_mem_set h.filt hf }

theorem accept (h : s.Good) (rest : List Word) : (s.accept rest).Good := h.withPorts _ _ _

theorem respond (h : s.Good) (opc : Byte) (r : Option U64) : (s.respond opc r).Good := h.withPorts _ _ _

theorem refuse (h : s.Good) {st : Status} (hst : st ≠ .ok) (hdr : Word) : (s.refuse st hdr).Good :=
  (h.withErr (recordError_good h.err hst hdr)).withPorts _ _ _

/-- R340: the reset state is good, whatever the state before. -/
theorem resetAll (hp : LegalParams s.params) : s.resetAll.Good where
  shape := ⟨hp, resetAll_sized s, (Memory.Good.nil s.params).wf, (Memory.Good.nil s.params).mapped⟩
  err := ErrorRegs.reset_good
  osc := fun _ ho => List.eq_of_mem_replicate ho ▸ Osc.reset_good
  env := fun _ he => List.eq_of_mem_replicate he ▸ Env.reset_good
  filt := fun _ hf => List.eq_of_mem_replicate hf ▸ Filt.reset_good
  lfo := Lfo.reset_good
  words := (Memory.Good.nil s.params).finite

theorem powerOn {p : Params} (hp : LegalParams p) : (State.powerOn p).Good := resetAll (s := State.powerOn p) hp

end State.Good

/-! ### The buffer commands of N words (R82, R87) -/

/-- One word of ENV_APPLY (R177, R182). -/
theorem envWord_good {alpha : F64} {e : Env} {x : F64} (h0 : flt c0 alpha = true) (h1 : flt alpha c1 = true) (n : Nat)
    (he : e.Good) (hx : isFinite x = true) :
    (envWord alpha n e x).1.Good ∧ isFinite (envWord alpha n e x).2 = true := by
  obtain ⟨hgood, hgain⟩ := envSample_good h0 h1 he
  exact ⟨hgood, fmul_gain_finite hx hgain⟩

/-- One word of FILT_APPLY (R209, R210). -/
theorem filtWord_good {f : Filt} (k : F64) (n : Nat) (x : F64) (hf : f.Good) :
    (filtWord k n f x).1.Good ∧ isFinite (filtWord k n f x).2 = true :=
  ⟨filtSample_good k x hf, (filtSample_spec k f x).1.signed.1⟩

/-- BUF_CLEAR has no unit (R258). -/
theorem clearBuffer_good {s : State} (h : s.Good) {b : Nat} (hb : b < s.params.numBuf) : (clearBuffer s b).Good :=
  h.withMem (h.memory.sweepBuffer hb (P := fun _ => True) trivial fun _ _ _ _ _ => ⟨trivial, c0_finite⟩).2

theorem envApply_good {s : State} (h : s.Good) (i : Nat) {b : Nat} (hb : b < s.params.numBuf) :
    (envApply s i b).Good := by
  obtain ⟨hunit, hmem⟩ := h.memory.sweepBuffer hb (P := Env.Good) (h.envAt i) fun n u x hu hx =>
    envWord_good h.shape.params.envAlpha_pos h.shape.params.envAlpha_lt n hu hx
  exact (h.setEnv i hunit).withMem hmem

theorem filtApply_good {s : State} (h : s.Good) (i : Nat) {b : Nat} (hb : b < s.params.numBuf) :
    (filtApply s i b).Good := by
  obtain ⟨hunit, hmem⟩ := h.memory.sweepBuffer hb (P := Filt.Good) (h.filtAt i) fun n _ x hu _ =>
    filtWord_good s.params.filtSmoothK n x hu
  exact (h.setFilt i hunit).withMem hmem

theorem oscRender_good {s : State} (h : s.Good) (i : Nat) {b : Nat} (hb : b < s.params.numBuf) (fb : Byte)
    {frequency volume : F64} (hf : isFinite frequency = true) (hv : isFinite volume = true) (s0 : U64) (detune : F64) :
    (oscRender s i b fb frequency volume s0 detune).Good := by
  obtain ⟨hphase, hmem⟩ := h.memory.sweepBuffer hb (P := IsPhase) (h.oscAt i).phase fun n u x hu _ => by
    obtain ⟨hphase, hword⟩ :=
      renderWord_spec s.params (s.oscAt i).waveform fb s0 (clampUnit detune) n x hf hv hu
    exact ⟨hphase, hword.signed.1⟩
  exact (h.setOsc i ⟨hphase, clampFrequency_within hf⟩).withMem hmem

/-! ### Every command, every step, every run -/

theorem effect_good {i : Instr} {s : State} (h : s.Good) (hf : i.failure s.params = none) : (effect i s).Good := by
  obtain ⟨-, -, hbuf, hreal, hindex⟩ := failure_none_iff.1 hf
  have hp := h.shape.params
  cases i with
  | nop | regRead | bufRead => exact h
  | coreReset => exact .resetAll hp
  | errClear => exact h.withErr ErrorRegs.reset_good
  | bufWrite _ fa _ n value =>
    exact h.withMem (h.memory.writeWord (hbuf fa rfl) (hindex n rfl) (hreal value List.mem_cons_self))
  | bufClear _ fa => exact clearBuffer_good h (hbuf fa rfl)
  | oscInit => exact h.setOsc _ ⟨c0_isPhase, c0_within_frequencies⟩
  | oscRender inst fa fb frequency volume s0 detune =>
    exact oscRender_good h _ (hbuf fa rfl) fb (hreal frequency List.mem_cons_self)
      (hreal volume (List.mem_cons_of_mem _ List.mem_cons_self)) s0 detune
  | envInit => exact h.setEnv _ (startEnvelope_good (List.all_eq_true.2 hreal))
  | envStep => exact h.setEnv _ (envSample_good hp.envAlpha_pos hp.envAlpha_lt (h.envAt _)).1
  | envApply _ fa => exact envApply_good h _ (hbuf fa rfl)
  | envNoteOff => exact h.setEnv _ (noteOff_good (h.envAt _))
  | filtUpdate => exact h.setFilt _ (updateFilter_good _ _ _ (h.filtAt _))
  | filtReset => exact h.setFilt _ (resetFilter_good (h.filtAt _))
  | filtProcess => exact h.setFilt _ (filtSample_good _ _ (h.filtAt _))
  | filtApply _ fa => exact filtApply_good h _ (hbuf fa rfl)
  | lfoEnable => exact h.withLfo (enableLfo_good _ h.lfo)
  | lfoStep _ _ _ rate depth =>
    have hrate := hreal rate List.mem_cons_self
    have hdepth := hreal depth (List.mem_cons_of_mem _ List.mem_cons_self)
    exact h.withLfo (lfoSample_good hp.lfoAlpha_pos hp.lfoAlpha_lt hrate hdepth h.lfo).1

theorem exec_good {i : Instr} {s t : State} (hs : s.Good) (h : exec i s = .next t) : t.Good := by
  cases hf : i.failure s.params with
  | some st =>
    rw [eq_refuse_of_exec hf h]
    exact hs.refuse (fun hst => failure_ne_ok i s.params (hst ▸ hf)) _
  | none =>
    rw [eq_respond_of_exec hf h]
    exact (effect_good hs hf).respond _ _

/-- A step executes a command on the accepted state, refuses an illegal packet, or waits: what holds after each of these
holds after the step. -/
theorem step_keeps {P : State → Prop} {s t : State} (h : step s = .next t)
    (executed : ∀ i rest, exec i (s.accept rest) = .next t → P t)
    (illegal : ∀ hdr rest, P ((s.accept rest).refuse .illegalOpcode hdr)) (waits : P s) : P t := by
  cases hd : decode s.cmdPort with
  | command i rest => exact executed i rest ((step_of_command hd).symm.trans h)
  | illegal hdr rest => exact Host.Outcome.next.inj ((step_of_illegal hd).symm.trans h) ▸ illegal hdr rest
  | incomplete => exact Host.Outcome.next.inj ((step_of_incomplete hd).symm.trans h) ▸ waits

theorem step_params {s t : State} (h : step s = .next t) : t.params = s.params :=
  step_keeps (P := fun u => u.params = s.params) h (fun _ _ hx => (exec_frame hx).1) (fun _ _ => rfl) rfl

/-- Settles O50: a command keeps a good state good, performed or refused (`exec_good`), and so do an illegal packet and
waiting. -/
theorem stepKeepsGood : Obligations.StepKeepsGood := by
  intro s t hs h
  exact step_keeps h (fun _ rest hx => exec_good (hs.accept rest) hx)
    (fun hdr rest => (hs.accept rest).refuse (by decide) hdr) hs

theorem Run.good {s t : State} (hrun : Run s t) (hs : s.Good) : t.Good := by
  induction hrun with
  | refl => exact hs
  | step _ hstep ih => exact stepKeepsGood _ _ ih hstep
  | send _ _ ih => exact ih.withPorts _ _ _

theorem Run.params_eq {s t : State} (hrun : Run s t) : t.params = s.params := by
  induction hrun with
  | refl => rfl
  | step _ hstep ih => exact (step_params hstep).trans ih
  | send _ _ ih => exact ih

/-- Settles O52: every state of a run from power-on is good (`Run.good`), and a good state's words are finite. -/
theorem bufferWordsStayFinite : Obligations.BufferWordsStayFinite := by
  intro p s hp hrun
  exact ⟨hrun.params_eq, fun b n _ _ => finite_readWord (hrun.good (.powerOn hp)).words _⟩

end Sys2Proof.Machine
end

section
/-!
The encoding of commands (R110-R118, R121, R122). A packet is a header word with four fields and then each operand as
two words, so the decoder has one lemma for each operand count K: what it reads from the words of K operands, and that
the words it reads are those of K operands. Encoding and decoding are inverse by a case split along Table E1, grouped
by K.
-/

namespace Sys2Proof

/-! ### Fields and operands as numbers (R111, R113) -/

theorem toNat_eq_fields (h : Word) :
    h.toNat = (opcOf h).toNat * 2 ^ 24 + (instOf h).toNat * 2 ^ 16 + (faOf h).toNat * 2 ^ 8 + (fbOf h).toNat := by
  simp only [opcOf, instOf, faOf, fbOf, BitVec.extractLsb'_toNat, Nat.shiftRight_eq_div_pow]
  omega

theorem toNat_eq_highWord_lowWord (v : U64) : v.toNat = (highWord v).toNat * 2 ^ 32 + (lowWord v).toNat := by
  simp only [highWord, lowWord, BitVec.extractLsb'_toNat, Nat.shiftRight_eq_div_pow]
  omega

/-- A command's header is a word with the same four fields. -/
theorem header_eq_of_fields {i : Instr} {h : Word} (hopc : (opcOf h).toNat = i.opc.toNat) (hinst : instOf h = i.inst)
    (hfa : faOf h = i.fa) (hfb : fbOf h = i.fb) : i.header = h := by
  rw [Instr.header, ← BitVec.eq_of_toNat_eq hopc, ← hinst, ← hfa, ← hfb, mkHeader_fields]

/-! ### The words of the operands (R113) -/

theorem length_operands (i : Instr) : i.operands.length = operandCount i.opc := by cases i <;> rfl

theorem operandWords_getElem? {vs : List U64} {k : Nat} {v : U64} (h : vs[k]? = some v) :
    (operandWords vs)[2 * k]? = some (lowWord v) ∧ (operandWords vs)[2 * k + 1]? = some (highWord v) := by
  induction vs generalizing k with
  | nil => simp at h
  | cons u us ih =>
    cases k with
    | zero =>
      obtain rfl : u = v := by simpa using h
      exact ⟨rfl, rfl⟩
    | succ k => exact ih (k := k) (by simpa using h)

theorem operandWords_eq_flatMap (vs : List U64) : operandWords vs = vs.flatMap fun v => [lowWord v, highWord v] := by
  induction vs with
  | nil => rfl
  | cons v vs ih => rw [operandWords, ih, List.flatMap_cons, List.cons_append, List.cons_append, List.nil_append]

/-! ### Taking K operands (R112, R113) -/

theorem takeOperands1_operandWords (mk : U64 → Instr) (a : U64) (rest : List Word) :
    takeOperands1 mk (operandWords [a] ++ rest) = .command (mk a) rest := by
  simp [operandWords, takeOperands1]

theorem takeOperands2_operandWords (mk : U64 → U64 → Instr) (a b : U64) (rest : List Word) :
    takeOperands2 mk (operandWords [a, b] ++ rest) = .command (mk a b) rest := by
  simp [operandWords, takeOperands2]

theorem takeOperands4_operandWords (mk : U64 → U64 → U64 → U64 → Instr) (a b c d : U64) (rest : List Word) :
    takeOperands4 mk (operandWords [a, b, c, d] ++ rest) = .command (mk a b c d) rest := by
  simp [operandWords, takeOperands4]

theorem takeOperands5_operandWords (mk : U64 → U64 → U64 → U64 → U64 → Instr) (a b c d e : U64) (rest : List Word) :
    takeOperands5 mk (operandWords [a, b, c, d, e] ++ rest) = .command (mk a b c d e) rest := by
  simp [operandWords, takeOperands5]

section
variable {ws rest : List Word} {i : Instr}

theorem eq_of_takeOperands1 {mk : U64 → Instr} (h : takeOperands1 mk ws = .command i rest) :
    ∃ a, i = mk a ∧ ws = operandWords [a] ++ rest := by
  unfold takeOperands1 at h
  split at h
  · cases h
    exact ⟨_, rfl, by simp [operandWords]⟩
  · cases h

theorem eq_of_takeOperands2 {mk : U64 → U64 → Instr} (h : takeOperands2 mk ws = .command i rest) :
    ∃ a b, i = mk a b ∧ ws = operandWords [a, b] ++ rest := by
  unfold takeOperands2 at h
  split at h
  · cases h
    exact ⟨_, _, rfl, by simp [operandWords]⟩
  · cases h

theorem eq_of_takeOperands4 {mk : U64 → U64 → U64 → U64 → Instr} (h : takeOperands4 mk ws = .command i rest) :
    ∃ a b c d, i = mk a b c d ∧ ws = operandWords [a, b, c, d] ++ rest := by
  unfold takeOperands4 at h
  split at h
  · cases h
    exact ⟨_, _, _, _, rfl, by simp [operandWords]⟩
  · cases h

theorem eq_of_takeOperands5 {mk : U64 → U64 → U64 → U64 → U64 → Instr}
    (h : takeOperands5 mk ws = .command i rest) :
    ∃ a b c d e, i = mk a b c d e ∧ ws = operandWords [a, b, c, d, e] ++ rest := by
  unfold takeOperands5 at h
  split at h
  · cases h
    exact ⟨_, _, _, _, _, rfl, by simp [operandWords]⟩
  · cases h

end

/-! ### Table E1 (R115), both ways -/

/-- The header's opcode leads to the command's own row, whose fields are the header's and whose operands are taken back
from their words. -/
theorem decodeHeader_header (i : Instr) (rest : List Word) :
    decodeHeader i.header (operandWords i.operands ++ rest) = .command i rest := by
  rw [decodeHeader, opcOf_header, instOf_header, faOf_header, fbOf_header]
  cases i with
  | bufRead | filtProcess => exact takeOperands1_operandWords ..
  | bufWrite | filtUpdate | lfoStep => exact takeOperands2_operandWords ..
  | oscRender => exact takeOperands4_operandWords ..
  | envInit => exact takeOperands5_operandWords ..
  | nop | coreReset | regRead | errClear | bufClear | oscInit | envStep | envApply | envNoteOff | filtReset | filtApply
  | lfoEnable => rfl

/-- Settles O1: a packet is the command's header and its operands' words (`decodeHeader_header`). -/
theorem decodeEncode : Obligations.DecodeEncode :=
  fun i rest => decodeHeader_header i rest

/-- A command is read only from its own header and its own operands' words. -/
theorem eq_of_decodeHeader {h : Word} {ws rest : List Word} {i : Instr} (hd : decodeHeader h ws = .command i rest) :
    i.header = h ∧ ws = operandWords i.operands ++ rest := by
  unfold decodeHeader at hd
  dsimp only at hd
  split at hd <;> rename_i hopc
  case h_6 | h_16 =>
    obtain ⟨_, rfl, rfl⟩ := eq_of_takeOperands1 hd
    exact ⟨header_eq_of_fields hopc rfl rfl rfl, rfl⟩
  case h_5 | h_14 | h_19 =>
    obtain ⟨_, _, rfl, rfl⟩ := eq_of_takeOperands2 hd
    exact ⟨header_eq_of_fields hopc rfl rfl rfl, rfl⟩
  case h_9 =>
    obtain ⟨_, _, _, _, rfl, rfl⟩ := eq_of_takeOperands4 hd
    exact ⟨header_eq_of_fields hopc rfl rfl rfl, rfl⟩
  case h_10 =>
    obtain ⟨_, _, _, _, _, rfl, rfl⟩ := eq_of_takeOperands5 hd
    exact ⟨header_eq_of_fields hopc rfl rfl rfl, rfl⟩
  case h_20 => cases hd
  all_goals
    cases hd
    exact ⟨header_eq_of_fields hopc rfl rfl rfl, rfl⟩

/-- Settles O2: the header and the operands' words are the command's own (`eq_of_decodeHeader`). -/
theorem encodeDecode : Obligations.EncodeDecode := by
  intro ws i rest hd
  cases ws with
  | nil => cases hd
  | cons h ws =>
    obtain ⟨rfl, rfl⟩ := eq_of_decodeHeader hd
    rfl

/-! ### The illegal opcodes and the length of a packet (R112, R118) -/

theorem takeOperands1_ne_illegal (mk : U64 → Instr) (ws : List Word) (h : Word) (rest : List Word) :
    takeOperands1 mk ws ≠ .illegal h rest := by
  unfold takeOperands1
  split <;> exact nofun

theorem takeOperands2_ne_illegal (mk : U64 → U64 → Instr) (ws : List Word) (h : Word) (rest : List Word) :
    takeOperands2 mk ws ≠ .illegal h rest := by
  unfold takeOperands2
  split <;> exact nofun

theorem takeOperands4_ne_illegal (mk : U64 → U64 → U64 → U64 → Instr) (ws : List Word) (h : Word) (rest : List Word) :
    takeOperands4 mk ws ≠ .illegal h rest := by
  unfold takeOperands4
  split <;> exact nofun

theorem takeOperands5_ne_illegal (mk : U64 → U64 → U64 → U64 → U64 → Instr) (ws : List Word) (h : Word)
    (rest : List Word) : takeOperands5 mk ws ≠ .illegal h rest := by
  unfold takeOperands5
  split <;> exact nofun

/-- The opcodes that no command has, by the ranges of R118. -/
def IsIllegalOpcode (o : Nat) : Prop :=
  (0x04 ≤ o ∧ o ≤ 0x07) ∨ (0x0B ≤ o ∧ o ≤ 0x0F) ∨ (0x12 ≤ o ∧ o ≤ 0x1F) ∨ (0x24 ≤ o ∧ o ≤ 0x2F) ∨
    (0x34 ≤ o ∧ o ≤ 0x3F) ∨ (0x42 ≤ o ∧ o ≤ 0xFF)

/-- The decoder's default row is the list of R118, and takes the header alone (R112). -/
theorem decodeHeader_eq_illegal_iff {h h' : Word} {ws rest : List Word} :
    decodeHeader h ws = .illegal h' rest ↔ IsIllegalOpcode (opcOf h).toNat ∧ h = h' ∧ ws = rest := by
  have hbyte := (opcOf h).isLt
  unfold decodeHeader IsIllegalOpcode
  dsimp only
  split
  case h_20 =>
    rw [Decoded.illegal.injEq, iff_and_self]
    simp only [imp_false] at *
    omega
  all_goals
    simp only [takeOperands1_ne_illegal, takeOperands2_ne_illegal, takeOperands4_ne_illegal,
      takeOperands5_ne_illegal, reduceCtorEq, false_iff]
    rintro ⟨hill, -⟩
    omega

/-- Settles O3: a command has the header's OPC (`eq_of_decodeHeader`), and OPC alone tells the words taken
(`rest_decodeHeader`). -/
theorem packetLengthFromOpcode : Obligations.PacketLengthFromOpcode := by
  intro h ws
  have hrest := rest_decodeHeader h ws
  rw [afterOperands] at hrest
  rw [decode]
  cases hd : decodeHeader h ws with
  | command i rest =>
    obtain ⟨rfl, -⟩ := eq_of_decodeHeader hd
    rw [hd] at hrest
    obtain ⟨hlen, hdrop⟩ := Option.ite_none_right_eq_some.1 hrest.symm
    rw [opcOf_header] at hlen hdrop ⊢
    exact ⟨rfl, length_operands i, hlen, (Option.some.inj hdrop).symm⟩
  | illegal h' rest =>
    obtain ⟨-, rfl, rfl⟩ := decodeHeader_eq_illegal_iff.1 hd
    rw [hd] at hrest
    obtain ⟨hlen, hdrop⟩ := Option.ite_none_right_eq_some.1 hrest.symm
    have hkept : ws.length - 2 * operandCount (opcOf h) = ws.length := by
      rw [← List.length_drop, Option.some.inj hdrop]
    exact ⟨rfl, by omega, rfl⟩
  | incomplete =>
    rw [hd] at hrest
    simpa [Decoded.rest] using hrest

/-- Settles O5: the header's fields and each operand's halves as numbers (`toNat_eq_fields`,
`toNat_eq_highWord_lowWord`), and the place of an operand's two words (`operandWords_getElem?`).
The model has a `packetWords` of its own. -/
theorem Encoding.packetWords : Obligations.PacketWords := by
  intro i
  refine ⟨?_, ⟨i.header, rfl, ?_⟩, fun k v hv => ?_⟩
  · rw [length_encode, length_operands]
  · rw [toNat_eq_fields, opcOf_header, instOf_header, faOf_header, fbOf_header]
  · obtain ⟨hlow, hhigh⟩ := operandWords_getElem? hv
    refine ⟨lowWord v, highWord v, ?_, ?_, toNat_eq_highWord_lowWord v⟩
    · rw [encode, Nat.add_comm, List.getElem?_cons_succ, hlow]
    · rw [encode, Nat.add_comm, List.getElem?_cons_succ, hhigh]

/-- Settles O7: eight packets of literal words, each computed. -/
theorem decodingSanity : Obligations.DecodingSanity := by
  unfold Obligations.DecodingSanity
  decide

end Sys2Proof

namespace Sys2Proof.Machine

/-- Settles O4: the illegal headers are those of the list (`decodeHeader_eq_illegal_iff`), and a step refuses such a
packet (`step_of_illegal`). -/
theorem illegalOpcodes : Obligations.IllegalOpcodes := by
  intro h ws
  refine ⟨decodeHeader_eq_illegal_iff.trans (and_iff_left ⟨rfl, rfl⟩), fun s hs hd => ?_⟩
  rw [← hs] at hd
  exact step_of_illegal hd

/-! ### Responses (R114) -/

theorem resultWords_eq_operandWords (r : Option U64) : resultWords r = operandWords r.toList := by
  cases r <;> rfl

/-- Only REG_READ could lack its result, and its field check is that the register exists. -/
theorem length_result {i : Instr} {s : State} (h : i.failure s.params = none) :
    (result i s).toList.length = i.resultCount := by
  cases i with
  | regRead inst fa fb =>
    obtain ⟨hwf, -⟩ := failure_none_iff.1 h
    obtain ⟨v, hv⟩ := Option.isSome_iff_exists.1 ((regValue_isSome s fa inst.toNat fb.toNat).trans hwf)
    exact congrArg (fun r => r.toList.length) hv
  | _ => rfl

theorem resultCount_le_one (i : Instr) : i.resultCount ≤ 1 := by
  unfold Instr.resultCount
  split <;> omega

/-- Settles O13: a command is performed and responds with its one result, if it has one (`length_result`), or is refused
with a status other than OK (`failure_ne_ok`); an illegal packet is refused. -/
theorem oneResponsePerCommand : Obligations.OneResponsePerCommand := by
  refine ⟨fun i s => ?_, fun s h rest hd => ⟨_, step_of_illegal hd, rfl⟩⟩
  cases hf : i.failure s.params with
  | none =>
    refine ⟨_, .ok, exec_performed hf, fun _ => ⟨(result i s).toList, rfl, length_result hf, resultCount_le_one i, ?_⟩,
      fun hne => absurd rfl hne⟩
    rw [State.respond, effect_respPort, resultWords_eq_operandWords, operandWords_eq_flatMap]
    rfl
  | some st =>
    refine ⟨_, st, exec_refused hf, nofun, fun _ => ⟨rfl, fun hst => failure_ne_ok i s.params (hst ▸ hf), ?_⟩⟩
    rw [State.refuse, opcOf_header]
    rfl

/-! ### The assembly examples (R121, R122) -/

/-- Settles O8: the line is read as its command, and the command's packet is the nine words. -/
theorem workedEncoding : Obligations.WorkedEncoding := by
  have hline : assembleLine "osc.render osc3, b5, u8, 220.0, 1.0, 0, 1.0".toList =
      some [.oscRender 3 5 8 0x406B800000000000 0x3FF0000000000000 0 0x3FF0000000000000] := by decide +kernel
  rw [Obligations.WorkedEncoding, assemble, hline]
  decide

/-- After the first command the LFO is off, so the second changes ENABLED and resets it (R230). -/
theorem enableLfo_off_on (l : Lfo) :
    enableLfo (enableLfo l false) true = { enabled := true, phase := c0, prev := c0 } := by
  cases h : l.enabled <;> simp [enableLfo, h]

/-- Settles O49: the line is read as the two commands of its expansion, no check of which can fail, and their effects
together restart the LFO (`enableLfo_off_on`). -/
theorem lfoRestartRestarts : Obligations.LfoRestartRestarts := by
  refine ⟨by decide +kernel, fun s => ⟨_, exec_performed rfl, (exec_performed rfl).trans ?_⟩⟩
  simp [effect, result, State.respond, Instr.opc, statusWord, resultWords, Status.code, enableLfo_off_on]

end Sys2Proof.Machine
end

section
/-!
The oscillator commands (R140-R152). A render is the iterate of one phase advance, and its words are one function of the
word index and the phase, neither of which looks at what the buffer held before: `exec_oscRender` says so once, and the
statements about OSC_RENDER read it.
-/

namespace Sys2Proof.Machine

/-! ### The unison count (R142) -/

theorem unisonCount_of_le_one {fb : Byte} (h : fb.toNat ≤ 1) : unisonCount fb = 1 := by
  unfold unisonCount clampNat
  split <;> [rfl; split] <;> omega

theorem unisonCount_of_one_lt {fb : Byte} (h : 1 < fb.toNat) : unisonCount fb = min fb.toNat 16 := by
  unfold unisonCount clampNat
  split <;> [skip; split] <;> omega

/-! ### One word: the phase advance and the value (R145, R150, R151) -/

/-- PHASE after one word: a unison render under HOLD keeps it, any other advances it. -/
def renderAdvance (base : BasePhase) (count : Nat) (f phase : F64) : F64 :=
  if count ≠ 1 ∧ base = .hold then phase else wrapAcc (fadd phase (phaseIncrement f))

/-- Word n at a phase. -/
def renderValue (drive : F64) (w : Waveform) (f vol : F64) (count : Nat) (s0 : U64) (det : F64) (n : Nat)
    (phase : F64) : F64 :=
  if count = 1 then fmul vol (waveValue w phase)
  else fmul vol (fdiv (unisonSum w drive f det count (s0 + BitVec.ofNat 64 n)) (ffloat count))

theorem renderAdvance_one (base : BasePhase) (f phase : F64) :
    renderAdvance base 1 f phase = wrapAcc (fadd phase (phaseIncrement f)) := if_neg (by simp)

theorem renderAdvance_of_ne_one {count : Nat} (h : count ≠ 1) (base : BasePhase) (f phase : F64) :
    renderAdvance base count f phase =
      if base = .hold then phase else wrapAcc (fadd phase (phaseIncrement f)) := by simp [renderAdvance, h]

theorem renderValue_one (drive : F64) (w : Waveform) (f vol : F64) (s0 : U64) (det : F64) (n : Nat) (phase : F64) :
    renderValue drive w f vol 1 s0 det n phase = fmul vol (waveValue w phase) := if_pos rfl

theorem renderValue_of_ne_one {count : Nat} (h : count ≠ 1) (drive : F64) (w : Waveform) (f vol : F64) (s0 : U64)
    (det : F64) (n : Nat) (phase : F64) :
    renderValue drive w f vol count s0 det n phase =
      fmul vol (fdiv (unisonSum w drive f det count (s0 + BitVec.ofNat 64 n)) (ffloat count)) := if_neg h

/-- The sample step of OSC_RENDER is the advance and the value, whatever the word was. -/
theorem renderWord_eq (p : Params) (w : Waveform) (f vol : F64) (count : Nat) (s0 : U64) (det : F64) (n : Nat)
    (phase old : F64) :
    renderWord p w f vol count s0 det n phase old =
      (renderAdvance p.unisonBasePhase count f phase,
        renderValue p.softclipDrive w f vol count s0 det n phase) := by
  by_cases hc : count = 1
  · subst hc
    rw [renderAdvance_one, renderValue_one, renderWord, if_pos rfl, singleWord]
  · rw [renderAdvance_of_ne_one hc, renderValue_of_ne_one hc, renderWord, if_neg hc]
    cases p.unisonBasePhase <;> simp [unisonWord]

/-- A sweep whose unit looks at neither the index nor the words is an iterate. -/
theorem sweepUnit_eq_iterate {σ : Type} {f : Nat → σ → F64 → σ × F64} {g : σ → σ} (h : ∀ n u x, (f n u x).1 = g u)
    (base : Nat) (m : Memory) (u : σ) (k : Nat) : sweepUnit f base m u k = g^[k] u := by
  induction k with
  | zero => rfl
  | succ k ih => rw [sweepUnit, h, ih, Function.iterate_succ_apply']

/-! ### The sum of the tracks (R150) -/

/-- acc of R150 after k tracks. -/
def trackSum (w : Waveform) (drive f det : F64) (count : Nat) (index : U64) (k : Nat) : F64 :=
  (List.range k).foldl (fun acc j => fadd acc (trackValue w drive f det count j index)) c0

theorem trackSum_succ (w : Waveform) (drive f det : F64) (count : Nat) (index : U64) (k : Nat) :
    trackSum w drive f det count index (k + 1) =
      fadd (trackSum w drive f det count index k) (trackValue w drive f det count k index) := by
  rw [trackSum, List.range_succ, List.foldl_append]
  rfl

theorem unisonSum_eq_trackSum (w : Waveform) (drive f det : F64) (count : Nat) (index : U64) :
    unisonSum w drive f det count index = trackSum w drive f det count index count := rfl

/-! ### A whole render -/

/-- PHASE of oscillator i before word k of a render. -/
def renderPhase (s : State) (i : Nat) (fb : Byte) (frequency : F64) (k : Nat) : F64 :=
  (renderAdvance s.params.unisonBasePhase (unisonCount fb) (clampFrequency frequency))^[k] (s.oscAt i).phase

/-- Word n of a render of oscillator i. -/
def renderedWord (s : State) (i : Nat) (fb : Byte) (frequency volume : F64) (s0 : U64) (detune : F64) (n : Nat) : F64 :=
  renderValue s.params.softclipDrive (s.oscAt i).waveform (clampFrequency frequency) (clampUnit volume)
    (unisonCount fb) s0 (clampUnit detune) n (renderPhase s i fb frequency n)

theorem renderPhase_succ (s : State) (i : Nat) (fb : Byte) (frequency : F64) (k : Nat) :
    renderPhase s i fb frequency (k + 1) =
      renderAdvance s.params.unisonBasePhase (unisonCount fb) (clampFrequency frequency)
        (renderPhase s i fb frequency k) := Function.iterate_succ_apply' ..

theorem oscRender_failure_none {inst b fb : Byte} {frequency volume detune : F64} {p : Params} (s0 : U64)
    (hi : inst.toNat < p.numOsc) (hb : b.toNat < p.numBuf) (hf : isFinite frequency = true)
    (hv : isFinite volume = true) (hd : isFinite detune = true) :
    (Instr.oscRender inst b fb frequency volume s0 detune).failure p = none :=
  failure_none_iff.2 ⟨rfl, fun _ hc => Option.some.inj hc ▸ hi, fun _ hb' => Option.some.inj hb' ▸ hb,
    by simp [Instr.realOperands, hf, hv, hd], nofun⟩

/-- A performed OSC_RENDER: the whole next state, and every word of its memory. -/
theorem exec_oscRender {inst b fb : Byte} {frequency volume detune : F64} {s0 : U64} {s : State}
    (hwf : Memory.wf s.mem)
    (hperformed : (Instr.oscRender inst b fb frequency volume s0 detune).failure s.params = none) :
    ∃ m : Memory, Memory.wf m ∧
      exec (.oscRender inst b fb frequency volume s0 detune) s = .next
        (State.answered
          { s with
            osc := s.osc.set inst.toNat
              { waveform := (s.oscAt inst.toNat).waveform
                phase := renderPhase s inst.toNat fb frequency s.params.n
                frequency := clampFrequency frequency }
            mem := m } 0x11 []) ∧
      (∀ n, n < s.params.n → readWord m (wordAddr s.params.n b.toNat n) =
        renderedWord s inst.toNat fb frequency volume s0 detune n) ∧
      ∀ a, Outside s.params b.toNat a → readWord m a = readWord s.mem a := by
  set o := s.oscAt inst.toNat
  set word := renderWord s.params o.waveform (clampFrequency frequency) (clampUnit volume) (unisonCount fb) s0
    (clampUnit detune) with hword
  have hunit : ∀ k, sweepUnit word (wordAddr s.params.n b.toNat 0) s.mem o.phase k =
      renderPhase s inst.toNat fb frequency k :=
    sweepUnit_eq_iterate (fun n u x => by rw [hword, renderWord_eq]) _ s.mem o.phase
  obtain ⟨hphase, hwords, houtside⟩ := sweepBuffer_spec hwf b.toNat word o.phase
  refine ⟨(s.sweepBuffer b.toNat word o.phase).2, wf_sweep _ _ _ _ _ hwf, (exec_performed hperformed).trans ?_,
    fun n hn => ?_, houtside⟩
  · rw [respond_eq_answered, ← hunit, ← hphase]
    rfl
  · rw [hwords n hn, hunit, hword, renderWord_eq, renderedWord]

/-- What later commands can read of the state after a render. -/
theorem exec_oscRender_reads {inst b fb : Byte} {frequency volume detune : F64} {s0 : U64} {s : State}
    (hwf : Memory.wf s.mem) (hi : inst.toNat < s.osc.length)
    (hperformed : (Instr.oscRender inst b fb frequency volume s0 detune).failure s.params = none) :
    ∃ t : State, exec (.oscRender inst b fb frequency volume s0 detune) s = .next t ∧ Memory.wf t.mem ∧
      t.oscAt inst.toNat = ⟨(s.oscAt inst.toNat).waveform, renderPhase s inst.toNat fb frequency s.params.n,
        clampFrequency frequency⟩ ∧
      ∀ n, n < s.params.n → readWord t.mem (wordAddr s.params.n b.toNat n) =
        renderedWord s inst.toNat fb frequency volume s0 detune n := by
  obtain ⟨m, hwfm, hexec, hwords, -⟩ := exec_oscRender hwf hperformed
  exact ⟨_, hexec, hwfm, by simp [State.oscAt, State.answered, hi], hwords⟩

/-! ### OSC_INIT (R140) -/

/-- Settles O25: the checks pass for each of the four values of FA, which name the four waveforms. -/
theorem oscInitStarts : Obligations.OscInitStarts := by
  intro inst fa w s hi hfa
  have hw : waveformOf fa = w ∧ (Instr.oscInit inst fa 0).wellFormed = true := by
    rcases hfa with ⟨rfl, rfl⟩ | ⟨rfl, rfl⟩ | ⟨rfl, rfl⟩ | ⟨rfl, rfl⟩ <;> exact ⟨rfl, rfl⟩
  obtain ⟨rfl, hwf⟩ := hw
  exact exec_performed (failure_none_iff.2 ⟨hwf, fun _ hc => Option.some.inj hc ▸ hi, nofun, nofun, nofun⟩)

/-! ### OSC_RENDER (R142-R151) -/

/-- Settles O26: with a count of 1 each word advances the phase and is the scaled waveform at the phase before. -/
theorem oscRenderSingle : Obligations.OscRenderSingle := by
  intro inst b fb frequency volume s0 detune s hwf hi hb hfb hf hv hd o f vol inc
  have hcount := unisonCount_of_le_one hfb
  obtain ⟨m, -, hexec, hwords, houtside⟩ := exec_oscRender hwf (oscRender_failure_none s0 hi hb hf hv hd)
  refine ⟨renderPhase s inst.toNat fb frequency, m, rfl, fun k => ?_, hexec, fun n hn => ?_, houtside⟩
  · rw [renderPhase_succ, hcount, renderAdvance_one]
    rfl
  · rw [hwords n hn, renderedWord, hcount, renderValue_one]
    rfl

/-- Settles O27: with a count above 1 each word is the scaled mean of the tracks, each track the model's own functions,
and the phase goes by UNISON_BASE_PHASE. -/
theorem oscRenderUnison : Obligations.OscRenderUnison := by
  intro inst b fb frequency volume s0 detune s hwf hi hb hfb hf hv hd o U f vol spread inc
  have hcount : unisonCount fb = U := unisonCount_of_one_lt hfb
  have hU : U ≠ 1 := by omega
  obtain ⟨m, -, hexec, hwords, houtside⟩ := exec_oscRender hwf (oscRender_failure_none s0 hi hb hf hv hd)
  refine ⟨renderPhase s inst.toNat fb frequency, trackCents (clampUnit detune) U,
    trackFrequency f (clampUnit detune) U, trackIncrement f (clampUnit detune) U, trackSeed,
    fun k n => trackPhase f (clampUnit detune) U k (s0 + BitVec.ofNat 64 n),
    fun n => trackSum o.waveform s.params.softclipDrive f (clampUnit detune) U (s0 + BitVec.ofNat 64 n), m,
    fun k => ⟨rfl, rfl, rfl, rfl⟩, fun k n => rfl, fun n => rfl, fun n k => trackSum_succ .., rfl, fun k => ?_, hexec,
    fun n hn => ?_, houtside⟩
  · rw [renderPhase_succ, hcount, renderAdvance_of_ne_one hU]
    rfl
  · rw [hwords n hn, renderedWord, hcount, renderValue_of_ne_one hU, unisonSum_eq_trackSum]
    rfl

/-- R15, R38: the phase stays a phase through a render. -/
theorem renderPhase_isPhase {s : State} (h : s.Good) (i : Nat) (fb : Byte) {frequency : F64}
    (hf : isFinite frequency = true) (k : Nat) : IsPhase (renderPhase s i fb frequency k) := by
  refine Function.Iterate.rec IsPhase (h.oscAt i).phase (fun phase hp => ?_) k
  unfold renderAdvance
  split
  · exact hp
  · exact wrapAcc_isPhase hp (phaseIncrement_le_PI (clampFrequency_within hf))

/-- R146: every word of a render lies in [-1, 1]. -/
theorem renderedWord_within {s : State} (h : s.Good) (i : Nat) (fb : Byte) {frequency volume : F64}
    (hf : isFinite frequency = true) (hv : isFinite volume = true) (s0 : U64) (detune : F64) (n : Nat) :
    Within cNeg1 c1 (renderedWord s i fb frequency volume s0 detune n) := by
  obtain ⟨-, hword⟩ := renderWord_spec s.params (s.oscAt i).waveform fb s0 (clampUnit detune) n c0 hf hv
    (renderPhase_isPhase h i fb hf n)
  rwa [renderWord_eq] at hword

/-- Settles O28: the words a render writes are those of `renderedWord_within`. -/
theorem renderedWordsInRange : Obligations.RenderedWordsInRange := by
  intro inst b fb frequency volume s0 detune s t hgood hperformed hexec n hn
  obtain ⟨-, -, -, hfinite, -⟩ := failure_none_iff.1 hperformed
  obtain ⟨m, -, hexec', hwords, -⟩ := exec_oscRender hgood.shape.wf hperformed
  obtain rfl := Host.Outcome.next.inj (hexec.symm.trans hexec')
  have hword := renderedWord_within hgood inst.toNat fb (hfinite frequency (by simp [Instr.realOperands]))
    (hfinite volume (by simp [Instr.realOperands])) s0 detune n
  rw [← hwords n hn] at hword
  exact ⟨hword.signed.1, hword⟩

/-! ### Phase continuity (R152) -/

/-- A render that starts at the phase word N of another would have goes on with that one's phases. -/
theorem renderPhase_add {s t : State} {i : Nat} {fb : Byte} {frequency : F64} {N : Nat}
    (hbase : t.params.unisonBasePhase = s.params.unisonBasePhase)
    (hphase : (t.oscAt i).phase = renderPhase s i fb frequency N) (k : Nat) :
    renderPhase t i fb frequency k = renderPhase s i fb frequency (N + k) := by
  rw [renderPhase, hbase, hphase, renderPhase, renderPhase, ← Function.iterate_add_apply, Nat.add_comm]

/-- The value of word n counted from s0 + N is that of word N + n counted from s0; a single oscillator reads no index. -/
theorem renderValue_add {count : Nat} {s0 s0' : U64} {N : Nat} (hs0 : count ≠ 1 → s0' = s0 + BitVec.ofNat 64 N)
    (drive : F64) (w : Waveform) (f vol det : F64) (n : Nat) (phase : F64) :
    renderValue drive w f vol count s0' det n phase = renderValue drive w f vol count s0 det (N + n) phase := by
  by_cases hc : count = 1
  · subst hc
    rw [renderValue_one, renderValue_one]
  · rw [renderValue_of_ne_one hc, renderValue_of_ne_one hc, hs0 hc, BitVec.ofNat_add, BitVec.add_assoc]

/-- Settles O29: the second render starts where the first left PHASE (`renderPhase_add`) and counts its samples from there
(`renderValue_add`). -/
theorem phaseIsContinuous : Obligations.PhaseIsContinuous := by
  intro inst b b' fb frequency volume s0 s0' detune s m hsized hwf hwfm hi hb hb' hf hv hd hs0
  have hlen : inst.toNat < s.osc.length := hsized.osc ▸ hi
  have hindex : unisonCount fb ≠ 1 → s0' = s0 + BitVec.ofNat 64 s.params.n := fun hc =>
    hs0 (not_le.1 (mt unisonCount_of_le_one hc))
  obtain ⟨t, ht, hwft, hosct, hwordst⟩ := exec_oscRender_reads hwf hlen
    (oscRender_failure_none (b := b) (fb := fb) s0 hi hb hf hv hd)
  obtain ⟨hparams, -⟩ := exec_frame ht
  obtain ⟨u, hu, -, hoscu, hwordsu⟩ := exec_oscRender_reads hwft (by rwa [(exec_sized hsized ht).osc, hparams])
    (oscRender_failure_none (inst := inst) (b := b') (fb := fb) s0' (hparams ▸ hi) (hparams ▸ hb') hf hv hd)
  obtain ⟨w, hw, -, hoscw, hwordsw⟩ := exec_oscRender_reads
    (s := { s with params := { s.params with n := 2 * s.params.n }, mem := m }) hwfm hlen
    (oscRender_failure_none (b := b) (fb := fb) s0 hi hb hf hv hd)
  have hnext := renderPhase_add (congrArg Params.unisonBasePhase hparams) (congrArg Osc.phase hosct)
  rw [hparams] at hwordsu hoscu
  refine ⟨t, u, w, ht, hu, hw, ?_, fun n hn => ⟨?_, ?_⟩⟩
  · rw [hoscu, hoscw, hosct, hnext, ← Nat.two_mul]
    rfl
  · rw [hwordst n hn, hwordsw n (by simp only; omega)]
    rfl
  · rw [hwordsu n hn, hwordsw (s.params.n + n) (by simp only; omega), renderedWord, hnext, hosct, hparams,
      renderValue_add hindex]
    rfl

/-! ### Unison tracks (R147, R148) -/

theorem fclamp_of_isNaN {v : F64} (h : isNaN v = true) (lo hi : F64) : fclamp v lo hi = v := by
  simp [fclamp, flt, h]

theorem isZero_iff_orderKey {a : F64} : isZero a = true ↔ orderKey a = 0 := by
  unfold isZero orderKey
  rw [decide_eq_true_eq]
  split <;> omega

/-- A product with a zero factor is a zero, if it is no NaN: an infinite other factor would have made it one (R12). -/
theorem isZero_fmul {a b : F64} (ha : isZero a = true) (h : isNaN (fmul a b) = false) : isZero (fmul a b) = true := by
  unfold fmul at h ⊢
  dsimp only at h ⊢
  split
  case isTrue hnan => simp [hnan] at h
  case isFalse hnan =>
    split
    case isTrue hinf => simp [hnan, hinf, ha] at h
    case isFalse =>
      have hunits : units a = 0 := by rw [units, of_decide_eq_true ha, magUnits_zero]
      have hbits : roundBits 0 oneUnits = 0 := roundBits_exact oneUnits_pos (Nat.zero_le _) (by simp)
      rw [hunits, Nat.zero_mul, roundTo, hbits, isZero, magBits_pack (Nat.zero_le _)]
      rfl

/-- Settles O30: a track's frequency is clamped (`trackFrequency_within`). From 0.0 Hz the clamp finds a zero
(`isZero_fmul`), for a NaN would have come through it. -/
theorem trackFrequencies : Obligations.TrackFrequencies := by
  intro f det count k hf hd h1 h2 hk
  have hwithin := trackFrequency_within hf hd h1 h2 hk
  refine ⟨hwithin, fun hfeq => ?_⟩
  have hzero : isZero f = true := by
    rw [feq, Bool.and_eq_true, decide_eq_true_eq] at hfeq
    exact isZero_iff_orderKey.2 hfeq.2
  unfold trackFrequency at hwithin ⊢
  have hnan : isNaN (fmul f (fnExp2 (fdiv (trackCents det count k) c1200))) = false := by
    by_contra hcon
    rw [fclamp_of_isNaN (Bool.eq_true_of_not_eq_false hcon)] at hwithin
    exact hcon (not_nan_of_fle hwithin.1).2
  refine if_pos ((flt_iff hnan (by decide)).2 ?_)
  rw [isZero_iff_orderKey.1 (isZero_fmul hzero hnan)]
  decide

end Sys2Proof.Machine
end

section
/-!
The envelope commands (R170-R182): the whole next state of each that is performed, the raw value in each stage, and what
follows for a whole ENV_APPLY, for a released envelope and for one at rest.
-/

namespace Sys2Proof.Machine

/-! ### The commands performed -/

theorem exec_envInit {inst : Byte} {attackMs decayMs sustainLevel releaseMs sustainMs : F64} {s : State}
    (hi : inst.toNat < s.params.numEnv)
    (hx : ∀ x ∈ [attackMs, decayMs, sustainLevel, releaseMs, sustainMs], isFinite x = true) :
    exec (.envInit inst 0 0 attackMs decayMs sustainLevel releaseMs sustainMs) s = .next
      (State.answered
        { s with env := s.env.set inst.toNat (startEnvelope attackMs decayMs sustainLevel releaseMs sustainMs) }
        0x20 []) :=
  exec_performed (failure_none_iff.2 ⟨rfl, fun _ hc => Option.some.inj hc ▸ hi, nofun, hx, nofun⟩)

theorem exec_envStep {inst : Byte} {s : State} (hi : inst.toNat < s.params.numEnv) :
    exec (.envStep inst 0 0) s = .next
      (State.answered { s with env := s.env.set inst.toNat (envSample s.params.envAlpha (s.envAt inst.toNat)).1 } 0x21
        [(envSample s.params.envAlpha (s.envAt inst.toNat)).2]) :=
  exec_performed (failure_none_iff.2 ⟨rfl, fun _ hc => Option.some.inj hc ▸ hi, nofun, nofun, nofun⟩)

theorem exec_envApply {inst b : Byte} {s : State} (hi : inst.toNat < s.params.numEnv)
    (hb : b.toNat < s.params.numBuf) :
    exec (.envApply inst b 0) s = .next ((envApply s inst.toNat b.toNat).answered 0x22 []) :=
  exec_performed
    (failure_none_iff.2 ⟨rfl, fun _ hc => Option.some.inj hc ▸ hi, fun _ hc => Option.some.inj hc ▸ hb, nofun, nofun⟩)

theorem exec_envNoteOff {inst : Byte} {s : State} (hi : inst.toNat < s.params.numEnv) :
    exec (.envNoteOff inst 0 0) s = .next
      (State.answered { s with env := s.env.set inst.toNat (noteOff (s.envAt inst.toNat)) } 0x23 []) :=
  exec_performed (failure_none_iff.2 ⟨rfl, fun _ hc => Option.some.inj hc ▸ hi, nofun, nofun, nofun⟩)

theorem envAt_setEnv_self {s : State} {i : Nat} (h : i < s.env.length) (e : Env) : (s.setEnv i e).envAt i = e := by
  simp [State.envAt, h]

/-! ### Note-off and what follows it (R180, R181) -/

theorem noteOff_of_release {e : Env} (h : e.stage = .release) : noteOff e = e := if_pos h

theorem noteOff_of_ne_release {e : Env} (h : e.stage ≠ .release) :
    noteOff e = { e with stage := .release, releaseStart := e.sampleIndex, envAtRelease := e.prev } := if_neg h

/-- Also past the end of the list, where a write does nothing. -/
theorem setEnv_envAt (s : State) (i : Nat) : s.setEnv i (s.envAt i) = s := by
  by_cases h : i < s.env.length
  · simp [State.setEnv, State.envAt, h]
  · simp [State.setEnv, List.set_eq_of_length_le (Nat.not_lt.1 h)]

/-- A note-off on an envelope in RELEASE only answers. -/
theorem exec_envNoteOff_of_release {inst : Byte} {s : State} (hi : inst.toNat < s.params.numEnv)
    (h : (s.envAt inst.toNat).stage = .release) : exec (.envNoteOff inst 0 0) s = .next (s.answered 0x23 []) := by
  rw [exec_envNoteOff hi, noteOff_of_release h]
  exact congrArg (fun t => Host.Outcome.next (State.answered t 0x23 [])) (setEnv_envAt s inst.toNat)

/-- Settles O34: the two branches of `noteOff`. -/
theorem envNoteOffReleases : Obligations.EnvNoteOffReleases := by
  intro inst s _ hi e
  refine ⟨fun h => ?_, exec_envNoteOff_of_release hi⟩
  rw [exec_envNoteOff hi, noteOff_of_ne_release h]

/-- What stays true behind a note-off of envelope inst, until the next ENV_INIT: the parameters p, and RELEASE. -/
structure Released (p : Params) (inst : Byte) (s : State) : Prop where
  params : s.params = p
  stage : (s.envAt inst.toNat).stage = .release

namespace Released

variable {p : Params} {inst : Byte} {s t : State}

theorem of_noteOff (hs : s.Sized) (hi : inst.toNat < s.params.numEnv) (h : exec (.envNoteOff inst 0 0) s = .next t) :
    Released s.params inst t := by
  refine ⟨(exec_frame h).1, ?_⟩
  obtain rfl := Host.Outcome.next.inj ((exec_envNoteOff hi).symm.trans h)
  change ((s.setEnv inst.toNat _).envAt inst.toNat).stage = .release
  rw [envAt_setEnv_self (hs.env ▸ hi), noteOff_stage]

/-- No step leaves RELEASE but by an ENV_INIT of the envelope that is performed (`stageOnlyAdvances`). -/
theorem step (h : Released p inst s) (hstep : Machine.step s = .next t)
    (hinit : ∀ i rest, decode s.cmdPort = .command i rest →
      ¬(i.opc = 0x20 ∧ i.inst = inst ∧ i.failure s.params = none)) : Released p inst t := by
  obtain ⟨-, hstay, -⟩ := stageOnlyAdvances s t inst.toNat hstep (by simpa only [BitVec.toNat_inj] using hinit)
  exact ⟨(step_params hstep).trans h.params, hstay h.stage⟩

theorem send (h : Released p inst s) (ws : List Word) : Released p inst { s with cmdPort := s.cmdPort ++ ws } :=
  ⟨h.params, h.stage⟩

end Released

/-- Settles O35: by induction on the steps and sends, the envelope stays in RELEASE (`Released`), where a note-off only
answers. -/
theorem secondNoteOffChangesNothing : Obligations.SecondNoteOffChangesNothing := by
  intro inst s trace n hs hi hfirst htrace
  have released : ∀ k, k ≤ n → Released s.params inst (trace k) := by
    intro k
    induction k with
    | zero => exact fun _ => .of_noteOff hs hi hfirst
    | succ k ih =>
      intro hk
      have before := ih (Nat.le_of_succ_le hk)
      rcases htrace k hk with ⟨hstep, hinit⟩ | ⟨ws, hsend⟩
      · exact before.step hstep hinit
      · exact hsend ▸ before.send ws
  have last := released n le_rfl
  exact exec_envNoteOff_of_release (last.params ▸ hi) last.stage

/-! ### One sample, stage by stage (R172) -/

theorem RawSample.fields_of_eq {r : RawSample} {stage : Stage} {raw : F64} {finished : Bool}
    (h : r = ⟨stage, raw, finished⟩) : r.stage = stage ∧ r.raw = raw ∧ r.finished = finished := by
  subst h
  exact ⟨rfl, rfl, rfl⟩

section
variable {e : Env}

theorem rawSample_of_attack (hs : e.stage = .attack) (h : e.sampleIndex.toNat < e.attackSamples.toNat) :
    rawSample e = ⟨.attack, fdiv (ffloat e.sampleIndex.toNat) (ffloat e.attackSamples.toNat), e.finished⟩ := by
  rw [rawSample, hs]
  exact if_neg (Nat.not_le.2 h)

/-- R172: the DECAY test is reached from DECAY, and from an ATTACK whose count is reached. -/
theorem rawSample_eq_decaySample
    (h : e.stage = .attack ∧ e.attackSamples.toNat ≤ e.sampleIndex.toNat ∨ e.stage = .decay) :
    rawSample e = decaySample e := by
  rcases h with ⟨hs, hreached⟩ | hs
  · rw [rawSample, hs]
    exact if_pos hreached
  · rw [rawSample, hs]

theorem decaySample_of_lt (h : (e.sampleIndex - e.attackSamples).toNat < e.decaySamples.toNat) :
    decaySample e =
      ⟨.decay, fsub c1 (fmul (fsub c1 e.sustainLevel)
        (fdiv (ffloat (e.sampleIndex - e.attackSamples).toNat) (ffloat e.decaySamples.toNat))), e.finished⟩ :=
  if_neg (Nat.not_le.2 h)

theorem decaySample_of_le (h : e.decaySamples.toNat ≤ (e.sampleIndex - e.attackSamples).toNat) :
    decaySample e = sustainSample e := if_pos h

theorem rawSample_of_sustain (hs : e.stage = .sustain) : rawSample e = sustainSample e := by
  rw [rawSample, hs]

theorem rawSample_of_release (hs : e.stage = .release)
    (h : (e.sampleIndex - e.releaseStart).toNat < e.releaseSamples.toNat) :
    rawSample e =
      ⟨.release, fmul e.envAtRelease (fnExp (fmul cNeg5
        (fdiv (ffloat (e.sampleIndex - e.releaseStart).toNat) (ffloat e.releaseSamples.toNat)))), e.finished⟩ := by
  rw [rawSample, hs]
  exact if_neg (Nat.not_le.2 h)

theorem rawSample_of_release_over (hs : e.stage = .release)
    (h : e.releaseSamples.toNat ≤ (e.sampleIndex - e.releaseStart).toNat) : rawSample e = ⟨.release, c0, true⟩ := by
  rw [rawSample, hs]
  exact if_pos h

end

/-- Settles O32: the sample is the model's, and each clause is its raw sample in that stage. -/
theorem envStepSamples : Obligations.EnvStepSamples := by
  intro inst s hi e alpha j el pastAttack
  refine ⟨(rawSample e).stage, (rawSample e).raw, (rawSample e).finished, fun hs h => ?attack, fun hpast h => ?decay,
    fun h => ?sustain, fun hs h => ?release, fun hs h => ?finishing, exec_envStep hi⟩
  case attack => exact RawSample.fields_of_eq (rawSample_of_attack hs h)
  case decay => exact RawSample.fields_of_eq ((rawSample_eq_decaySample hpast).trans (decaySample_of_lt h))
  case sustain =>
    rcases h with ⟨hpast, h⟩ | hs
    · exact RawSample.fields_of_eq ((rawSample_eq_decaySample hpast).trans (decaySample_of_le h))
    · exact RawSample.fields_of_eq (rawSample_of_sustain hs)
  case release => exact RawSample.fields_of_eq (rawSample_of_release hs h)
  case finishing => exact RawSample.fields_of_eq (rawSample_of_release_over hs h)

/-! ### N samples (R182) -/

/-- The envelope before sample k. -/
def envBefore (alpha : F64) (e : Env) (k : Nat) : Env := (fun e => (envSample alpha e).1)^[k] e

theorem envBefore_succ (alpha : F64) (e : Env) (k : Nat) :
    envBefore alpha e (k + 1) = (envSample alpha (envBefore alpha e k)).1 := Function.iterate_succ_apply' ..

/-- The words that ENV_APPLY scales do not reach the envelope. -/
theorem sweepUnit_envWord (alpha : F64) (base : Nat) (m : Memory) (e : Env) (k : Nat) :
    sweepUnit (envWord alpha) base m e k = envBefore alpha e k :=
  sweepUnit_eq_iterate (f := envWord alpha) (fun _ _ _ => rfl) base m e k

/-- Settles O33: the sweep's unit is the envelope sampled again and again (`sweepUnit_envWord`), each time as ENV_STEP
does. -/
theorem envApplyIsSteps : Obligations.EnvApplyIsSteps := by
  intro inst b s hwf hi hb
  set alpha := s.params.envAlpha
  set e := s.envAt inst.toNat
  obtain ⟨hunit, hwords, houtside⟩ := sweepBuffer_spec hwf b.toNat (envWord alpha) e
  refine ⟨envBefore alpha e, fun k => (envSample alpha (envBefore alpha e k)).2,
    (s.sweepBuffer b.toNat (envWord alpha) e).2, rfl, fun k u hp hu => ?_, ?_, fun n hn => ?_, houtside⟩
  · rw [exec_envStep (hp ▸ hi), hp, hu, envBefore_succ]
  · rw [exec_envApply hi hb, ← sweepUnit_envWord alpha (wordAddr s.params.n b.toNat 0) s.mem, ← hunit]
    rfl
  · rw [hwords n hn, sweepUnit_envWord]
    rfl

/-! ### An envelope at rest (R178, R341) -/

/-- The quotient of two counts that ENV_INIT need not have set. -/
theorem ffloat_div_within {i d : Nat} (hi : i < 2 ^ 64) (hd : d < 2 ^ 64) (hpos : 0 < d) :
    Within c0 (ffloat i) (fdiv (ffloat i) (ffloat d)) := by
  have fi := ffloat_finite hi
  have fd := ffloat_finite hd
  have vi : 0 ≤ val (ffloat i) := (val_nonneg fi).1 (le_ffloat (by decide) (val_c0.trans_le i.cast_nonneg))
  have vd : 1 ≤ val (ffloat d) := by
    rw [← val_c1, ← fle_iff_val (by decide) fd]
    exact le_ffloat (by decide) (val_c1.trans_le (by exact_mod_cast hpos))
  have hz := isZero_false_of_val_pos (zero_lt_one.trans_le vd)
  exact ⟨le_fdiv fi fd (by decide) hz (val_c0.trans_le (div_nonneg vi (zero_le_one.trans vd))),
    fdiv_le fi fd fi hz (div_le_self vi vd)⟩

/-- R11: in a release the operand of FN_EXP is never positive, so its value lies in [0, 1]. -/
theorem releaseFactor_within {e : Env} (h : (e.sampleIndex - e.releaseStart).toNat < e.releaseSamples.toNat) :
    Within c0 c1 (fnExp (fmul cNeg5
      (fdiv (ffloat (e.sampleIndex - e.releaseStart).toNat) (ffloat e.releaseSamples.toNat)))) := by
  obtain ⟨qf, q0, -⟩ := Within.pos
    (ffloat_div_within (BitVec.isLt (e.sampleIndex - e.releaseStart)) e.releaseSamples.isLt (Nat.zero_lt_of_lt h))
    c0_finite (ffloat_finite (BitVec.isLt _)) val_c0.ge
  exact fnExp_within (fmul_le (by decide) qf c0_finite (by rw [val_c0, val_cNeg5]; linarith))

theorem c0_isZero : isZero c0 = true := by decide

/-- A zero of either sign: FN_EXP may answer -0.0. -/
theorem isZero_raw_of_release {e : Env} (hs : e.stage = .release) (h : e.envAtRelease = c0) :
    isZero (rawSample e).raw = true := by
  rcases Nat.lt_or_ge (e.sampleIndex - e.releaseStart).toNat e.releaseSamples.toNat with hlt | hle
  · obtain ⟨-, hraw, -⟩ := RawSample.fields_of_eq (rawSample_of_release hs hlt)
    rw [hraw, h]
    exact isZero_fmul c0_isZero (fmul_not_nan c0_finite (releaseFactor_within hlt).unit.1)
  · rw [rawSample_of_release_over hs hle]
    exact c0_isZero

theorem isFinite_of_isZero {x : F64} (h : isZero x = true) : isFinite x = true := by
  rw [isFinite_iff, of_decide_eq_true h]
  decide

/-- An exact zero is -0.0 only when both operands are (R12). -/
theorem fadd_c0_of_isZero {x : F64} (h : isZero x = true) : fadd c0 x = c0 := by
  rw [eq_pack x, of_decide_eq_true h]
  cases fsign x <;> decide

theorem fmul_c0_of_pos {x : F64} (hf : isFinite x = true) (h : flt c0 x = true) : fmul c0 x = c0 := by
  have hsign : fsign x = false := by
    rw [flt_iff (by decide) (isNaN_of_isFinite hf), orderKey.eq_def x] at h
    by_contra hneg
    rw [if_pos (Bool.eq_true_of_not_eq_false hneg), show orderKey c0 = 0 by decide] at h
    omega
  have hunits : units c0 = 0 := by decide
  rw [fmul_finite (by decide) hf, hsign, hunits, Nat.zero_mul, roundTo,
    roundBits_exact oneUnits_pos (Nat.zero_le _) (by simp)]
  decide

/-- Smoothing a zero from +0.0 gives +0.0. -/
theorem onePole_c0 {alpha raw : F64} (h0 : flt c0 alpha = true) (h1 : flt alpha c1 = true) (hraw : isZero raw = true) :
    onePole alpha c0 raw = c0 := by
  obtain ⟨hcomplement, -⟩ := complement_spec h0 h1
  have hf : isFinite alpha = true := isFinite_of_between (by decide) (by decide) (fle_of_flt h0) (fle_of_flt h1)
  rw [onePole, fmul_c0_of_pos hf h0]
  exact fadd_c0_of_isZero (isZero_fmul hraw (fmul_not_nan (isFinite_of_isZero hraw) hcomplement.unit.1))

/-- A sample in RELEASE keeps the stage. -/
theorem envSample_of_release {alpha : F64} {e : Env} (hs : e.stage = .release) (hf : (rawSample e).finished = true) :
    (envSample alpha e).1 =
      { e with finished := true, prev := (envSample alpha e).2, sampleIndex := e.sampleIndex + 1 } := by
  simp only [envSample, (rawSample_stage e).2 hs, hf, hs]

theorem envSample_at_rest {alpha : F64} {e : Env} (h0 : flt c0 alpha = true) (h1 : flt alpha c1 = true)
    (hs : e.stage = .release) (hf : e.finished = true) (hstart : e.envAtRelease = c0) (hprev : e.prev = c0) :
    envSample alpha e = ({ e with sampleIndex := e.sampleIndex + 1 }, c0) := by
  have hgain : (envSample alpha e).2 = c0 := by
    change onePole alpha e.prev (rawSample e).raw = c0
    rw [hprev, onePole_c0 h0 h1 (isZero_raw_of_release hs hstart)]
  refine Prod.ext ?_ hgain
  rw [envSample_of_release hs (by simp [rawSample_finished, hf]), hgain, ← hprev, ← hf]

/-- Settles O36: at rest every sample is +0.0 (`envSample_at_rest`), and past the finishing sample the gain only decays
(`envSample_finished`). -/
theorem idleEnvelopeAnswersZero : Obligations.IdleEnvelopeAnswersZero := by
  intro inst s hp hi e
  refine ⟨fun hs hf hstart hprev => ?_, fun hs hover hprev => ?_⟩
  · rw [exec_envStep hi, envSample_at_rest hp.envAlpha_pos hp.envAlpha_lt hs hf hstart hprev]
    rfl
  · obtain ⟨-, hdecay, hle⟩ := envSample_finished hp.envAlpha_pos hp.envAlpha_lt hprev hs (BitVec.le_def.2 hover)
    have hfinished : (rawSample e).finished = true := by rw [rawSample_of_release_over hs hover]
    exact ⟨_, hdecay, hle, by rw [exec_envStep hi, envSample_of_release hs hfinished]⟩

/-! ### Ranges (R177) and the start (R170) -/

/-- Settles O39: a sample of a good envelope has a gain in [0, 1] and leaves a good envelope (`envSample_good`). -/
theorem gainsInRange : Obligations.GainsInRange := by
  intro inst s h hi
  have hlen : inst.toNat < s.env.length := h.shape.sized.env ▸ hi
  obtain ⟨hgood, hgain⟩ := envSample_good h.shape.params.envAlpha_pos h.shape.params.envAlpha_lt (h.envAt inst.toNat)
  have hafter := envAt_setEnv_self hlen (envSample s.params.envAlpha (s.envAt inst.toNat)).1
  exact ⟨_, _, exec_envStep hi, rfl, hgain, congrArg Env.prev hafter, hafter.symm ▸ hgood.envAtRelease⟩

/-- Settles O31: the envelope written out is `startEnvelope`, its counts `sampleCount`. -/
theorem envInitStarts : Obligations.EnvInitStarts :=
  fun _ _ _ _ _ _ _ hi hx => exec_envInit hi hx

end Sys2Proof.Machine
end

section
/-!
Equality of binary64 values up to the sign of a zero (R12, log 21): the clamp keeps it, adding a zero of either sign and
multiplying by 1.0 change nothing else, and sums and differences of zeros are zeros.
-/

namespace Sys2Proof.Machine

theorem feq_iff {a b : F64} :
    feq a b = true ↔ isNaN a = false ∧ isNaN b = false ∧ orderKey a = orderKey b := by
  simp [feq, and_assoc]

theorem feq_trans {a b c : F64} (hab : feq a b = true) (hbc : feq b c = true) : feq a c = true := by
  obtain ⟨ha, -, hab⟩ := feq_iff.1 hab
  obtain ⟨-, hc, hbc⟩ := feq_iff.1 hbc
  exact feq_iff.2 ⟨ha, hc, hab.trans hbc⟩

theorem fle_of_feq {a b : F64} (h : feq a b = true) : fle a b = true ∧ fle b a = true := by
  obtain ⟨ha, hb, hkey⟩ := feq_iff.1 h
  exact ⟨(fle_iff ha hb).2 hkey.le, (fle_iff hb ha).2 hkey.ge⟩

theorem isFinite_of_feq {a b : F64} (h : feq a b = true) (hb : isFinite b = true) : isFinite a = true :=
  isFinite_of_between hb hb (fle_of_feq h).2 (fle_of_feq h).1

theorem feq_c0_iff_isZero {a : F64} : feq a c0 = true ↔ isZero a = true := by
  rw [feq_iff, isZero_iff_orderKey]
  refine ⟨fun h => h.2.2, fun h => ⟨isNaN_of_isFinite (isFinite_of_isZero (isZero_iff_orderKey.2 h)), ?_, h⟩⟩
  decide

/-- Equal values are clamped alike. -/
theorem feq_fclamp {a b lo hi : F64} (h : feq a b = true) (hlo : isNaN lo = false) (hhi : isNaN hi = false) :
    feq (fclamp a lo hi) (fclamp b lo hi) = true := by
  obtain ⟨ha, hb, hkey⟩ := feq_iff.1 h
  have hbelow : flt a lo = flt b lo := by simp only [flt, ha, hb, hkey]
  have habove : flt hi a = flt hi b := by simp only [flt, ha, hb, hkey]
  rw [fclamp, fclamp, hbelow, habove]
  split
  · exact feq_iff.2 ⟨hlo, hlo, rfl⟩
  · split
    · exact feq_iff.2 ⟨hhi, hhi, rfl⟩
    · exact h

/-- Adding a zero of either sign. -/
theorem feq_fadd_of_isZero {a z : F64} (ha : isFinite a = true) (hz : isZero z = true) : feq (fadd a z) a = true := by
  have hval : val a + val z = val a := by rw [isZero_iff_val.1 hz, add_zero]
  have hzf := isFinite_of_isZero hz
  exact feq_of_fle (fadd_le ha hzf ha hval.le) (le_fadd ha hzf ha hval.ge)

theorem feq_fmul_c1 {x : F64} (hx : isFinite x = true) : feq (fmul c1 x) x = true := by
  have hval : val c1 * val x = val x := by rw [val_c1, one_mul]
  exact feq_of_fle (fmul_le (by decide) hx hx hval.le) (le_fmul (by decide) hx hx hval.ge)

theorem isZero_fadd {a b : F64} (ha : isZero a = true) (hb : isZero b = true) : isZero (fadd a b) = true :=
  feq_c0_iff_isZero.1 (feq_trans (feq_fadd_of_isZero (isFinite_of_isZero ha) hb) (feq_c0_iff_isZero.2 ha))

theorem isZero_fsub {a b : F64} (ha : isZero a = true) (hb : isZero b = true) : isZero (fsub a b) = true :=
  isZero_fadd ha (by rw [isZero, fneg_toNat_mod]; exact hb)

theorem fmul_comm_of_finite {a b : F64} (ha : isFinite a = true) (hb : isFinite b = true) : fmul a b = fmul b a := by
  rw [fmul_finite ha hb, fmul_finite hb ha, Nat.mul_comm, bne_comm]

end Sys2Proof.Machine
end

section
/-!
The filter commands (R200-R211): the whole next state of each that is performed, the two branches of a sample, and what
follows for a whole FILT_APPLY and for a filter at reset.
-/

namespace Sys2Proof.Machine

/-! ### The commands performed -/

theorem exec_filtUpdate {inst fa : Byte} {t : FiltType} {cutoff qIn : F64} {s : State}
    (hi : inst.toNat < s.params.numFilt)
    (hfa : fa = 0 ∧ t = .lowpass ∨ fa = 1 ∧ t = .highpass ∨ fa = 2 ∧ t = .bandpass)
    (hc : isFinite cutoff = true) (hq : isFinite qIn = true) :
    exec (.filtUpdate inst fa 0 cutoff qIn) s = .next
      (State.answered
        { s with filt := s.filt.set inst.toNat (updateFilter (s.filtAt inst.toNat) t cutoff qIn) } 0x30 []) := by
  have ht : filtTypeOf fa = t ∧ (Instr.filtUpdate inst fa 0 cutoff qIn).wellFormed = true := by
    rcases hfa with ⟨rfl, rfl⟩ | ⟨rfl, rfl⟩ | ⟨rfl, rfl⟩ <;> exact ⟨rfl, rfl⟩
  obtain ⟨rfl, hwf⟩ := ht
  exact exec_performed (failure_none_iff.2
    ⟨hwf, fun _ h => Option.some.inj h ▸ hi, nofun, by simp [Instr.realOperands, hc, hq], nofun⟩)

theorem exec_filtReset {inst : Byte} {s : State} (hi : inst.toNat < s.params.numFilt) :
    exec (.filtReset inst 0 0) s = .next
      (State.answered { s with filt := s.filt.set inst.toNat (resetFilter (s.filtAt inst.toNat)) } 0x31 []) :=
  exec_performed (failure_none_iff.2 ⟨rfl, fun _ h => Option.some.inj h ▸ hi, nofun, nofun, nofun⟩)

theorem exec_filtProcess {inst : Byte} {x : F64} {s : State} (hi : inst.toNat < s.params.numFilt)
    (hx : isFinite x = true) :
    exec (.filtProcess inst 0 0 x) s = .next
      (State.answered
        { s with filt := s.filt.set inst.toNat (filtSample s.params.filtSmoothK (s.filtAt inst.toNat) x).1 } 0x32
        [(filtSample s.params.filtSmoothK (s.filtAt inst.toNat) x).2]) :=
  exec_performed (failure_none_iff.2
    ⟨rfl, fun _ h => Option.some.inj h ▸ hi, nofun, by simpa [Instr.realOperands] using hx, nofun⟩)

theorem exec_filtApply {inst b : Byte} {s : State} (hi : inst.toNat < s.params.numFilt)
    (hb : b.toNat < s.params.numBuf) :
    exec (.filtApply inst b 0) s = .next ((filtApply s inst.toNat b.toNat).answered 0x33 []) :=
  exec_performed
    (failure_none_iff.2 ⟨rfl, fun _ h => Option.some.inj h ▸ hi, fun _ h => Option.some.inj h ▸ hb, nofun, nofun⟩)

/-! ### The target and the snap (R200-R205) -/

/-- Settles O40: the checks pass for each of the three values of FA, which name the three types; the filter written out
is `updateFilter`. -/
theorem filtUpdateDesigns : Obligations.FiltUpdateDesigns := by
  intro inst fa t cutoff qIn s hi hfa hc hq
  rw [exec_filtUpdate hi hfa hc hq]
  cases t <;> rfl

/-- Settles O41: the filter written out is `resetFilter`. -/
theorem filtResetSnaps : Obligations.FiltResetSnaps :=
  fun _ _ hi => exec_filtReset hi

/-! ### One sample (R206-R209) -/

section
variable {k x y nz1 nz2 : F64} {f : Filt} {cur : Coeffs}

/-- R207: y and both new taps finite. -/
theorem filtSample_of_finite (hcur : nudgeCoeffs k f.cur f.tgt = cur) (hy : filtOutput cur f.z1 x = y)
    (h1 : filtTap1 cur f.z2 x y = nz1) (h2 : filtTap2 cur x y = nz2)
    (h : isFinite y = true ∧ isFinite nz1 = true ∧ isFinite nz2 = true) :
    filtSample k f x = ({ f with cur := cur, z1 := nz1, z2 := nz2 }, fclamp y cNeg1 c1) := by
  subst hcur hy h1 h2
  exact if_pos (by simpa [allFinite] using h)

/-- R207: the recovery. -/
theorem filtSample_of_not_finite (hcur : nudgeCoeffs k f.cur f.tgt = cur) (hy : filtOutput cur f.z1 x = y)
    (h1 : filtTap1 cur f.z2 x y = nz1) (h2 : filtTap2 cur x y = nz2)
    (h : ¬(isFinite y = true ∧ isFinite nz1 = true ∧ isFinite nz2 = true)) :
    filtSample k f x = ({ f with cur := cur, z1 := c0, z2 := c0, nonfinite := true }, c0) := by
  subst hcur hy h1 h2
  exact if_neg (by simpa [allFinite] using h)

end

/-- Settles O42: the two branches of `filtSample`, its intermediate values written out. -/
theorem filtProcessSamples : Obligations.FiltProcessSamples := by
  intro inst x s hi hx f nudged cur y nz1 nz2
  rw [exec_filtProcess hi hx]
  constructor
  · intro h
    rw [filtSample_of_finite (cur := cur) (y := y) (nz1 := nz1) (nz2 := nz2) rfl rfl rfl rfl h]
  · intro h
    rw [filtSample_of_not_finite (cur := cur) (y := y) (nz1 := nz1) (nz2 := nz2) rfl rfl rfl rfl h]

/-- Settles O44: the sample of `filtSample_spec`. -/
theorem filteredSamplesInRange : Obligations.FilteredSamplesInRange := by
  intro inst x s hi hx
  obtain ⟨hy, h1, h2, -⟩ := filtSample_spec s.params.filtSmoothK (s.filtAt inst.toNat) x
  exact ⟨_, _, exec_filtProcess hi hx, hy.signed.1, hy, h1, h2⟩

/-! ### N samples (R210) -/

/-- Settles O43: the sweep's unit before word k is the filter that k FILT_PROCESS steps on the words before it leave. -/
theorem filtApplyIsSteps : Obligations.FiltApplyIsSteps := by
  intro inst b s hwf hfinite hi hb
  set word := filtWord s.params.filtSmoothK
  obtain ⟨hunit, hwords, houtside⟩ := sweepBuffer_spec hwf b.toNat word (s.filtAt inst.toNat)
  set filter := sweepUnit word (wordAddr s.params.n b.toNat 0) s.mem (s.filtAt inst.toNat)
  refine ⟨filter, fun k => (word k (filter k) (readWord s.mem (wordAddr s.params.n b.toNat k))).2,
    (s.sweepBuffer b.toNat word (s.filtAt inst.toNat)).2, rfl, fun k u _ hp hu => ?_, ?_, hwords, houtside⟩
  · rw [exec_filtProcess (hp ▸ hi) (finite_readWord hfinite _), hp, hu]
    rfl
  · rw [exec_filtApply hi hb, ← hunit]
    rfl

/-! ### A filter at reset (R211 (a), R341) -/

/-- R207: the identity at its target stays to the bit, for the step added to each coefficient is +0.0. -/
theorem nudgeCoeffs_identity {k : F64} (h0 : flt c0 k = true) (h1 : fle k c1 = true) :
    nudgeCoeffs k .identity .identity = .identity := by
  have hk : isFinite k = true := isFinite_of_between c0_finite (by decide) (fle_of_flt h0) h1
  have hstep : fmul k c0 = c0 := (fmul_comm_of_finite hk c0_finite).trans (fmul_c0_of_pos hk h0)
  have one : nudge k c1 c1 = c1 := by
    rw [nudge, show fsub c1 c1 = c0 by decide, hstep]
    decide +kernel
  have zero : nudge k c0 c0 = c0 := by
    rw [nudge, show fsub c0 c0 = c0 by decide, hstep]
    decide
  simp only [nudgeCoeffs, Coeffs.identity, one, zero]

section
variable {x y : F64}

theorem feq_filtOutput_identity {z1 : F64} (hx : isFinite x = true) (h1 : isZero z1 = true) :
    feq (filtOutput .identity z1 x) x = true :=
  have hproduct := feq_fmul_c1 hx
  feq_trans (feq_fadd_of_isZero (isFinite_of_feq hproduct hx) h1) hproduct

theorem isZero_filtTap2_identity (hx : isFinite x = true) (hy : isFinite y = true) :
    isZero (filtTap2 .identity x y) = true :=
  isZero_fsub (isZero_fmul c0_isZero (fmul_not_nan c0_finite hx)) (isZero_fmul c0_isZero (fmul_not_nan c0_finite hy))

theorem isZero_filtTap1_identity {z2 : F64} (hx : isFinite x = true) (hy : isFinite y = true)
    (h2 : isZero z2 = true) : isZero (filtTap1 .identity z2 x y) = true :=
  isZero_fadd (isZero_filtTap2_identity hx hy) h2

end

/-- Settles O45: the coefficients stay (`nudgeCoeffs_identity`), y is x and the new taps are zeros, so the sample does
not recover. -/
theorem resetFilterPasses : Obligations.ResetFilterPasses := by
  intro inst x s hp hi hx hcur htgt hz1 hz2
  have hcoeffs : nudgeCoeffs s.params.filtSmoothK (s.filtAt inst.toNat).cur (s.filtAt inst.toNat).tgt = .identity := by
    rw [hcur, htgt, nudgeCoeffs_identity hp.filtSmoothK_pos hp.filtSmoothK_le]
  have hy := feq_filtOutput_identity hx (feq_c0_iff_isZero.1 hz1)
  have hyf := isFinite_of_feq hy hx
  have htap1 := isZero_filtTap1_identity hx hyf (feq_c0_iff_isZero.1 hz2)
  have htap2 := isZero_filtTap2_identity hx hyf
  have hsample := filtSample_of_finite hcoeffs rfl rfl rfl
    ⟨hyf, isFinite_of_isZero htap1, isFinite_of_isZero htap2⟩
  refine ⟨_, _, _, ?_, feq_fclamp hy (by decide) (by decide), feq_c0_iff_isZero.2 htap1, feq_c0_iff_isZero.2 htap2⟩
  rw [exec_filtProcess hi hx, hsample, ← hcur]

end Sys2Proof.Machine
end

section
/-!
The LFO commands (R230-R233): the whole next state of each that is performed, the two branches of each, and a smoothed
value above the 25.0 of R233.
-/

namespace Sys2Proof.Machine

/-! ### LFO_ENABLE (R230) -/

theorem exec_lfoEnable {fa : Byte} {en : Bool} (s : State) (h : fa = 0 ∧ en = false ∨ fa = 1 ∧ en = true) :
    exec (.lfoEnable 0 fa 0) s = .next (State.answered { s with lfo := enableLfo s.lfo en } 0x40 []) := by
  rcases h with ⟨rfl, rfl⟩ | ⟨rfl, rfl⟩ <;> exact exec_performed rfl

theorem enableLfo_of_ne {l : Lfo} {en : Bool} (h : en ≠ l.enabled) :
    enableLfo l en = { enabled := en, phase := c0, prev := c0 } := if_neg h

theorem enableLfo_of_eq {l : Lfo} {en : Bool} (h : en = l.enabled) : enableLfo l en = l := if_pos h

/-- Settles O46: the two branches of `enableLfo`. -/
theorem lfoEnableSets : Obligations.LfoEnableSets := by
  intro fa en s hfa
  rw [exec_lfoEnable s hfa]
  exact ⟨fun h => by rw [enableLfo_of_ne h], fun h => by rw [enableLfo_of_eq h]⟩

/-! ### LFO_STEP (R231, R232) -/

theorem exec_lfoStep {rate depth : F64} (s : State) (hr : isFinite rate = true) (hd : isFinite depth = true) :
    exec (.lfoStep 0 0 0 rate depth) s = .next
      (State.answered { s with lfo := (lfoSample s.params.lfoAlpha s.lfo rate depth).1 } 0x41
        [(lfoSample s.params.lfoAlpha s.lfo rate depth).2]) :=
  exec_performed (failure_none_iff.2
    ⟨rfl, fun _ h => Option.some.inj h ▸ Nat.one_pos, nofun, by simp [Instr.realOperands, hr, hd], nofun⟩)

section
variable {l : Lfo} (alpha rate depth : F64)

theorem lfoSample_of_disabled (h : l.enabled = false) : lfoSample alpha l rate depth = (l, c0) := by
  simp [lfoSample, h]

theorem lfoSample_of_enabled (h : l.enabled = true) :
    lfoSample alpha l rate depth =
      let v := onePole alpha l.prev (fmul (fmul (fnSin l.phase) (clampDepth depth)) c0p25)
      ({ enabled := true, phase := wrapAcc (fadd l.phase (phaseIncrement (clampRate rate))), prev := v }, v) := by
  simp [lfoSample, h]

end

/-- Settles O47: the two branches of `lfoSample`. -/
theorem lfoStepSamples : Obligations.LfoStepSamples := by
  intro rate depth s hr hd
  rw [exec_lfoStep s hr hd]
  constructor
  · intro h
    rw [lfoSample_of_disabled _ _ _ h]
    rfl
  · intro h
    rw [lfoSample_of_enabled _ _ _ h]
    rfl

/-! ### The smoothed value (R233, log 16) -/

/-- R232 with PREV and raw both 25.0: the sum of the two rounded products is a rounding above 25.0. -/
theorem onePole_25_25 : onePole 0x3FD27BF3BAEB42B5 0x4039000000000000 0x4039000000000000 = 0x4039000000000001 := by
  decide +kernel

/-- Refutes O48: at this alpha one rounding takes two values of 25.0 above 25.0 (`onePole_25_25`). -/
theorem not_smoothingStaysWithin25 : ¬ Obligations.SmoothingStaysWithin25 := by
  intro h
  have hbound : Within 0xC039000000000000 0x4039000000000000
      (onePole 0x3FD27BF3BAEB42B5 0x4039000000000000 0x4039000000000000) :=
    h 0x3FD27BF3BAEB42B5 0x4039000000000000 0x4039000000000000 (by decide) (by decide) (by decide) (by decide)
  rw [onePole_25_25] at hbound
  exact absurd hbound (by decide)

end Sys2Proof.Machine
end

section
/-!
The core control and buffer commands (R250-R258): the whole next state of each that is performed, the registers of
Table S1 as a list for each class, and the two fields of the error registers as the numbers R252 gives.
-/

namespace Sys2Proof.Machine

/-! ### NOP and ERR_CLEAR (R250, R253) -/

/-- Settles O17: no check is made of a NOP, and its status word is 0. -/
theorem nopDoesNothing : Obligations.NopDoesNothing := by
  intro inst fa fb s
  rw [← show statusWord 0x00 .ok = 0 by decide]
  exact exec_performed rfl

/-- Settles O20: ERR_CLEAR's effect is the reset value of the error registers. -/
theorem errClearClears : Obligations.ErrClearClears :=
  fun _ => exec_performed rfl

/-! ### REG_READ (R252) -/

theorem exec_regRead {inst cls fb : Byte} {v : U64} {s : State} (hi : inst.toNat < classCount s.params cls)
    (hv : regValue s cls inst.toNat fb.toNat = some v) :
    exec (.regRead inst cls fb) s = .next (s.answered 0x02 [v]) := by
  have hlisted : (Instr.regRead inst cls fb).wellFormed = true := by
    rw [Instr.wellFormed, ← regValue_isSome s cls inst.toNat, hv, Option.isSome_some]
  rw [exec_performed (failure_none_iff.2 ⟨hlisted, fun _ hc => Option.some.inj hc ▸ hi, nofun, nofun, nofun⟩),
    respond_eq_answered, result, hv]
  rfl

/-! A register table is the list of its values in the table's order, with none behind them. -/

theorem coreRegister_eq_getElem? (s : State) (r : Nat) :
    coreRegister s r =
      [CORE_ID, BitVec.ofNat 64 s.params.n, BitVec.ofNat 64 s.params.numVoices, BitVec.ofNat 64 s.params.numBuf,
        s.err.errWord, s.err.cmdWord, cfgFlags s.params, s.params.envAlpha, s.params.filtSmoothK, s.params.lfoAlpha,
        s.params.softclipDrive][r]? := by
  match r with
  | 0 | 1 | 2 | 3 | 4 | 5 | 6 | 7 | 8 | 9 | 10 | _ + 11 => rfl

theorem oscRegister_eq_getElem? (o : Osc) (r : Nat) :
    oscRegister o r = [o.waveform.number, o.phase, o.frequency][r]? := by
  match r with
  | 0 | 1 | 2 | _ + 3 => rfl

theorem envRegister_eq_getElem? (e : Env) (r : Nat) :
    envRegister e r =
      [e.stage.number, e.flags, e.sampleIndex, e.releaseStart, e.envAtRelease, e.prev, e.attackSamples, e.decaySamples,
        e.sustainSamples, e.releaseSamples, e.sustainLevel][r]? := by
  match r with
  | 0 | 1 | 2 | 3 | 4 | 5 | 6 | 7 | 8 | 9 | 10 | _ + 11 => rfl

theorem filtRegister_eq_getElem? (f : Filt) (r : Nat) :
    filtRegister f r =
      [f.type.number, f.flags, f.cutoff, f.q, f.tgt.a0, f.tgt.a1, f.tgt.a2, f.tgt.b1, f.tgt.b2, f.cur.a0, f.cur.a1,
        f.cur.a2, f.cur.b1, f.cur.b2, f.z1, f.z2][r]? := by
  match r with
  | 0 | 1 | 2 | 3 | 4 | 5 | 6 | 7 | 8 | 9 | 10 | 11 | 12 | 13 | 14 | 15 | _ + 16 => rfl

theorem lfoRegister_eq_getElem? (l : Lfo) (r : Nat) :
    lfoRegister l r = [flagWord l.enabled, l.phase, l.prev][r]? := by
  match r with
  | 0 | 1 | 2 | _ + 3 => rfl

/-- R252: the fields of ERR by their weight. -/
theorem ErrorRegs.errWord_eq (e : ErrorRegs) :
    e.errWord =
      BitVec.ofNat 64 (e.code.code.toNat + (if e.valid then 256 else 0) + (if e.overflow then 512 else 0)) := by
  unfold ErrorRegs.errWord
  cases e.code <;> cases e.valid <;> cases e.overflow <;> decide

theorem ErrorRegs.cmdWord_eq (e : ErrorRegs) : e.cmdWord = BitVec.ofNat 64 e.cmd.toNat :=
  (BitVec.ofNat_toNat ..).symm

theorem cfgFlags_eq (p : Params) : cfgFlags p = if p.unisonBasePhase = .advance then 1 else 0 := by
  by_cases h : p.unisonBasePhase = .advance <;> simp [cfgFlags, flagWord, h]

/-- R252: the flags of a filter by their weight. -/
theorem Filt.flags_eq (f : Filt) : f.flags = (if f.fallback then 1 else 0) + (if f.nonfinite then 2 else 0) := by
  unfold Filt.flags
  cases f.fallback <;> cases f.nonfinite <;> rfl

/-- Settles O19: each class's list is its register table, with the flags and the error registers as numbers. -/
theorem regReadValues : Obligations.RegReadValues := by
  intro s inst cls fb v h
  rcases h with ⟨rfl, hi, hv⟩ | ⟨rfl, hi, hv⟩ | ⟨rfl, hi, hv⟩ | ⟨rfl, hi, hv⟩ | ⟨rfl, hi, hv⟩
  · rw [← ErrorRegs.errWord_eq, ← ErrorRegs.cmdWord_eq, ← cfgFlags_eq] at hv
    exact exec_regRead hi ((coreRegister_eq_getElem? ..).trans hv)
  · exact exec_regRead hi ((oscRegister_eq_getElem? ..).trans hv)
  · exact exec_regRead hi ((envRegister_eq_getElem? ..).trans hv)
  · exact exec_regRead hi ((filtRegister_eq_getElem? ..).trans (Filt.flags_eq _ ▸ hv))
  · exact exec_regRead hi ((lfoRegister_eq_getElem? ..).trans hv)

/-! ### The buffer commands (R256-R258) -/

theorem exec_bufWrite {b : Byte} {n : U64} {value : F64} {s : State} (hb : b.toNat < s.params.numBuf)
    (hvalue : isFinite value = true) (hn : n.toNat < s.params.n) :
    exec (.bufWrite 0 b 0 n value) s = .next ((s.memWrite b.toNat n.toNat value).answered 0x08 []) :=
  exec_performed (failure_none_iff.2
    ⟨rfl, nofun, fun _ h => Option.some.inj h ▸ hb, by simpa [Instr.realOperands] using hvalue,
      fun _ h => Option.some.inj h ▸ hn⟩)

theorem exec_bufClear {b : Byte} {s : State} (hb : b.toNat < s.params.numBuf) :
    exec (.bufClear 0 b 0) s = .next ((clearBuffer s b.toNat).answered 0x0A []) :=
  exec_performed (failure_none_iff.2 ⟨rfl, nofun, fun _ h => Option.some.inj h ▸ hb, nofun, nofun⟩)

/-- Settles O21: the memory after it is `writeWord` at the word's address, whose reads `readWord_writeWord` gives. -/
theorem bufWriteStores : Obligations.BufWriteStores := by
  intro b n value s hwf hb hvalue hn
  refine ⟨_, exec_bufWrite hb hvalue hn, ?_, fun a ha => ?_⟩
  · rw [readWord_writeWord hwf, if_pos rfl]
  · rw [readWord_writeWord hwf, if_neg ha]

/-- Settles O22: its three checks pass, and its result is the word. -/
theorem bufReadAnswers : Obligations.BufReadAnswers :=
  fun _ _ _ hb hn => exec_performed (failure_none_iff.2
    ⟨rfl, nofun, fun _ h => Option.some.inj h ▸ hb, nofun, fun _ h => Option.some.inj h ▸ hn⟩)

/-- Settles O23: the sweep leaves +0.0 in the buffer (`readWord_clearBuffer`) and every word outside it. -/
theorem bufClearFills : Obligations.BufClearFills :=
  fun _ _ hwf hb => ⟨_, exec_bufClear hb, fun _ hn => readWord_clearBuffer hwf hn,
    fun _ ha => readWord_sweepBuffer_of_outside hwf ha _ _⟩

end Sys2Proof.Machine
end

section
/-!
The host contract (R280-R301). A tick fails where the host does, or where a command that it sends is refused
(`exchange_refused`), and a failed tick is silence (`Synth.tick_of_failed`); a pool without voices leaves the folds over
its slots where they began.
-/

namespace Sys2Proof.Machine

/-! ### One command refused (R297, R313) -/

theorem isOkResponse_statusWord (opc : Byte) (st : Status) : isOkResponse [statusWord opc st] = decide (st = .ok) := by
  have hcode : (statusWord opc st).extractLsb' 0 8 = st.code := by
    rw [statusWord, BitVec.extractLsb'_append_eq_right]
  rw [isOkResponse, hcode]
  cases st <;> decide

theorem exchange_refused {b : State} {i : Instr} {st : Status} (h : i.failure b.params = some st) :
    (exchange b i).2 = [statusWord i.opc st] := by
  have hd : decode (encode i) = .command i [] := by simpa using decodeEncode i []
  have hstep : step { b with cmdPort := encode i } = .next _ := (step_of_command hd).trans (exec_refused h)
  simp [exchange, hstep]

theorem send_failed_of_refused {l : Link} {i : Instr} (hrun : l.halted = false)
    (hi : i.failure l.block.params ≠ none) : (l.send i).1.failed = true := by
  obtain ⟨st, hst⟩ := Option.ne_none_iff_exists'.1 hi
  refine send_failed hrun ?_
  rw [exchange_refused hst, isOkResponse_statusWord, decide_eq_false_iff_not]
  rintro rfl
  exact failure_ne_ok i _ hst

theorem lfoStep_failure_ne_none {rate depth : F64} (h : isFinite rate = false) (p : Params) :
    (Instr.lfoStep 0 0 0 rate depth).failure p ≠ none := by
  intro hnone
  obtain ⟨-, -, -, hfinite, -⟩ := failure_none_iff.1 hnone
  have hrate : isFinite rate = true := hfinite rate (by simp [Instr.realOperands])
  exact Bool.false_ne_true (h.symm.trans hrate)

theorem sendAll_append (l : Link) (is js : List Instr) : l.sendAll (is ++ js) = (l.sendAll is).sendAll js :=
  List.foldl_append

/-- R300 ends a tick's LFO commands with the LFO_STEP, and the block refuses one whose rate is not finite (R231). -/
theorem sendAll_lfoCommands_failed {l : Link} (hl : l.budget = none) (sent : Bool) {p : Snapshot}
    (hp : isFinite p.lfoRate = false) : (l.sendAll (lfoCommands sent p)).failed = true := by
  rw [lfoCommands, sendAll_append]
  exact send_failed_of_refused (halted_of_budget_none ((sendAll_keeps l _).budget hl)) (lfoStep_failure_ne_none hp _)

/-! ### A tick that fails (R297) -/

section
variable (h : HostParams) (now : Nat) (fails : Option Nat) (p : Snapshot) (y : Synth)

/-- The link, the pool and the events left, after the tick's note events (R299). -/
def Synth.drained : Link × Bank × List NoteEvent :=
  drainEvents h now p y.events { y.link with failed := fails.isSome, budget := fails } y.bank

/-- The link, the pool and the bytes, after the tick's note events, its LFO commands and its mixing (R291, R300). -/
def Synth.mixed : Link × Bank × List Byte :=
  mixVoices h now p ((y.drained h now fails p).1.sendAll (lfoCommands y.lfoSent p)) (y.drained h now fails p).2.1

theorem Synth.tick_buffer :
    (y.tick h now fails p).2 =
      if (y.mixed h now fails p).1.failed then silence (y.mixed h now fails p).1.known.n
      else (y.mixed h now fails p).2.2 := rfl

theorem Synth.tick_failures :
    (y.tick h now fails p).1.failures =
      if (y.mixed h now fails p).1.failed then y.failures ++ [now] else y.failures := rfl

theorem Synth.mixed_known : (y.mixed h now fails p).1.known = y.link.known := by
  have hdrain := drainEvents_keeps h now p y.events { y.link with failed := fails.isSome, budget := fails } y.bank
  exact (mixVoices_keeps h now p _ _).known.trans ((sendAll_keeps _ _).known.trans hdrain.known)

/-- The host's own failure is there from the start; a refused LFO_STEP is one of a host that does not fail otherwise. -/
theorem Synth.mixed_failed (hfails : fails ≠ none ∨ isFinite p.lfoRate = false) :
    (y.mixed h now fails p).1.failed = true := by
  have hdrain := drainEvents_keeps h now p y.events { y.link with failed := fails.isSome, budget := fails } y.bank
  refine (mixVoices_keeps h now p _ _).failed ?_
  by_cases hhost : fails = none
  · exact sendAll_lfoCommands_failed (hdrain.budget hhost) y.lfoSent (hfails.resolve_left (· hhost))
  · exact (sendAll_keeps _ _).failed (hdrain.failed (Option.isSome_iff_ne_none.2 hhost))

theorem Synth.tick_of_failed (hfailed : (y.mixed h now fails p).1.failed = true) :
    (y.tick h now fails p).2 = silence y.link.known.n ∧ (y.tick h now fails p).1.failures = y.failures ++ [now] := by
  rw [Synth.tick_buffer, Synth.tick_failures, if_pos hfailed, if_pos hfailed, Synth.mixed_known]
  exact ⟨rfl, rfl⟩

end

/-! ### The Mixer's lifecycle (R295, R296, R298) -/

section
variable (h : HostParams) {y : Synth}

theorem Synth.turn_of_not_running (hy : y.mixer ≠ .running) (now : Nat) (fails : Option Nat) (p : Snapshot) :
    y.turn h now fails p = y := by
  unfold Synth.turn
  split <;> trivial

theorem Synth.act_mixer_of_stopped (hy : y.mixer = .stopped) (a : HostAction) : (y.act h a).mixer = .stopped := by
  cases a with
  | start now device => simp [Synth.act, Synth.start, hy]
  | turn now fails p => rwa [Synth.act, y.turn_of_not_running h (by simp [hy])]
  | post | clearErrors | stop => exact hy

theorem Synth.start_of_act_leaves_idle (hy : y.mixer = .idle) {a : HostAction} (ha : (y.act h a).mixer ≠ .idle) :
    ∃ now device, a = .start now device := by
  cases a with
  | start now device => exact ⟨now, device, rfl⟩
  | turn now fails p =>
    rw [Synth.act, y.turn_of_not_running h (by simp [hy])] at ha
    exact absurd hy ha
  | post | clearErrors | stop => exact absurd hy ha

theorem Synth.start_of_idle (hy : y.mixer = .idle) (now : Nat) (device : List SinkFormat) :
    y.start now device = (openSink device).map fun k =>
      { y with mixer := .running, running := true, deadline := now + y.link.known.n, sink := some k } := by
  simp [Synth.start, hy]

theorem openSink_of_not_mem {device : List SinkFormat} (hd : pcmFormat ∉ device) :
    openSink device = .error .unsupportedDevice := if_neg hd

theorem openSink_of_mem {device : List SinkFormat} (hd : pcmFormat ∈ device) :
    openSink device = .ok { format := pcmFormat, isOpen := true, written := [] } := if_pos hd

theorem Synth.turn_stop (hy : y.mixer = .running) (now : Nat) (fails : Option Nat) (p : Snapshot) :
    y.stop.turn h now fails p = y.stop.drain := by
  simp [Synth.turn, hy]

theorem Synth.drain_of_open {k : Sink} (hk : y.sink = some k) (hopen : k.isOpen = true) :
    y.drain = { y with
      mixer := .stopped
      sink := some { k with isOpen := false, written := k.written ++ [silence y.link.known.n] } } := by
  simp [Synth.drain, Sink.release, hk, hopen]

end

/-- Settles O60: the states of the Mixer action by action, `start` by whether the device has the format, the turn after
`stop` is `drain` (`Synth.turn_stop`), and a tick that fails is silence (`Synth.tick_of_failed`). -/
theorem mixerLifecycle : Obligations.MixerLifecycle := by
  intro h y
  refine ⟨fun a hy => Synth.act_mixer_of_stopped h hy a, fun a hy ha => Synth.start_of_act_leaves_idle h hy ha,
    fun now device hy => ⟨fun hd => ?_, fun hd => ?_⟩, fun now fails p k hy hk hopen => ?_, fun hy => ?_,
    fun now fails p hfails => y.tick_of_failed h now fails p (y.mixed_failed h now fails p hfails)⟩
  · rw [Synth.start_of_idle hy, openSink_of_not_mem hd]
    rfl
  · rw [Synth.start_of_idle hy, openSink_of_mem hd]
    rfl
  · rw [Synth.turn_stop h hy, Synth.drain_of_open (y := y.stop) hk hopen]
    rfl
  · rw [Synth.destroy, hy]

/-! ### The voice bank (R288, R289, R291) -/

theorem feq_self {x : F64} (hx : isFinite x = true) : feq x x = true :=
  feq_iff.2 ⟨isNaN_of_isFinite hx, isNaN_of_isFinite hx, rfl⟩

theorem Bank.lookup_eq_head? (b : Bank) (frequency : F64) :
    b.lookup frequency = ((b.owner.filter fun e => feq e.1 frequency).head?).map Prod.snd := by
  rw [Bank.lookup, List.head?_filter]

/-- The map after a note-on that takes the slot v: its frequency's entry, and others that are not at that frequency. -/
theorem noteOn_owner {h : HostParams} {frequency : F64} {b : Bank} {v : Nat}
    (hv : (b.untrack frequency).takeSlot h.policy = some v) (now : Nat) (p : Snapshot) (l : Link) :
    (noteOn h now p frequency l b).2.owner =
      (frequency, v) :: (b.untrack frequency).owner.filter fun e => e.2 != v := by
  simp [noteOn, hv]

/-- Settles O58: untracking leaves no entry at the frequency, and the note-on puts one in front (`noteOn_owner`). -/
theorem noteOnLeavesOneVoice : Obligations.NoteOnLeavesOneVoice := by
  intro h now p frequency l b v hf hv
  have hone : ((noteOn h now p frequency l b).2.owner.filter fun e => feq e.1 frequency) = [(frequency, v)] := by
    rw [noteOn_owner hv, List.filter_cons, if_pos (feq_self hf), List.cons.injEq, List.filter_eq_nil_iff]
    refine ⟨rfl, fun e he => ?_⟩
    obtain ⟨-, huntracked⟩ := List.mem_filter.1 (List.mem_of_mem_filter he)
    simpa using huntracked
  exact ⟨hone, by rw [Bank.lookup_eq_head?, hone]; rfl⟩

section
variable {b : Bank} (hb : ∀ v, b.slots.getD v none = none)
include hb

theorem sumVoices_of_no_voices (h : HostParams) (p : Snapshot) (l : Link) :
    sumVoices h p l b = (l, b, List.replicate l.known.n 0) :=
  List.foldl_fixed' (fun v => by rw [hb v]) _

theorem prune_of_no_voices (h : HostParams) (now : Nat) (l : Link) : prune h now l b = (l, b) :=
  List.foldl_fixed' (fun v => by rw [hb v]) _

/-- Also a pool with entries left in its map. -/
theorem mixVoices_of_no_voices (h : HostParams) (now : Nat) (p : Snapshot) (l : Link) :
    mixVoices h now p l b = (l, b, silence l.known.n) := by
  have hbytes : pcmBytes (clampPcm 0) = List.replicate 2 0 := by decide
  rw [mixVoices, sumVoices_of_no_voices hb]
  dsimp only
  rw [prune_of_no_voices hb, List.map_replicate, List.flatMap_replicate, hbytes, List.flatten_replicate_replicate,
    silence, Nat.mul_comm]

end

theorem Bank.empty_slot (p : Params) (v : Nat) : (Bank.empty p).slots.getD v none = none := by
  simp [Bank.empty]

/-- Settles O56: the empty pool has no voice to sum or to prune. -/
theorem idleBankIsSilent : Obligations.IdleBankIsSilent :=
  fun h now p l => mixVoices_of_no_voices (Bank.empty_slot l.known) h now p l

/-! ### Samples as bytes (R286, R291) -/

/-- The two bytes of any integer, the high one in front, are its low 16 bits. -/
theorem ofInt_append_ofInt (x : Int) : (BitVec.ofInt 8 (x / 256) ++ BitVec.ofInt 8 (x % 256)) = BitVec.ofInt 16 x := by
  apply BitVec.eq_of_toNat_eq
  rw [BitVec.toNat_append, ← Nat.shiftLeft_add_eq_or_of_lt (BitVec.isLt _), Nat.shiftLeft_eq]
  simp only [BitVec.toNat_ofInt]
  omega

theorem clampPcm_cases (x : Int) :
    x < -32768 ∧ clampPcm x = -32768 ∨ (-32768 ≤ x ∧ x ≤ 32767) ∧ clampPcm x = x ∨ 32767 < x ∧ clampPcm x = 32767 := by
  unfold clampPcm
  omega

/-- Settles O57: the clamp case by case (`clampPcm_cases`), and a sample in the 16-bit range is the two's complement of
its two bytes (`ofInt_append_ofInt`). -/
theorem pcmClampsNeverWraps : Obligations.PcmClampsNeverWraps := by
  intro x
  have hx := clampPcm_cases x
  refine ⟨by omega, by omega, by omega, by omega, by omega, _, _, rfl, ?_⟩
  rw [ofInt_append_ofInt, BitVec.toInt_ofInt]
  exact Int.bmod_eq_of_le (by omega) (by omega)

end Sys2Proof.Machine
end

section
/-!
Failing commands and the order of the checks (R310-R313). A refused command and an illegal packet are both
`State.refuse`; the status of a command is read off `Instr.failure`, one lemma for each check of R312 to fail first.
-/

namespace Sys2Proof.Machine

/-! ### What a failing command writes (R313) -/

/-- A refusal as the statements write it. -/
theorem refuse_eq (s : State) (st : Status) (hdr : Word) :
    s.refuse st hdr = { s with
      err := if s.err.valid then { s.err with overflow := true }
        else { code := st, valid := true, overflow := false, cmd := hdr }
      respPort := s.respPort ++ [(0 : BitVec 16) ++ opcOf hdr ++ st.code] } := rfl

/-- Settles O14: a failing command (`exec_refused`) and an illegal packet (`step_of_illegal`) are refused. -/
theorem failingCommand : Obligations.FailingCommand := by
  refine ⟨fun i s st hf => ?_, fun s h rest hd => ?_⟩
  · rw [exec_refused hf, refuse_eq, opcOf_header]
  · rw [step_of_illegal hd, refuse_eq]
    rfl

/-! ### The first check to fail (R310-R312) -/

/-- R311: an operand that is not finite is a NaN or an infinity. -/
theorem isFinite_eq_false_iff {x : F64} : isFinite x = false ↔ isNaN x = true ∨ isInf x = true := by
  simp only [isFinite, isNaN, isInf, decide_eq_false_iff_not, decide_eq_true_eq]
  omega

theorem isFinite_of_not_nan_of_not_inf {x : F64} (hnan : isNaN x = false) (hinf : isInf x = false) :
    isFinite x = true := by
  rw [← Bool.not_eq_false, isFinite_eq_false_iff, hnan, hinf]
  simp

/-- A check passes when the field, if the command has it, is in range. -/
theorem any_le_eq_false {α : Type} {o : Option α} {lo hi : α → Nat} (h : ∀ x, o = some x → hi x < lo x) :
    o.any (fun x => lo x ≤ hi x) = false := by
  cases o with
  | none => rfl
  | some x => exact decide_eq_false (Nat.not_le.2 (h x rfl))

theorem failure_badField {i : Instr} (h : i.wellFormed = false) (p : Params) : i.failure p = some .badField := if_pos h

section
variable {i : Instr} {p : Params} (hfield : i.wellFormed = true)
include hfield

theorem failure_badInstance (h : ∃ c, i.instanceCount p = some c ∧ c ≤ i.inst.toNat) :
    i.failure p = some .badInstance := by
  obtain ⟨c, hc, hle⟩ := h
  simp [Instr.failure, hfield, hc, hle]

variable (hinst : ∀ c, i.instanceCount p = some c → i.inst.toNat < c)
include hinst

theorem failure_badBuffer (h : ∃ b, i.bufferField = some b ∧ p.numBuf ≤ b.toNat) : i.failure p = some .badBuffer := by
  obtain ⟨b, hb, hle⟩ := h
  simp [Instr.failure, hfield, any_le_eq_false hinst, hb, hle]

variable (hbuf : ∀ b, i.bufferField = some b → b.toNat < p.numBuf)
include hbuf

theorem failure_nonfiniteOperand (h : ∃ x ∈ i.realOperands, isFinite x = false) :
    i.failure p = some .nonfiniteOperand := by
  simpa [Instr.failure, hfield, any_le_eq_false hinst, any_le_eq_false hbuf] using h

variable (hreal : ∀ x ∈ i.realOperands, isFinite x = true)
include hreal

theorem failure_badIndex (h : ∃ n, i.indexOperand = some n ∧ p.n ≤ n.toNat) : i.failure p = some .badIndex := by
  obtain ⟨n, hn, hle⟩ := h
  simpa [Instr.failure, hfield, any_le_eq_false hinst, any_le_eq_false hbuf, hn, hle] using hreal

end

/-- R114: the response of every command begins with the status word of its first failing check. -/
theorem exec_status (i : Instr) (s : State) :
    ∃ t results, exec i s = .next t ∧
      t.respPort = s.respPort ++ statusWord i.opc ((i.failure s.params).getD .ok) :: results := by
  cases hf : i.failure s.params with
  | none => exact ⟨_, resultWords (result i s), exec_performed hf, by simp [effect_respPort]⟩
  | some st => exact ⟨_, [], exec_refused hf, by simp⟩

/-- Settles O15: the status answered is that of `Instr.failure` (`exec_status`), and each clause says which check is
the first to fail, or that none does (`failure_none_iff`). -/
theorem checkOrder : Obligations.CheckOrder := by
  intro i s
  obtain ⟨t, results, hexec, hresp⟩ := exec_status i s
  refine ⟨t, _, results, hexec, hresp, fun hbad => ?field, fun hfield => ⟨fun hbad => ?inst, fun hinst =>
    ⟨fun hbad => ?buffer, fun hbuf => ⟨fun ⟨x, hx, hbad⟩ => ?operand, fun hreal => ?_⟩⟩⟩⟩
  case field => rw [failure_badField hbad]; rfl
  case inst => rw [failure_badInstance hfield hbad]; rfl
  case buffer => rw [failure_badBuffer hfield hinst hbad]; rfl
  case operand => rw [failure_nonfiniteOperand hfield hinst hbuf ⟨x, hx, isFinite_eq_false_iff.2 hbad⟩]; rfl
  have hfinite : ∀ x ∈ i.realOperands, isFinite x = true := fun x hx =>
    isFinite_of_not_nan_of_not_inf (hreal x hx).1 (hreal x hx).2
  refine ⟨fun hbad => ?index, fun hidx => ?performed⟩
  case index => rw [failure_badIndex hfield hinst hbuf hfinite hbad]; rfl
  case performed => rw [failure_none_iff.2 ⟨hfield, hinst, hbuf, hfinite, hidx⟩]; rfl

end Sys2Proof.Machine
end

section
/-!
Reset and bring-up (R251, R340, R343), and waiting (log 7). At bring-up every packet finds an empty port and is
performed (`exchange_performed`), so the host gets the registers it asked for and the block only moves on (`readCore_eq`).
-/

namespace Sys2Proof.Machine

/-- Settles O10: what is not a whole packet decodes to nothing to do (`step_of_incomplete`). -/
theorem stepWaits : Obligations.StepWaits :=
  fun _ h => step_of_incomplete h

/-! ### CORE_RESET (R251) -/

theorem exec_coreReset (s : State) : exec (.coreReset 0 0 0) s = .next (s.resetAll.answered 0x01 []) :=
  exec_performed rfl

/-- Settles O18: the reset values are those of `State.resetAll`, whose memory lists no word. -/
theorem coreResetResetsAll : Obligations.CoreResetResetsAll :=
  fun s => ⟨_, exec_coreReset s, rfl, rfl, rfl, rfl, rfl, fun _ => rfl, rfl, rfl, rfl, rfl⟩

/-! ### Power-on (R340, R10) -/

/-- R10: 0 < ENV_ALPHA < 1, and so LFO_ALPHA, which has the same default (log 2). -/
theorem defaultEnvAlpha_legal : flt c0 defaultEnvAlpha = true ∧ flt defaultEnvAlpha c1 = true := by
  unfold defaultEnvAlpha
  split
  next h => exact Bool.and_eq_true_iff.1 h
  next => decide

/-- R10: 0 < FILT_SMOOTH_K <= 1. -/
theorem defaultFiltSmoothK_legal : flt c0 defaultFiltSmoothK = true ∧ fle defaultFiltSmoothK c1 = true := by
  unfold defaultFiltSmoothK
  split
  next h => exact Bool.and_eq_true_iff.1 h
  next => decide

theorem defaultParams_legal : LegalParams defaultParams where
  n_pos := by decide
  n_le := by decide
  numVoices_pos := by decide
  numVoices_le := by decide
  numBuf_pos := by decide
  numBuf_le := by decide
  envAlpha_pos := defaultEnvAlpha_legal.1
  envAlpha_lt := defaultEnvAlpha_legal.2
  filtSmoothK_pos := defaultFiltSmoothK_legal.1
  filtSmoothK_le := defaultFiltSmoothK_legal.2
  lfoAlpha_pos := defaultEnvAlpha_legal.1
  lfoAlpha_lt := defaultEnvAlpha_legal.2
  softclipDrive_finite := by decide
  softclipDrive_pos := by decide

/-- Settles O51: power-on is good where the parameters are legal (`State.Good.powerOn`), and the defaults are. -/
theorem powerOnIsGood : Obligations.PowerOnIsGood :=
  ⟨fun _ => .powerOn, .powerOn defaultParams_legal⟩

/-! ### One packet exchanged (R90, R114) -/

/-- The host's packet is whole and alone on the port, so the block performs it, and the host takes the response. -/
theorem exchange_performed {b : State} {i : Instr} (h : i.failure b.params = none) :
    exchange b i = (effect i (b.accept []), statusWord i.opc .ok :: resultWords (result i (b.accept []))) := by
  have hd : decode (encode i) = .command i [] := by simpa using decodeEncode i []
  have hport : (effect i (b.accept [])).respPort = b.respPort := effect_respPort ..
  have hstep : step { b with cmdPort := encode i } =
      .next ((effect i (b.accept [])).respond i.opc (result i (b.accept []))) :=
    (step_of_command hd).trans (exec_performed h)
  rw [exchange, hstep]
  dsimp only
  rw [State.respond_respPort, hport, List.drop_left, ← hport]
  rfl

theorem resultOf_response (w : Word) (r : Option U64) : resultOf (w :: resultWords r) = r := by
  cases r with
  | none => rfl
  | some v => simp [resultWords, resultOf]

/-! ### Bring-up (R343) -/

/-- A register of CORE is read (R252): the block moves one packet on, and the response carries the register. -/
theorem exchange_readCore {b : State} (hport : b.cmdPort = []) {n : Byte} (hn : n.toNat < registerCount 0) :
    exchange b (.regRead 0 0 n) =
      ({ b with position := b.position + 1 }, statusWord 0x02 .ok :: resultWords (coreRegister b n.toNat)) := by
  have hperformed : (Instr.regRead 0 0 n).failure b.params = none :=
    failure_none_iff.2 ⟨decide_eq_true hn, fun _ hc => Option.some.inj hc ▸ Nat.one_pos, nofun, nofun, nofun⟩
  rw [exchange_performed hperformed, State.accept, ← hport]
  rfl

/-- Registers of CORE read one after another: each has the value it had before the first was read. -/
theorem readCore_eq {b : State} (hport : b.cmdPort = []) (ns : List Byte) (hns : ∀ n ∈ ns, n.toNat < registerCount 0) :
    readCore b ns =
      ({ b with position := b.position + ns.length }, ns.map fun n => (coreRegister b n.toNat).getD 0) := by
  induction ns using List.reverseRecOn with
  | nil => rfl
  | append_singleton ns n ih =>
    have hbefore := ih fun m hm => hns m (List.mem_append_left _ hm)
    have hread := exchange_readCore (b := { b with position := b.position + ns.length }) hport (hns n (by simp))
    rw [readCore] at hbefore
    rw [readCore, List.foldl_concat, hbefore]
    dsimp only
    rw [hread, resultOf_response, List.map_append, List.length_append]
    rfl

/-- R34: CFG_FLAGS bit 0 tells UNISON_BASE_PHASE. -/
theorem basePhase_of_cfgFlags (p : Params) :
    (if (cfgFlags p).getLsbD 0 then BasePhase.advance else .hold) = p.unisonBasePhase := by
  unfold cfgFlags
  cases p.unisonBasePhase <;> rfl

theorem toNat_ofNat_count {k : Nat} (h : k ≤ 65536) : (BitVec.ofNat 64 k).toNat = k := by
  rw [BitVec.toNat_ofNat, Nat.mod_eq_of_lt (by omega)]

/-- The registers of bring-up in the order of Table S1. -/
theorem map_bringUpRegisters (b : State) :
    (bringUpRegisters.map fun n => (coreRegister b n.toNat).getD 0) =
      [CORE_ID, BitVec.ofNat 64 b.params.n, BitVec.ofNat 64 b.params.numVoices, BitVec.ofNat 64 b.params.numBuf,
        cfgFlags b.params, b.params.envAlpha, b.params.filtSmoothK, b.params.lfoAlpha, b.params.softclipDrive] := rfl

/-- R33, R34: ID and the CFG registers carry the parameters whole, since legal counts fit in 64 bits. -/
theorem learn_bringUpRegisters {b : State} (hp : LegalParams b.params) :
    learn (bringUpRegisters.map fun n => (coreRegister b n.toNat).getD 0) = some (CORE_ID, b.params) := by
  rw [map_bringUpRegisters, learn, toNat_ofNat_count hp.n_le, toNat_ofNat_count (hp.numVoices_le.trans (by decide)),
    toNat_ofNat_count (hp.numBuf_le.trans (by decide)), basePhase_of_cfgFlags]

/-- Settles O59: the reset is performed, and the nine registers then read are those of the reset block (`readCore_eq`),
of which the host learns the parameters (`learn_bringUpRegisters`). -/
theorem bringUpLearnsTheBlock : Obligations.BringUpLearnsTheBlock := by
  intro s hp
  have hreset : (exchange s (.coreReset 0 0 0)).1 = (s.accept []).resetAll := by rw [exchange_performed rfl]; rfl
  rw [bringUp, hreset, readCore_eq rfl bringUpRegisters (by decide)]
  dsimp only
  rw [learn_bringUpRegisters (b := (s.accept []).resetAll) hp]
  rfl

end Sys2Proof.Machine
end
